-- ==== Sys2Proof/Word.lean ====
section
/-! DEFINITION. The widths of HUFFCORE's words and fields, each under a name of its own
(spec/00_scope.md R7, spec/30_encoding.md R56 and R59). There is no signed quantity (R10). -/

namespace Sys2Proof

/-- A byte of a buffer; bit 7 is the most significant (R10). -/
abbrev Byte := BitVec 8

/-- A symbol: one byte, ordered by its unsigned value (10_state.md R15). -/
abbrev Symbol := BitVec 8

/-- The short operand field `a` of a command word (30_encoding.md R56). -/
abbrev OperandA := BitVec 8

/-- The long operand field `d` of a command word, and the data field of a response (R56, R59). -/
abbrev Word32 := BitVec 32

/-- A command word: 48 bits (R56). -/
abbrev CmdWord := BitVec 48

/-- A response word: 40 bits (R59). -/
abbrev RspWord := BitVec 40

/-- A count, one entry of FREQ: FREQ_W = 32 bits (10_state.md R23). -/
abbrev Count := BitVec 32

/-- A node index: IDX_W = 9 bits (10_state.md R24). -/
abbrev NodeIdx := BitVec 9

/-- The weight of a node: WGT_W = 40 bits (10_state.md R25). -/
abbrev Weight := BitVec 40

end Sys2Proof
end

