-- ==== Sys2Proof/Config.lean ====
section
/-! DEFINITION. The implementation parameters of spec/00_scope.md R7: the fixed and derived ones as
constants, the two open ones (SYM_CAP, BYTE_CAP) as a record that cannot be built outside the bounds
of R8. The spec leaves no value undefined (93_implementation_defined.md, end of part 2), so there is
no free value here. -/

namespace Sys2Proof

/-- NSYM, the number of symbols; the size of FREQ and CODE (R7). -/
def nsym : Nat := 256

/-- MAX_NODES, the size of the node arena (R7). -/
def maxNodes : Nat := 511

/-- MAX_CODE_LEN, the longest code in bits (R7, R9 (c)). -/
def maxCodeLen : Nat := 255

/-- NIL, the index that means "no node" (R7). -/
def NIL : NodeIdx := 0x1FF

/-- The open parameters SYM_CAP and BYTE_CAP with the bounds of R8. The bounds are part of the
record: a value outside them is refused because no such record exists. -/
structure Params where
  /-- SYM_CAP: capacity of SYMBUF in symbols. -/
  symCap : Nat
  /-- BYTE_CAP: capacity of BYTEBUF in bytes. -/
  byteCap : Nat
  symCap_pos : 1 ≤ symCap
  symCap_le : symCap ≤ 2 ^ 32 - 1
  byteCap_pos : 1 ≤ byteCap
  byteCap_le : byteCap ≤ 2 ^ 29 - 1
  deriving DecidableEq, Repr

/-- The parameters for two capacities, or none where R8 refuses them. -/
def Params.make? (symCap byteCap : Nat) : Option Params :=
  if h : (1 ≤ symCap ∧ symCap ≤ 2 ^ 32 - 1) ∧ (1 ≤ byteCap ∧ byteCap ≤ 2 ^ 29 - 1) then
    some ⟨symCap, byteCap, h.1.1, h.1.2, h.2.1, h.2.2⟩
  else none

/-- The default of R7: 4096 symbols and 4096 bytes. -/
def Params.default : Params := ⟨4096, 4096, by decide, by decide, by decide, by decide⟩

end Sys2Proof
end

