-- ==== Sys2Proof/Syntax.lean ====
section
/-! DEFINITION. The 21 commands of spec/30_encoding.md R60, one constructor per row of
spec/opcode_table.json. Operands are the fields of the command word as they stand (R58): `a` is 8
bits, `d` is 32. SYMS and BYTES (R65) are shorthands with no encoding and have no constructor. -/

namespace Sys2Proof

inductive Instr where
  /-- NOP (40_control.md R66). -/
  | nop
  /-- CLR (R67). -/
  | clr
  /-- RDREG a: read register number `a` (R68). -/
  | rdreg (a : OperandA)
  /-- WSYM a: append symbol `a` to SYMBUF (41_frequency_model.md R69). -/
  | wsym (a : OperandA)
  /-- RSYM d: read SYMBUF cell `d` (R70). -/
  | rsym (d : Word32)
  /-- CLRS: empty SYMBUF (R71). -/
  | clrs
  /-- FCOUNT: count the symbols of SYMBUF (R72). -/
  | fcount
  /-- FSET a, d: set FREQ entry `a` to `d` (R73). -/
  | fset (a : OperandA) (d : Word32)
  /-- FGET a: read FREQ entry `a` (R74). -/
  | fget (a : OperandA)
  /-- BUILD: build the tree and derive the codes (42_tree_builder.md R83). -/
  | build
  /-- NGET a, d: read field group `a` of node `d` (R86). -/
  | nget (a : OperandA) (d : Word32)
  /-- CGET a, d: read the length (`d` = 0) or chunk `d - 1` of the code of symbol `a`
  (43_code_table.md R93). -/
  | cget (a : OperandA) (d : Word32)
  /-- WBYTE a: append byte `a` to BYTEBUF (44_bitstream_codec.md R101). -/
  | wbyte (a : OperandA)
  /-- RBYTE d: read BYTEBUF cell `d` (R102). -/
  | rbyte (d : Word32)
  /-- CLRB: empty the stream (R103). -/
  | clrb
  /-- BPUT a, d: append the low `a` bits of `d` (R104). -/
  | bput (a : OperandA) (d : Word32)
  /-- BGET a, d: read `a` stream bits from bit offset `d` (R105). -/
  | bget (a : OperandA) (d : Word32)
  /-- ENCODE: encode SYMBUF into the stream (45_coder.md R106). -/
  | encode
  /-- DECODE d: decode the first `d` stream bits into SYMBUF (R112). -/
  | decode (d : Word32)
  /-- DSTEP a: one step of the decode walker with bit `a` (R110). -/
  | dstep (a : OperandA)
  /-- DRST: return the walker to the root (R111). -/
  | drst
  deriving DecidableEq, Repr

end Sys2Proof
end

