-- ==== Sys2Proof/WellFormed.lean ====
section
/-! DEFINITION. The column "legal values" of spec/30_encoding.md R60: which operand values make a
word a command (R61, R62). A command whose row says "any" is always well formed. -/

namespace Sys2Proof

/-- The operands of `i` are legal values of its row (R60). -/
def Instr.wf : Instr → Bool
  | .nop => true
  | .clr => true
  | .rdreg a => decide (a.toNat ≤ 9)
  | .wsym _ => true
  | .rsym _ => true
  | .clrs => true
  | .fcount => true
  | .fset _ _ => true
  | .fget _ => true
  | .build => true
  | .nget a _ => decide (a.toNat ≤ 2)
  | .cget _ d => decide (d.toNat ≤ 8)
  | .wbyte _ => true
  | .rbyte _ => true
  | .clrb => true
  | .bput a _ => decide (1 ≤ a.toNat ∧ a.toNat ≤ 32)
  | .bget a _ => decide (1 ≤ a.toNat ∧ a.toNat ≤ 32)
  | .encode => true
  | .decode _ => true
  | .dstep a => decide (a.toNat ≤ 1)
  | .drst => true

end Sys2Proof
end

