-- ==== Sys2Proof/Decode.lean ====
section
/-! DEFINITION. The command word of spec/30_encoding.md: fields (R56), formats (R57), the opcode map
(R60), total decoding with a named reason for every illegal word (R61, R62), and the encoder (R64). -/

namespace Sys2Proof

/-- Field op, bits 47:40 (R56). -/
def opField (w : CmdWord) : BitVec 8 := w.extractLsb' 40 8

/-- Field a, bits 39:32 (R56). -/
def aField (w : CmdWord) : OperandA := w.extractLsb' 32 8

/-- Field d, bits 31:0 (R56). -/
def dField (w : CmdWord) : Word32 := w.extractLsb' 0 32

/-- The word with the three fields: `op · 2^40 + a · 2^32 + d` (R64). -/
def packFields (op : BitVec 8) (a : OperandA) (d : Word32) : CmdWord := op ++ a ++ d

/-- Why a word is illegal, in the order of R61's procedure. -/
inductive DecodeError where
  /-- No row of R60 has this opcode value. -/
  | undefinedOpcode
  /-- A field the format does not use is not zero (R57). -/
  | unusedFieldNotZero
  /-- A field value is outside the row's legal values (R60). -/
  | valueNotLegal
  deriving DecidableEq, Repr

/-- The last test of R61: the row's legal values. -/
def checkLegal (i : Instr) : Except DecodeError Instr :=
  if i.wf then .ok i else .error .valueNotLegal

/-- Format N: `a` and `d` must be zero (R57). -/
def formatN (a : OperandA) (d : Word32) (i : Instr) : Except DecodeError Instr :=
  if a = 0 ∧ d = 0 then checkLegal i else .error .unusedFieldNotZero

/-- Format A: `d` must be zero (R57). -/
def formatA (a : OperandA) (d : Word32) (mk : OperandA → Instr) : Except DecodeError Instr :=
  if d = 0 then checkLegal (mk a) else .error .unusedFieldNotZero

/-- Format D: `a` must be zero (R57). -/
def formatD (a : OperandA) (d : Word32) (mk : Word32 → Instr) : Except DecodeError Instr :=
  if a = 0 then checkLegal (mk d) else .error .unusedFieldNotZero

/-- Format AD: both fields are operands (R57). -/
def formatAD (a : OperandA) (d : Word32) (mk : OperandA → Word32 → Instr) :
    Except DecodeError Instr :=
  checkLegal (mk a d)

/-- The opcode map (R60): opcode value, format and command of each of the 21 rows. -/
def decodeFields (op : BitVec 8) (a : OperandA) (d : Word32) : Except DecodeError Instr :=
  match op with
  | 0x00#8 => formatN a d .nop
  | 0x01#8 => formatN a d .clr
  | 0x02#8 => formatA a d .rdreg
  | 0x10#8 => formatA a d .wsym
  | 0x11#8 => formatD a d .rsym
  | 0x12#8 => formatN a d .clrs
  | 0x13#8 => formatN a d .fcount
  | 0x14#8 => formatAD a d .fset
  | 0x15#8 => formatA a d .fget
  | 0x20#8 => formatN a d .build
  | 0x21#8 => formatAD a d .nget
  | 0x22#8 => formatAD a d .cget
  | 0x30#8 => formatA a d .wbyte
  | 0x31#8 => formatD a d .rbyte
  | 0x32#8 => formatN a d .clrb
  | 0x33#8 => formatAD a d .bput
  | 0x34#8 => formatAD a d .bget
  | 0x38#8 => formatN a d .encode
  | 0x39#8 => formatD a d .decode
  | 0x3A#8 => formatA a d .dstep
  | 0x3B#8 => formatN a d .drst
  | _ => .error .undefinedOpcode

/-- Decoding of a command word: total, and a function of the word alone (R61, R63). -/
def decode (w : CmdWord) : Except DecodeError Instr :=
  decodeFields (opField w) (aField w) (dField w)

/-- The word of a command, with 0 for a field not in use (R60, R64). -/
def encode : Instr → CmdWord
  | .nop => packFields 0x00 0 0
  | .clr => packFields 0x01 0 0
  | .rdreg a => packFields 0x02 a 0
  | .wsym a => packFields 0x10 a 0
  | .rsym d => packFields 0x11 0 d
  | .clrs => packFields 0x12 0 0
  | .fcount => packFields 0x13 0 0
  | .fset a d => packFields 0x14 a d
  | .fget a => packFields 0x15 a 0
  | .build => packFields 0x20 0 0
  | .nget a d => packFields 0x21 a d
  | .cget a d => packFields 0x22 a d
  | .wbyte a => packFields 0x30 a 0
  | .rbyte d => packFields 0x31 0 d
  | .clrb => packFields 0x32 0 0
  | .bput a d => packFields 0x33 a d
  | .bget a d => packFields 0x34 a d
  | .encode => packFields 0x38 0 0
  | .decode d => packFields 0x39 0 d
  | .dstep a => packFields 0x3A a 0
  | .drst => packFields 0x3B 0 0

/-- The command word whose low `nbits` bits are those of `w` and whose other bits are 0. -/
def tableWord (nbits w : Nat) : CmdWord := BitVec.ofNat 48 (w % 2 ^ nbits)

/-- The command read from a word numbered as spec/opcode_table.json numbers it. A command word is one
48-bit word on the command port, never bytes in a memory (20_memory.md R41, R51), so the table's bit
numbers are the port's. More than 48 bits are no command word (30_encoding.md R63). -/
def decodeTableWord (nbits w : Nat) : Option Instr :=
  if nbits ≤ 48 then
    match decode (tableWord nbits w) with
    | .ok i => some i
    | .error _ => none
  else none

end Sys2Proof
end

