-- ==== Sys2Proof/Machine/State.lean ====
section
/-! DEFINITION. The state of HUFFCORE as plain data (spec/10_state.md), the host's side of the two
ports (spec/30_encoding.md R53, R54), and the reset state (10_state.md R35). -/

namespace Sys2Proof.Machine

/-- PHASE: UNINIT (0) or BUILT (1) (10_state.md R18). -/
inductive Phase where
  | uninit
  | built
  deriving DecidableEq, Repr

/-- One NODE entry: five fields (10_state.md R25). -/
structure Node where
  /-- LEAF, 1 bit. -/
  leaf : Bool
  /-- SYM, 8 bits: the symbol of a leaf, 0 in an internal node. -/
  sym : Symbol
  /-- LEFT, 9 bits: the left child, NIL in a leaf. -/
  left : NodeIdx
  /-- RIGHT, 9 bits: the right child, NIL in a leaf. -/
  right : NodeIdx
  /-- WGT, 40 bits. -/
  wgt : Weight
  deriving DecidableEq, Repr

/-- The seven error kinds (60_exceptions.md R119). -/
inductive ErrorKind where
  /-- E_ILLEGAL: the word is not a legal command. -/
  | illegal
  /-- E_PHASE: not permitted in the current phase. -/
  | phase
  /-- E_RANGE: an index, offset or length beyond the valid cells. -/
  | range
  /-- E_OVERFLOW: a buffer is full. -/
  | overflow
  /-- E_UNKSYM: ENCODE met a symbol with no code. -/
  | unksym
  /-- E_TRUNC: DECODE used up its bits inside a code. -/
  | trunc
  /-- E_BADCODE: a bit cannot be decoded with this tree. -/
  | badcode
  deriving DecidableEq, Repr

/-- The status of a response: OK or an error (R119). -/
inductive Status where
  | ok
  | error (e : ErrorKind)
  deriving DecidableEq, Repr

/-- A response word, by its two fields (30_encoding.md R59). -/
structure Response where
  status : Status
  data : Word32
  deriving DecidableEq, Repr

/-- What the host does to the block (10_state.md R14, 70_reset_and_hazards.md R133, R140): it
transfers a command word, or it resets the block. -/
inductive HostEvent where
  | command (w : CmdWord)
  | reset
  deriving DecidableEq, Repr

/-- A local memory: its cells by index, in one canonical form (indices strictly rising, no entry equal
to what an unlisted cell reads as). `Cells Byte` is a list of `Host.Cell`. -/
abbrev Cells (α : Type) := List (Nat × α)

/-- A memory of bytes: SYMBUF or BYTEBUF. -/
abbrev Memory := List Host.Cell

/-- What one step of the decode walker gives (45_coder.md R109). -/
inductive WalkResult where
  | emit (s : Symbol)
  | noEmit
  | badCode
  deriving DecidableEq, Repr

/-- The state of one HUFFCORE instance. The derived registers STATUS, BYTELEN, SYMCAP and BYTECAP
(10_state.md R19) hold nothing and are computed in Flags.lean, Ops.lean and Operands.lean. The
priority queue, the work stack and the bit buffer (R33) live inside one command and are locals of its
meaning. -/
structure State where
  /-- SYM_CAP and BYTE_CAP (00_scope.md R7, R8): fixed for an instance, changed by no step. -/
  params : Params
  /-- PHASE (10_state.md R18). -/
  phase : Phase
  /-- SYMLEN, register 1 (R19). -/
  symlen : Word32
  /-- BITLEN, register 2 (R19). -/
  bitlen : Word32
  /-- NSYMS, register 4 (R19). -/
  nsyms : BitVec 9
  /-- NNODES, register 5 (R19). -/
  nnodes : BitVec 10
  /-- ROOT, register 6 (R19). -/
  root : NodeIdx
  /-- CUR, register 7: the decode walker's node (R19, R22). -/
  cur : NodeIdx
  /-- FREQ, 256 counts (R23); an unlisted symbol has count 0. -/
  freq : Cells Count
  /-- NODE, 511 entries (R24, R25); an unlisted entry reads as `Node.unlisted`. -/
  node : Cells Node
  /-- CODE, 256 bit sequences (R27). An entry is BITS itself, so LEN is its length; an unlisted symbol
  has LEN 0, that is, no code. -/
  code : Cells (List Bool)
  /-- SYMBUF, SYM_CAP symbols (R29). -/
  symbuf : Memory
  /-- BYTEBUF, BYTE_CAP bytes (R30). -/
  bytebuf : Memory
  /-- The response word of the last command, none after reset (30_encoding.md R53, R55, R59). -/
  rsp : Option Response
  /-- What the host will do next, first event first: the command words it transfers and the resets
  it inserts (10_state.md R14). -/
  inputs : List HostEvent
  deriving DecidableEq, Repr

/-- Why the machine stops with a fault. The spec gives HUFFCORE none: every command word in every
state has a response and a next state (93_implementation_defined.md, end of part 2; 60_exceptions.md
R118), so this type has no constructor and nobody raises one. -/
inductive Fault where
  deriving DecidableEq, Repr

/-- Why an instruction has no meaning. -/
inductive Refusal where
  /-- Raised by an arm of `exec` for an instruction without a meaning; safe, since nothing is claimed
  of it. No arm raises it in this model. -/
  | notModelled (mnemonic : String)
  deriving DecidableEq, Repr

/-- The reset state of an instance with parameters `p` (10_state.md R35). The cells of NODE, SYMBUF
and BYTEBUF are unspecified there and unobservable (R32): none is listed (notes/assumptions/3.md). -/
def State.resetFor (p : Params) : State where
  params := p
  phase := .uninit
  symlen := 0
  bitlen := 0
  nsyms := 0
  nnodes := 0
  root := NIL
  cur := NIL
  freq := []
  node := []
  code := []
  symbuf := []
  bytebuf := []
  rsp := none
  inputs := []

/-- The state right after reset, with the default parameters of 00_scope.md R7. -/
def State.reset : State := State.resetFor Params.default

end Sys2Proof.Machine
end

