-- ==== Sys2Proof/Machine/Ops.lean ====
section
/-! DEFINITION. The named operations over HUFFCORE's memories and registers: reading and writing one
cell (spec/20_memory.md R36, R44), the response and the error response that stand for exception entry
(spec/00_scope.md R11, spec/60_exceptions.md R118, R119, R123), appending a symbol and a bit, and the
stream held in BYTEBUF (spec/44_bitstream_codec.md R98, R100). -/

namespace Sys2Proof.Machine

/-- What the meaning of a command answers. -/
abbrev Result := Host.Outcome State Fault Refusal

/-! ### One cell of a local memory -/

/-- Reads cell `i`; `unlisted` is what a cell that is not listed reads as. -/
def readCell {α : Type} (unlisted : α) : Cells α → Nat → α
  | [], _ => unlisted
  | (j, v) :: rest, i => if j = i then v else readCell unlisted rest i

/-- Puts one entry in front of the first larger index. -/
def insertCell {α : Type} (i : Nat) (v : α) : Cells α → Cells α
  | [] => [(i, v)]
  | (j, x) :: rest => if i < j then (i, v) :: (j, x) :: rest else (j, x) :: insertCell i v rest

/-- Writes cell `i`: the old entry goes, and the new one is listed unless it is what an unlisted cell
reads as. -/
def writeCell {α : Type} [DecidableEq α] (unlisted : α) (cells : Cells α) (i : Nat) (v : α) :
    Cells α :=
  let others := cells.filter (fun c => c.1 ≠ i)
  if v = unlisted then others else insertCell i v others

/-- The canonical form: indices strictly rising, no entry equal to what an unlisted cell reads as. -/
def cellsWf {α : Type} [DecidableEq α] (unlisted : α) : Cells α → Bool
  | [] => true
  | (i, v) :: rest => decide (v ≠ unlisted) && rest.all (fun c => i < c.1) && cellsWf unlisted rest

/-- What a buffer cell that nothing has written reads as. Such a cell is unspecified and no command
can read it (10_state.md R32); notes/assumptions/3.md. -/
def unlistedByte : Byte := 0

/-- What a NODE entry that nothing has written reads as; unobservable in the same way
(notes/assumptions/3.md). -/
def Node.unlisted : Node := ⟨false, 0, 0, 0, 0⟩

/-- Reads one cell of SYMBUF or BYTEBUF. -/
def Memory.read (m : Memory) (i : Nat) : Byte := readCell unlistedByte m i

/-- Writes one cell of SYMBUF or BYTEBUF. -/
def Memory.write (m : Memory) (i : Nat) (v : Byte) : Memory := writeCell unlistedByte m i v

/-- The canonical form of a byte memory. -/
def Memory.wf (m : Memory) : Bool := cellsWf unlistedByte m

/-- FREQ[a] (10_state.md R23). -/
def State.freqAt (s : State) (a : Symbol) : Count := readCell 0 s.freq a.toNat

/-- FREQ[a] <- n. -/
def writeFreq (f : Cells Count) (a : Symbol) (n : Count) : Cells Count := writeCell 0 f a.toNat n

/-- CODE[a].BITS (10_state.md R27). -/
def State.codeAt (s : State) (a : Symbol) : List Bool := readCell [] s.code a.toNat

/-- CODE[a].LEN; 0 means no code. -/
def State.codeLen (s : State) (a : Symbol) : Nat := (s.codeAt a).length

/-- CODE[a] <- the code `c`. -/
def writeCode (t : Cells (List Bool)) (a : Symbol) (c : List Bool) : Cells (List Bool) :=
  writeCell [] t a.toNat c

/-- NODE[i] (10_state.md R24). -/
def State.nodeAt (s : State) (i : Nat) : Node := readCell Node.unlisted s.node i

/-- NODE[k], NODE[k+1], ... <- the given entries; every other entry keeps what it holds. -/
def storeNodes (k : Nat) : List Node → Cells Node → Cells Node
  | [], t => t
  | n :: rest, t => storeNodes (k + 1) rest (writeCell Node.unlisted t k n)

/-- The 256 symbols in ascending value (10_state.md R15). -/
def allSymbols : List Symbol := (List.range nsym).map (BitVec.ofNat 8)

/-! ### Responses and errors -/

/-- Puts a response word on the response port. -/
def State.answer (s : State) (r : Response) : State := { s with rsp := some r }

/-- `respond OK(d)` (00_scope.md R11). -/
def respondOk (d : Word32) (s : State) : Result := .next (s.answer ⟨.ok, d⟩)

/-- `raise E(info)` (R11): taking an exception. HUFFCORE's exceptions are error responses: the whole
effect is the response; nothing is saved, no mode changes and control goes nowhere
(60_exceptions.md R118, R123). What a command has already written stays written. -/
def raise (e : ErrorKind) (info : Word32) (s : State) : Result := .next (s.answer ⟨.error e, info⟩)

/-- The status codes (60_exceptions.md R119). -/
def ErrorKind.code : ErrorKind → BitVec 8
  | .illegal => 0x01
  | .phase => 0x02
  | .range => 0x03
  | .overflow => 0x04
  | .unksym => 0x05
  | .trunc => 0x06
  | .badcode => 0x07

/-- The status field of a response word (R119). -/
def Status.code : Status → BitVec 8
  | .ok => 0x00
  | .error e => e.code

/-- The response word: status in bits 39:32, data in bits 31:0 (30_encoding.md R59). -/
def Response.word (r : Response) : RspWord := r.status.code ++ r.data

/-! ### The symbol buffer -/

/-- SYMBUF[SYMLEN] <- a; SYMLEN <- SYMLEN + 1 (41_frequency_model.md R69, 45_coder.md R112). -/
def State.pushSymbol (s : State) (a : Symbol) : State :=
  { s with
    symbuf := s.symbuf.write s.symlen.toNat a
    symlen := BitVec.ofNat 32 (s.symlen.toNat + 1) }

/-- SYMLEN <- 0; no cell is rewritten (20_memory.md R37). -/
def State.emptySymbols (s : State) : State := { s with symlen := 0 }

/-- The valid cells SYMBUF[0 .. SYMLEN-1] in order (10_state.md R29). -/
def State.symbols (s : State) : List Symbol := (List.range s.symlen.toNat).map s.symbuf.read

/-! ### The stream -/

/-- Register BYTELEN = ceil(BITLEN / 8) (10_state.md R21). -/
def State.bytelen (s : State) : Nat := (s.bitlen.toNat + 7) / 8

/-- BITLEN <- 0; no cell is rewritten (20_memory.md R37). -/
def State.emptyStream (s : State) : State := { s with bitlen := 0 }

/-- The valid cells BYTEBUF[0 .. BYTELEN-1] in order (10_state.md R30). -/
def State.bytes (s : State) : List Byte := (List.range s.bytelen).map s.bytebuf.read

/-- Stream[i]: bit `7 - i mod 8` of BYTEBUF[i div 8] (20_memory.md R40, 44_bitstream_codec.md R98). -/
def State.streamBit (s : State) (i : Nat) : Bool := (s.bytebuf.read (i / 8)).getLsbD (7 - i % 8)

/-- Stream[start .. start + n - 1]. -/
def State.streamBits (s : State) (start n : Nat) : List Bool :=
  (List.range n).map (fun k => s.streamBit (start + k))

/-- Stream[0 .. BITLEN-1], the valid bits (44_bitstream_codec.md R98). -/
def State.validBits (s : State) : List Bool := s.streamBits 0 s.bitlen.toNat

/-- AppendBit(b) (44_bitstream_codec.md R100): the first bit of a byte clears the byte. -/
def State.appendBit (s : State) (b : Bool) : State :=
  let i := s.bitlen.toNat
  let cell := if i % 8 = 0 then 0 else s.bytebuf.read (i / 8)
  { s with
    bytebuf := s.bytebuf.write (i / 8) (cell + BitVec.ofNat 8 (b.toNat * 2 ^ (7 - i % 8)))
    bitlen := BitVec.ofNat 32 (i + 1) }

/-- AppendBit for each bit in order. -/
def State.appendBits (s : State) (bits : List Bool) : State := bits.foldl State.appendBit s

/-! ### The walker -/

/-- CUR <- i (45_coder.md R109, R111). -/
def State.setCur (s : State) (i : NodeIdx) : State := { s with cur := i }

end Sys2Proof.Machine
end

