-- ==== Sys2Proof/Machine/Flags.lean ====
section
/-! DEFINITION. The four flags of the derived register STATUS (spec/10_state.md R20). HUFFCORE has no
other flags and no condition codes. -/

namespace Sys2Proof.Machine

/-- Flag BUILT, bit 0 (R20). -/
def State.flagBuilt (s : State) : Bool := s.phase = .built

/-- Flag EMPTY, bit 1 (R20). -/
def State.flagEmpty (s : State) : Bool := s.phase = .built ∧ s.nsyms = 0

/-- Flag SINGLE, bit 2 (R20). -/
def State.flagSingle (s : State) : Bool := s.phase = .built ∧ s.nsyms = 1

/-- Flag MIDWALK, bit 3 (R20). -/
def State.flagMidwalk (s : State) : Bool := s.phase = .built ∧ s.cur ≠ s.root

/-- STATUS: the flags in bits 3 to 0, zeros above (R20). -/
def State.statusWord (s : State) : Word32 :=
  0#28 ++ BitVec.ofBool s.flagMidwalk ++ BitVec.ofBool s.flagSingle ++ BitVec.ofBool s.flagEmpty ++
    BitVec.ofBool s.flagBuilt

end Sys2Proof.Machine
end

