-- ==== Sys2Proof/Machine/Operands.lean ====
section
/-! DEFINITION. The operand and result forms of the commands: the register numbers of RDREG
(spec/40_control.md R68), bit strings in a field (spec/20_memory.md R42), and the field groups of a
node (spec/42_tree_builder.md R86). -/

namespace Sys2Proof.Machine

/-- The register with number `a`, 0 to 9, zero-extended to 32 bits (40_control.md R68). The meaning of
RDREG refuses any other number before it reads. -/
def State.readReg (s : State) (a : Nat) : Word32 :=
  match a with
  | 0 => s.statusWord
  | 1 => s.symlen
  | 2 => s.bitlen
  | 3 => BitVec.ofNat 32 s.bytelen
  | 4 => s.nsyms.setWidth 32
  | 5 => s.nnodes.setWidth 32
  | 6 => s.root.setWidth 32
  | 7 => s.cur.setWidth 32
  | 8 => BitVec.ofNat 32 s.params.symCap
  | _ => BitVec.ofNat 32 s.params.byteCap

/-- The `len` low bits of `d`, earliest bit first: `d[len-1]` first, `d[0]` last (20_memory.md
R42 (a)). -/
def operandBits (len : Nat) (d : Word32) : List Bool :=
  (List.range len).map (fun k => d.getLsbD (len - 1 - k))

/-- The number whose binary digits are `bits`, the earliest bit most significant (20_memory.md
R42 (b), 44_bitstream_codec.md R105). -/
def bitsValue (bits : List Bool) : Nat := bits.foldl (fun v b => 2 * v + b.toNat) 0

/-- Chunk `j` of a code: bits 32j to 32j+31, left-aligned, 0 past the end (20_memory.md R42 (c),
43_code_table.md R93). -/
def codeChunk (c : List Bool) (j : Nat) : Word32 :=
  BitVec.ofNat 32 (bitsValue ((List.range 32).map (fun k => c.getD (32 * j + k) false)))

/-- The link word: LEAF in bit 31, zeros in 30:26, SYM in 25:18, LEFT in 17:9, RIGHT in 8:0
(42_tree_builder.md R86). -/
def Node.linkWord (n : Node) : Word32 := BitVec.ofBool n.leaf ++ 0#5 ++ n.sym ++ n.left ++ n.right

/-- The field group `a` of a node: 0 the link word, 1 WGT[31:0], 2 WGT[39:32] (R86). The meaning of
NGET refuses any other selector before it reads. -/
def Node.fieldGroup (n : Node) (a : Nat) : Word32 :=
  match a with
  | 0 => n.linkWord
  | 1 => n.wgt.extractLsb' 0 32
  | _ => (n.wgt.extractLsb' 32 8).setWidth 32

end Sys2Proof.Machine
end

