-- ==== Sys2Proof/Machine/BitStream.lean ====
section
/-! DEFINITION. The bit-stream codec: the functions pack and unpack, and the commands WBYTE, RBYTE,
CLRB, BPUT, BGET (spec/44_bitstream_codec.md). -/

namespace Sys2Proof.Machine

/-- pack(q): eight bits to a byte, most significant bit first, the last byte padded with zeros at the
low end (R94). -/
def pack (q : List Bool) : List Byte :=
  (List.range ((q.length + 7) / 8)).map fun j =>
    BitVec.ofNat 8 (bitsValue ((List.range 8).map fun k => q.getD (8 * j + k) false))

/-- unpack(B): each byte into eight bits, most significant bit first, in byte order (R95). -/
def unpack (bytes : List Byte) : List Bool :=
  bytes.flatMap fun b => (List.range 8).map fun k => b.getLsbD (7 - k)

/-- WBYTE (R101). -/
def execWbyte (a : OperandA) (s : State) : Result :=
  if s.bytelen = s.params.byteCap then raise .overflow (BitVec.ofNat 32 s.bytelen) s
  else
    respondOk 0
      { s with
        bytebuf := s.bytebuf.write s.bytelen a
        bitlen := BitVec.ofNat 32 (8 * (s.bytelen + 1)) }

/-- RBYTE (R102). -/
def execRbyte (d : Word32) (s : State) : Result :=
  if s.bytelen ≤ d.toNat then raise .range (BitVec.ofNat 32 s.bytelen) s
  else respondOk ((s.bytebuf.read d.toNat).setWidth 32) s

/-- CLRB (R103). -/
def execClrb (s : State) : Result := respondOk 0 s.emptyStream

/-- BPUT (R104); a bit count of 0 or above 32 is E_ILLEGAL. -/
def execBput (a : OperandA) (d : Word32) (s : State) : Result :=
  if a.toNat = 0 ∨ 32 < a.toNat then raise .illegal 0 s
  else if 8 * s.params.byteCap < s.bitlen.toNat + a.toNat then raise .overflow s.bitlen s
  else respondOk 0 (s.appendBits (operandBits a.toNat d))

/-- BGET (R105); a bit count of 0 or above 32 is E_ILLEGAL. -/
def execBget (a : OperandA) (d : Word32) (s : State) : Result :=
  if a.toNat = 0 ∨ 32 < a.toNat then raise .illegal 0 s
  else if 8 * s.bytelen < d.toNat + a.toNat then raise .range (BitVec.ofNat 32 (8 * s.bytelen)) s
  else respondOk (BitVec.ofNat 32 (bitsValue (s.streamBits d.toNat a.toNat))) s

end Sys2Proof.Machine
end

