-- ==== Sys2Proof/Machine/CodeTable.lean ====
section
/-! DEFINITION. The code table generator, the second half of BUILD, and CGET
(spec/43_code_table.md). -/

namespace Sys2Proof.Machine

/-- The node with index `i` of an arena under construction. -/
def arenaAt (nodes : List Node) (i : Nat) : Node := nodes.getD i Node.unlisted

/-- The depth-first walk of R87: pops a pair (node, path so far), records a leaf's path, pushes the
right child and then the left. `fuel` bounds the pops; each of the tree's nodes is popped once
(70_reset_and_hazards.md R139). -/
def deriveLoop (nodes : List Node) :
    (fuel : Nat) → (stack : List (NodeIdx × List Bool)) → Cells (List Bool) → Cells (List Bool)
  | 0, _, codes => codes
  | _ + 1, [], codes => codes
  | fuel + 1, (i, path) :: stack, codes =>
    let n := arenaAt nodes i.toNat
    if n.leaf then deriveLoop nodes fuel stack (writeCode codes n.sym path)
    else deriveLoop nodes fuel ((n.left, path ++ [false]) :: (n.right, path ++ [true]) :: stack) codes

/-- The code table of the tree with root `root` (R87): none for the empty tree (R90), the one-bit code
0 for a single leaf (R89). -/
def deriveCodes (nodes : List Node) (root : NodeIdx) : Cells (List Bool) :=
  if root = NIL then []
  else if (arenaAt nodes root.toNat).leaf then writeCode [] (arenaAt nodes root.toNat).sym [false]
  else deriveLoop nodes nodes.length [(root, [])] []

/-- CGET (R93); a selector above 8 is E_ILLEGAL. -/
def execCget (a : OperandA) (d : Word32) (s : State) : Result :=
  if 8 < d.toNat then raise .illegal 0 s
  else if d.toNat = 0 then respondOk (BitVec.ofNat 32 (s.codeLen a)) s
  else respondOk (codeChunk (s.codeAt a) (d.toNat - 1)) s

end Sys2Proof.Machine
end

