-- ==== Sys2Proof/Machine/Coder.lean ====
section
/-! DEFINITION. The coder sequencer: ENCODE, the decode walker, DSTEP, DRST and DECODE
(spec/45_coder.md). -/

namespace Sys2Proof.Machine

/-- The loop of ENCODE from position `i` on, over the symbols that are left (R106). SYMBUF is not
written by ENCODE, so the symbols are read once. -/
def encodeFrom : (i : Nat) → List Symbol → State → Result
  | _, [], s => respondOk s.bitlen s
  | i, a :: rest, s =>
    if s.codeLen a = 0 then raise .unksym (BitVec.ofNat 32 i) s.emptyStream
    else if 8 * s.params.byteCap < s.bitlen.toNat + s.codeLen a then
      raise .overflow (BitVec.ofNat 32 i) s.emptyStream
    else encodeFrom (i + 1) rest (s.appendBits (s.codeAt a))

/-- ENCODE (R106). -/
def execEncode (s : State) : Result :=
  match s.phase with
  | .uninit => raise .phase 0 s
  | .built => encodeFrom 0 s.symbols s.emptyStream

/-- The child of node `i` that bit `b` leads to: LEFT for 0, RIGHT for 1 (R109). -/
def State.child (s : State) (i : NodeIdx) (b : Bool) : NodeIdx :=
  if b then (s.nodeAt i.toNat).right else (s.nodeAt i.toNat).left

/-- WalkStep(b) (R109): what it returns, and the state it leaves. -/
def State.walkStep (s : State) (b : Bool) : WalkResult × State :=
  if s.root = NIL then (.badCode, s)
  else if (s.nodeAt s.root.toNat).leaf then
    if b then (.badCode, s) else (.emit (s.nodeAt s.root.toNat).sym, s)
  else
    let next := s.child s.cur b
    if (s.nodeAt next.toNat).leaf then (.emit (s.nodeAt next.toNat).sym, s.setCur s.root)
    else (.noEmit, s.setCur next)

/-- DSTEP (R110); a bit operand above 1 is E_ILLEGAL. -/
def execDstep (a : OperandA) (s : State) : Result :=
  if 1 < a.toNat then raise .illegal 0 s
  else
    match s.phase with
    | .uninit => raise .phase 0 s
    | .built =>
      match s.walkStep (a = 1) with
      | (.badCode, t) => raise .badcode 0 t
      | (.emit sym, t) => respondOk (0x100 + sym.setWidth 32) t
      | (.noEmit, t) => respondOk 0 t

/-- DRST (R111). -/
def execDrst (s : State) : Result :=
  match s.phase with
  | .uninit => raise .phase 0 s
  | .built => respondOk 0 (s.setCur s.root)

/-- What DECODE starts from and what a DECODE that fails while it runs leaves: SYMLEN <- 0, CUR <- ROOT
(R112). -/
def State.emptyOutput (s : State) : State := (s.emptySymbols).setCur s.root

/-- The loop of DECODE over the bits that are left: `i` is the position of the next bit, `start` the
position of the first bit of the code being walked (R112). BYTEBUF is not written by DECODE, so the
bits are read once. -/
def decodeFrom : (i start : Nat) → List Bool → State → Result
  | _, start, [], s =>
    if s.cur ≠ s.root then raise .trunc (BitVec.ofNat 32 start) s.emptyOutput
    else respondOk s.symlen s
  | i, start, b :: rest, s =>
    match s.walkStep b with
    | (.badCode, t) => raise .badcode (BitVec.ofNat 32 i) t.emptyOutput
    | (.noEmit, t) => decodeFrom (i + 1) start rest t
    | (.emit sym, t) =>
      if t.symlen.toNat = t.params.symCap then raise .overflow (BitVec.ofNat 32 i) t.emptyOutput
      else decodeFrom (i + 1) (i + 1) rest (t.pushSymbol sym)

/-- DECODE (R112). -/
def execDecode (d : Word32) (s : State) : Result :=
  match s.phase with
  | .uninit => raise .phase 0 s
  | .built =>
    if 8 * s.bytelen < d.toNat then raise .range (BitVec.ofNat 32 (8 * s.bytelen)) s
    else decodeFrom 0 0 (s.streamBits 0 d.toNat) s.emptyOutput

end Sys2Proof.Machine
end

