-- ==== Sys2Proof/Machine/Control.lean ====
section
/-! DEFINITION. The control commands NOP, CLR and RDREG (spec/40_control.md). -/

namespace Sys2Proof.Machine

/-- NOP (R66). -/
def execNop (s : State) : Result := respondOk 0 s

/-- The state CLR leaves: every register at its reset value, FREQ and CODE cleared; the cells of NODE,
SYMBUF and BYTEBUF are not rewritten (R67). -/
def State.clear (s : State) : State :=
  { s with
    phase := .uninit
    symlen := 0
    bitlen := 0
    nsyms := 0
    nnodes := 0
    root := NIL
    cur := NIL
    freq := []
    code := [] }

/-- CLR (R67). -/
def execClr (s : State) : Result := respondOk 0 s.clear

/-- RDREG (R68); a register number above 9 is E_ILLEGAL. -/
def execRdreg (a : OperandA) (s : State) : Result :=
  if 9 < a.toNat then raise .illegal 0 s else respondOk (s.readReg a.toNat) s

end Sys2Proof.Machine
end

