-- ==== Sys2Proof/Machine/Frequency.lean ====
section
/-! DEFINITION. The symbol buffer and the frequency model: WSYM, RSYM, CLRS, FCOUNT, FSET, FGET
(spec/41_frequency_model.md). -/

namespace Sys2Proof.Machine

/-- WSYM (R69). -/
def execWsym (a : OperandA) (s : State) : Result :=
  if s.symlen.toNat = s.params.symCap then raise .overflow s.symlen s
  else respondOk 0 (s.pushSymbol a)

/-- RSYM (R70). -/
def execRsym (d : Word32) (s : State) : Result :=
  if s.symlen.toNat ≤ d.toNat then raise .range s.symlen s
  else respondOk ((s.symbuf.read d.toNat).setWidth 32) s

/-- CLRS (R71). -/
def execClrs (s : State) : Result := respondOk 0 s.emptySymbols

/-- FREQ[a] <- FREQ[a] + 1 (R72). -/
def countOne (f : Cells Count) (a : Symbol) : Cells Count :=
  writeFreq f a (BitVec.ofNat 32 ((readCell 0 f a.toNat).toNat + 1))

/-- The table FCOUNT makes: all 0, then one more for each symbol in order (R72). -/
def countSymbols (syms : List Symbol) : Cells Count := syms.foldl countOne []

/-- FCOUNT (R72). -/
def execFcount (s : State) : Result :=
  match s.phase with
  | .built => raise .phase 0 s
  | .uninit => respondOk 0 { s with freq := countSymbols s.symbols }

/-- FSET (R73). -/
def execFset (a : OperandA) (d : Word32) (s : State) : Result :=
  match s.phase with
  | .built => raise .phase 0 s
  | .uninit => respondOk 0 { s with freq := writeFreq s.freq a d }

/-- FGET (R74). -/
def execFget (a : OperandA) (s : State) : Result := respondOk (s.freqAt a) s

end Sys2Proof.Machine
end

