-- ==== Sys2Proof/Machine/TreeBuilder.lean ====
section
/-! DEFINITION. The tree builder: the priority queue, seeding, merging, the root, and the commands
BUILD and NGET (spec/42_tree_builder.md). BUILD's arena is a list whose positions are the node
indices; appending is `NODE[n] <- ...; n <- n + 1`. -/

namespace Sys2Proof.Machine

/-- The key of node `i` is before the key of node `j`: weight first, then index (R75). -/
def keyBefore (nodes : List Node) (i j : Nat) : Bool :=
  let wi := (arenaAt nodes i).wgt.toNat
  let wj := (arenaAt nodes j).wgt.toNat
  wi < wj || (wi = wj && i < j)

/-- PQ.extractMin (R76): the index with the first key, and the queue without it; none when the queue
is empty. -/
def extractMin (nodes : List Node) : List Nat → Option (Nat × List Nat)
  | [] => none
  | i :: pq =>
    let m := pq.foldl (fun m j => if keyBefore nodes j m then j else m) i
    some (m, (i :: pq).erase m)

/-- A leaf (R77). -/
def leafNode (s : Symbol) (n : Count) : Node := ⟨true, s, NIL, NIL, n.setWidth 40⟩

/-- An internal node over the children `l` and `r` (R78, R79). -/
def mergedNode (nodes : List Node) (l r : Nat) : Node :=
  ⟨false, 0, BitVec.ofNat 9 l, BitVec.ofNat 9 r,
    BitVec.ofNat 40 ((arenaAt nodes l).wgt.toNat + (arenaAt nodes r).wgt.toNat)⟩

/-- Seeding (R77): one leaf for each symbol with a count above 0, in ascending symbol value. -/
def seedLeaves (freq : Symbol → Count) : List Node :=
  allSymbols.filterMap (fun s => if freq s = 0 then none else some (leafNode s (freq s)))

/-- Merging (R78): while two indices are left, the first extracted becomes the left child and the
second the right (R79). `fuel` bounds the passes, S - 1 of which run (70_reset_and_hazards.md R139). -/
def mergeLoop : (fuel : Nat) → (nodes : List Node) → (pq : List Nat) → List Node × List Nat
  | 0, nodes, pq => (nodes, pq)
  | fuel + 1, nodes, pq =>
    match extractMin nodes pq with
    | none => (nodes, pq)
    | some (l, pq1) =>
      match extractMin nodes pq1 with
      | none => (nodes, pq)
      | some (r, pq2) => mergeLoop fuel (nodes ++ [mergedNode nodes l r]) (pq2 ++ [nodes.length])

/-- Seeding and merging together: the finished arena and what is left in the queue. -/
def buildArena (freq : Symbol → Count) : List Node × List Nat :=
  let leaves := seedLeaves freq
  mergeLoop leaves.length leaves (List.range leaves.length)

/-- The root (R80): NIL when the queue is empty, else the one index left in it. -/
def selectRoot (nodes : List Node) (pq : List Nat) : NodeIdx :=
  match extractMin nodes pq with
  | none => NIL
  | some (i, _) => BitVec.ofNat 9 i

/-- The state a successful BUILD leaves (R83). -/
def State.build (s : State) : State :=
  let arena := buildArena s.freqAt
  let root := selectRoot arena.1 arena.2
  { s with
    node := storeNodes 0 arena.1 s.node
    nnodes := BitVec.ofNat 10 arena.1.length
    nsyms := BitVec.ofNat 9 (seedLeaves s.freqAt).length
    root := root
    code := deriveCodes arena.1 root
    phase := .built
    cur := root }

/-- BUILD (R83). -/
def execBuild (s : State) : Result :=
  match s.phase with
  | .built => raise .phase 0 s
  | .uninit => respondOk (s.build.nnodes.setWidth 32) s.build

/-- NGET (R86); a selector above 2 is E_ILLEGAL. -/
def execNget (a : OperandA) (d : Word32) (s : State) : Result :=
  if 2 < a.toNat then raise .illegal 0 s
  else if s.nnodes.toNat ≤ d.toNat then raise .range (s.nnodes.setWidth 32) s
  else respondOk ((s.nodeAt d.toNat).fieldGroup a.toNat) s

end Sys2Proof.Machine
end

