-- ==== Sys2Proof/Machine/Dispatch.lean ====
section
/-! DEFINITION. One arm per command of spec/30_encoding.md R60, each a direct call of its meaning. -/

namespace Sys2Proof.Machine

def exec (i : Instr) (s : State) : Host.Outcome State Fault Refusal :=
  match i with
  | .nop => Sys2Proof.Machine.execNop s
  | .clr => Sys2Proof.Machine.execClr s
  | .rdreg a => Sys2Proof.Machine.execRdreg a s
  | .wsym a => Sys2Proof.Machine.execWsym a s
  | .rsym d => Sys2Proof.Machine.execRsym d s
  | .clrs => Sys2Proof.Machine.execClrs s
  | .fcount => Sys2Proof.Machine.execFcount s
  | .fset a d => Sys2Proof.Machine.execFset a d s
  | .fget a => Sys2Proof.Machine.execFget a s
  | .build => Sys2Proof.Machine.execBuild s
  | .nget a d => Sys2Proof.Machine.execNget a d s
  | .cget a d => Sys2Proof.Machine.execCget a d s
  | .wbyte a => Sys2Proof.Machine.execWbyte a s
  | .rbyte d => Sys2Proof.Machine.execRbyte d s
  | .clrb => Sys2Proof.Machine.execClrb s
  | .bput a d => Sys2Proof.Machine.execBput a d s
  | .bget a d => Sys2Proof.Machine.execBget a d s
  | .encode => Sys2Proof.Machine.execEncode s
  | .decode d => Sys2Proof.Machine.execDecode d s
  | .dstep a => Sys2Proof.Machine.execDstep a s
  | .drst => Sys2Proof.Machine.execDrst s

end Sys2Proof.Machine
end

