-- ==== Sys2Proof/Machine/Reset.lean ====
section
/-! DEFINITION. What the host's events do apart from running a command: a reset
(spec/70_reset_and_hazards.md R133) and an illegal word (spec/30_encoding.md R62). -/

namespace Sys2Proof.Machine

/-- Reset (R133): any state goes to the reset state, and a response not yet taken is dropped. The
instance keeps its parameters, and the host keeps what it will do next. -/
def State.hostReset (s : State) : State := { State.resetFor s.params with inputs := s.inputs }

/-- An illegal word (30_encoding.md R62): E_ILLEGAL with data 0, no other change. -/
def answerIllegal (s : State) : Result := raise .illegal 0 s

/-- The host's first event taken off the list. -/
def State.takeEvent (s : State) (rest : List HostEvent) : State := { s with inputs := rest }

/-- The host's next event is the transfer of the word `w`. -/
def State.offerWord (s : State) (w : CmdWord) : State :=
  { s with inputs := .command w :: s.inputs }

end Sys2Proof.Machine
end

