-- ==== Sys2Proof/Machine/Step.lean ====
section
/-! DEFINITION. One step: the host's next event (spec/10_state.md R14, spec/70_reset_and_hazards.md
R140). HUFFCORE has no program counter and fetches nothing (10_state.md R17, 20_memory.md R51): the
next command is the next word the host transfers. -/

namespace Sys2Proof.Machine

/-- One transaction. A command word is decoded and run to its response; an illegal word is answered
E_ILLEGAL; a reset takes any state to the reset state; with no event the block is idle and keeps its
state (60_exceptions.md R132). -/
def step (s : State) : Host.Outcome State Fault Refusal :=
  match s.inputs with
  | [] => .next s
  | .reset :: rest => .next (s.takeEvent rest).hostReset
  | .command w :: rest =>
    match decode w with
    | .ok i => exec i (s.takeEvent rest)
    | .error _ => answerIllegal (s.takeEvent rest)

/-- `s` with the command word as the host's next event, so that the very next step runs it. The host
transfers words to the command port; nothing else is needed (notes/assumptions/5.md). -/
def State.withFetchWord (s : State) (nbits w : Nat) : State := s.offerWord (tableWord nbits w)

end Sys2Proof.Machine
end

