-- ==== Sys2Proof/Safety.lean ====
section
/-! DEFINITION. The terms in which claims speak: the invariant of the whole state (spec/10_state.md
R34, with R22, R26, R28 and R31), the reset state (R35), what can be observed (R32), a sequence of
commands, and the opcode map as data (spec/30_encoding.md R57, R60, R62). -/

namespace Sys2Proof.Machine

/-! ### The invariant -/

/-- S: how many symbols have a count above 0 (10_state.md R34 (d)). -/
def State.distinctSymbols (s : State) : Nat :=
  (allSymbols.filter (fun a => s.freqAt a ≠ 0)).length

/-- The sum of all FREQ entries (R26 (f)). -/
def State.freqSum (s : State) : Nat := (allSymbols.map (fun a => (s.freqAt a).toNat)).sum

/-- The children of the internal nodes `lo .. hi - 1`, LEFT and RIGHT of each in order. -/
def State.childrenOf (s : State) (lo hi : Nat) : List Nat :=
  (List.range' lo (hi - lo)).flatMap
    (fun i => [(s.nodeAt i).left.toNat, (s.nodeAt i).right.toNat])

/-- The node reached from `i` by the branch bits `path` (43_code_table.md R87). -/
def State.follow (s : State) (i : NodeIdx) (path : List Bool) : NodeIdx := path.foldl s.child i

/-- Every local memory is in canonical form, and lists no cell it does not have (20_memory.md R36). -/
structure State.CellsOk (s : State) : Prop where
  freq_wf : cellsWf 0 s.freq = true
  node_wf : cellsWf Node.unlisted s.node = true
  code_wf : cellsWf [] s.code = true
  symbuf_wf : s.symbuf.wf = true
  bytebuf_wf : s.bytebuf.wf = true
  freq_lt : ∀ c ∈ s.freq, c.1 < nsym
  node_lt : ∀ c ∈ s.node, c.1 < maxNodes
  code_lt : ∀ c ∈ s.code, c.1 < nsym

/-- R34 (a) and (b): the buffers hold at most their capacity, in valid cells and in cells listed, and
every pad position of the last valid byte is 0 (R31). -/
structure State.BuffersOk (s : State) : Prop where
  symlen_le : s.symlen.toNat ≤ s.params.symCap
  bitlen_le : s.bitlen.toNat ≤ 8 * s.params.byteCap
  symbuf_lt : ∀ c ∈ s.symbuf, c.1 < s.params.symCap
  bytebuf_lt : ∀ c ∈ s.bytebuf, c.1 < s.params.byteCap
  pad_zero : ∀ i, i < 8 * s.bytelen → s.bitlen.toNat ≤ i → s.streamBit i = false

/-- R34 (c): what UNINIT implies. -/
structure State.UninitOk (s : State) : Prop where
  nsyms_zero : s.nsyms = 0
  nnodes_zero : s.nnodes = 0
  root_nil : s.root = NIL
  cur_nil : s.cur = NIL
  no_codes : ∀ a : Symbol, s.codeAt a = []

/-- R26 (a) to (f) and R22: the shape of the tree in BUILT, with S = NSYMS. -/
structure State.TreeOk (s : State) : Prop where
  nsyms_eq : s.nsyms.toNat = s.distinctSymbols
  /-- (a), S = 0. -/
  empty_tree : s.nsyms = 0 → s.nnodes = 0 ∧ s.root = NIL
  /-- (a), S ≥ 1: NNODES = 2S - 1 and ROOT = 2S - 2. -/
  sizes : s.nsyms ≠ 0 →
    s.nnodes.toNat + 1 = 2 * s.nsyms.toNat ∧ s.root.toNat + 2 = 2 * s.nsyms.toNat
  /-- (b): entries 0 to S - 1 are leaves of symbols that occur, with their counts as weights. -/
  leaves : ∀ k, k < s.nsyms.toNat →
    (s.nodeAt k).leaf = true ∧ (s.nodeAt k).left = NIL ∧ (s.nodeAt k).right = NIL ∧
      s.freqAt (s.nodeAt k).sym ≠ 0 ∧ (s.nodeAt k).wgt.toNat = (s.freqAt (s.nodeAt k).sym).toNat
  /-- (b): in ascending order of symbol value. -/
  ascending : ∀ k, k < s.nsyms.toNat → ∀ j, j < k →
    (s.nodeAt j).sym.toNat < (s.nodeAt k).sym.toNat
  /-- (c): entries S to 2S - 2 are internal nodes over two different earlier nodes. -/
  internal : ∀ i, i < s.nnodes.toNat → s.nsyms.toNat ≤ i →
    (s.nodeAt i).leaf = false ∧ (s.nodeAt i).sym = 0 ∧ (s.nodeAt i).left.toNat < i ∧
      (s.nodeAt i).right.toNat < i ∧ (s.nodeAt i).left ≠ (s.nodeAt i).right
  /-- (d): a weight is the sum of the children's weights. -/
  weights : ∀ i, i < s.nnodes.toNat → s.nsyms.toNat ≤ i →
    (s.nodeAt i).wgt.toNat = (s.nodeAt (s.nodeAt i).left.toNat).wgt.toNat +
      (s.nodeAt (s.nodeAt i).right.toNat).wgt.toNat
  /-- (e): every node but the root is exactly one node's child; the root is nobody's. -/
  one_parent : ∀ j, j < s.nnodes.toNat →
    (s.childrenOf s.nsyms.toNat s.nnodes.toNat).count j = if j = s.root.toNat then 0 else 1
  /-- (f): the root's weight is the sum of all counts. -/
  root_weight : s.nsyms ≠ 0 → (s.nodeAt s.root.toNat).wgt.toNat = s.freqSum
  /-- R22: CUR is ROOT or an internal node other than the root. -/
  cur_ok : s.cur = s.root ∨
    (s.nsyms.toNat ≤ s.cur.toNat ∧ s.cur.toNat < s.nnodes.toNat ∧ s.cur ≠ s.root)

/-- R28 (a) to (d): the code table in BUILT. -/
structure State.CodesOk (s : State) : Prop where
  /-- (a): a symbol has a code exactly when it occurs. -/
  coded_iff : ∀ a : Symbol, s.codeAt a ≠ [] ↔ s.freqAt a ≠ 0
  /-- R27: LEN fits its 8 bits. -/
  len_le : ∀ a : Symbol, s.codeLen a ≤ maxCodeLen
  /-- (b): with two symbols or more a code is the path from ROOT to the leaf of its symbol ... -/
  reaches_leaf : 2 ≤ s.nsyms.toNat → ∀ a : Symbol, s.codeAt a ≠ [] →
    (s.nodeAt (s.follow s.root (s.codeAt a)).toNat).leaf = true ∧
      (s.nodeAt (s.follow s.root (s.codeAt a)).toNat).sym = a
  /-- ... through internal nodes only. -/
  through_internal : 2 ≤ s.nsyms.toNat → ∀ a : Symbol, ∀ k, k < s.codeLen a →
    (s.nodeAt (s.follow s.root ((s.codeAt a).take k)).toNat).leaf = false
  /-- (c): with one symbol the one code is 0. -/
  single_code : s.nsyms = 1 → ∀ a : Symbol, s.codeAt a ≠ [] → s.codeAt a = [false]
  /-- (d): no code is a prefix of another. -/
  prefix_free : ∀ a : Symbol, s.codeAt a ≠ [] → ∀ b : Symbol, s.codeAt b ≠ [] → a ≠ b →
    ¬ s.codeAt a <+: s.codeAt b

/-- The lifecycle and the tree: R34 (c), and of R34 (d) the parts R26 and R22. -/
def State.TreeInv (s : State) : Prop :=
  (s.phase = .uninit → s.UninitOk) ∧ (s.phase = .built → s.TreeOk)

/-- R28 in both phases. -/
def State.CodeInv (s : State) : Prop :=
  (s.phase = .uninit → ∀ a : Symbol, s.codeAt a = []) ∧ (s.phase = .built → s.CodesOk)

/-- The invariant of the whole state (R34), as one predicate. -/
structure State.Inv (s : State) : Prop where
  cells : s.CellsOk
  buffers : s.BuffersOk
  tree : s.TreeInv
  codes : s.CodeInv

/-! ### Reset and observation -/

/-- The table of R35: the value of every piece of state after reset and after CLR, in everything that
can be observed. -/
structure State.IsReset (s : State) : Prop where
  phase : s.phase = .uninit
  symlen : s.symlen = 0
  bitlen : s.bitlen = 0
  bytelen : s.bytelen = 0
  nsyms : s.nsyms = 0
  nnodes : s.nnodes = 0
  root : s.root = NIL
  cur : s.cur = NIL
  freq : ∀ a : Symbol, s.freqAt a = 0
  code : ∀ a : Symbol, s.codeLen a = 0
  status : s.readReg 0 = 0
  symcap : (s.readReg 8).toNat = s.params.symCap
  bytecap : (s.readReg 9).toNat = s.params.byteCap

/-- Two states agree on everything valid: all registers, the tables FREQ and CODE, and the valid cells
of NODE, SYMBUF and BYTEBUF. They may differ in cells that are not valid (R32). -/
structure State.SameView (s t : State) : Prop where
  params : s.params = t.params
  phase : s.phase = t.phase
  symlen : s.symlen = t.symlen
  bitlen : s.bitlen = t.bitlen
  nsyms : s.nsyms = t.nsyms
  nnodes : s.nnodes = t.nnodes
  root : s.root = t.root
  cur : s.cur = t.cur
  freq : ∀ a : Symbol, s.freqAt a = t.freqAt a
  code : ∀ a : Symbol, s.codeAt a = t.codeAt a
  node : ∀ k, k < s.nnodes.toNat → s.nodeAt k = t.nodeAt k
  symbols : s.symbols = t.symbols
  bytes : s.bytes = t.bytes
  rsp : s.rsp = t.rsp
  inputs : s.inputs = t.inputs

/-! ### The tree while it grows -/

/-- The nodes that wait in the queue when node `i` is made: those below `i` that no earlier internal
node has taken as a child (42_tree_builder.md R78). -/
def State.waitingAt (s : State) (i : Nat) : List Nat :=
  (List.range i).filter (fun j => !(s.childrenOf s.nsyms.toNat i).contains j)

/-- The key of node `i` is before the key of node `j` (R75). -/
def State.KeyBefore (s : State) (i j : Nat) : Prop :=
  (s.nodeAt i).wgt.toNat < (s.nodeAt j).wgt.toNat ∨
    ((s.nodeAt i).wgt.toNat = (s.nodeAt j).wgt.toNat ∧ i < j)

/-! ### Errors -/

/-- Which errors a command with legal operands can raise (60_exceptions.md R120). -/
def errorsOf : Instr → List ErrorKind
  | .nop => []
  | .clr => []
  | .rdreg _ => []
  | .wsym _ => [.overflow]
  | .rsym _ => [.range]
  | .clrs => []
  | .fcount => [.phase]
  | .fset _ _ => [.phase]
  | .fget _ => []
  | .build => [.phase]
  | .nget _ _ => [.range]
  | .cget _ _ => []
  | .wbyte _ => [.overflow]
  | .rbyte _ => [.range]
  | .clrb => []
  | .bput _ _ => [.overflow]
  | .bget _ _ => [.range]
  | .encode => [.phase, .overflow, .unksym]
  | .decode _ => [.phase, .range, .overflow, .badcode, .trunc]
  | .dstep _ => [.phase, .badcode]
  | .drst => [.phase]

/-- The commands that only read (20_memory.md R46). -/
def IsRead : Instr → Bool
  | .rdreg _ => true
  | .rsym _ => true
  | .fget _ => true
  | .nget _ _ => true
  | .cget _ _ => true
  | .rbyte _ => true
  | .bget _ _ => true
  | .nop => false
  | .clr => false
  | .wsym _ => false
  | .clrs => false
  | .fcount => false
  | .fset _ _ => false
  | .build => false
  | .wbyte _ => false
  | .clrb => false
  | .bput _ _ => false
  | .encode => false
  | .decode _ => false
  | .dstep _ => false
  | .drst => false

/-! ### Sequences of commands -/

/-- The commands in order, each run on the state the one before it left. -/
def runAll : List Instr → State → Result
  | [], s => .next s
  | i :: rest, s =>
    match exec i s with
    | .next t => runAll rest t
    | .fault f => .fault f
    | .refused r => .refused r

/-- The concatenated codes of a text (45_coder.md R106). -/
def State.codesOf (s : State) (text : List Symbol) : List Bool := text.flatMap s.codeAt

/-! ### The encoding tables as data -/

/-- One row of the opcode map: opcode value, mask of fixed bits, legal operands, command (R57, R60). -/
structure OpcodeRow where
  op : BitVec 8
  mask : CmdWord
  legal : OperandA → Word32 → Bool
  command : OperandA → Word32 → Instr

/-- The masks of the four formats (R57). -/
def maskN : CmdWord := 0xFFFFFFFFFFFF
/-- Format A. -/
def maskA : CmdWord := 0xFF00FFFFFFFF
/-- Format D. -/
def maskD : CmdWord := 0xFFFF00000000
/-- Format AD. -/
def maskAD : CmdWord := 0xFF0000000000

/-- The 21 rows of R60. -/
def opcodeMap : List OpcodeRow :=
  [⟨0x00, maskN, fun _ _ => true, fun _ _ => .nop⟩,
   ⟨0x01, maskN, fun _ _ => true, fun _ _ => .clr⟩,
   ⟨0x02, maskA, fun a _ => a.toNat ≤ 9, fun a _ => .rdreg a⟩,
   ⟨0x10, maskA, fun _ _ => true, fun a _ => .wsym a⟩,
   ⟨0x11, maskD, fun _ _ => true, fun _ d => .rsym d⟩,
   ⟨0x12, maskN, fun _ _ => true, fun _ _ => .clrs⟩,
   ⟨0x13, maskN, fun _ _ => true, fun _ _ => .fcount⟩,
   ⟨0x14, maskAD, fun _ _ => true, fun a d => .fset a d⟩,
   ⟨0x15, maskA, fun _ _ => true, fun a _ => .fget a⟩,
   ⟨0x20, maskN, fun _ _ => true, fun _ _ => .build⟩,
   ⟨0x21, maskAD, fun a _ => a.toNat ≤ 2, fun a d => .nget a d⟩] ++
  [⟨0x22, maskAD, fun _ d => d.toNat ≤ 8, fun a d => .cget a d⟩,
   ⟨0x30, maskA, fun _ _ => true, fun a _ => .wbyte a⟩,
   ⟨0x31, maskD, fun _ _ => true, fun _ d => .rbyte d⟩,
   ⟨0x32, maskN, fun _ _ => true, fun _ _ => .clrb⟩,
   ⟨0x33, maskAD, fun a _ => 1 ≤ a.toNat ∧ a.toNat ≤ 32, fun a d => .bput a d⟩,
   ⟨0x34, maskAD, fun a _ => 1 ≤ a.toNat ∧ a.toNat ≤ 32, fun a d => .bget a d⟩,
   ⟨0x38, maskN, fun _ _ => true, fun _ _ => .encode⟩,
   ⟨0x39, maskD, fun _ _ => true, fun _ d => .decode d⟩,
   ⟨0x3A, maskA, fun a _ => a.toNat ≤ 1, fun a _ => .dstep a⟩,
   ⟨0x3B, maskN, fun _ _ => true, fun _ _ => .drst⟩]

/-- `w` is an instance of the row with legal field values (R57, R61). -/
def OpcodeRow.holds (row : OpcodeRow) (w : CmdWord) : Prop :=
  w &&& row.mask = row.op.setWidth 48 <<< 40 ∧ row.legal (aField w) (dField w) = true

/-- The word is no command (R61). -/
def IsIllegal (w : CmdWord) : Prop := ∃ e, decode w = .error e

/-- R62's list of the illegal words, by opcode value and fields: undefined opcodes, a field not in use
that is not zero, values outside the row's range. -/
def listedIllegal (op : Nat) (a : Nat) (d : Nat) : Bool :=
  ((0x03 ≤ op && op ≤ 0x0F) || (0x16 ≤ op && op ≤ 0x1F) || (0x23 ≤ op && op ≤ 0x2F) ||
    (0x35 ≤ op && op ≤ 0x37) || (0x3C ≤ op && op ≤ 0xFF)) ||
  ([0x00, 0x01, 0x12, 0x13, 0x20, 0x32, 0x38, 0x3B, 0x11, 0x31, 0x39].contains op && a != 0) ||
  ([0x00, 0x01, 0x12, 0x13, 0x20, 0x32, 0x38, 0x3B, 0x02, 0x10, 0x15, 0x30, 0x3A].contains op &&
    d != 0) ||
  (op == 0x02 && 9 < a) || (op == 0x21 && 2 < a) || (op == 0x22 && 8 < d) ||
  ((op == 0x33 || op == 0x34) && (a == 0 || 32 < a)) || (op == 0x3A && 1 < a)

end Sys2Proof.Machine
end

