-- ==== Sys2Proof/Certificates/Slice0/Obligations.lean ====
section
/-! DEFINITION. The statements for the provers. Each docstring names the rules of spec/ it rests on.
A frame is written `t = { s with f := t.f, … }`: every field not named there is unchanged. -/

open Sys2Proof Sys2Proof.Machine

/-! ### Encoding (spec/30_encoding.md) -/

/-- R56, R57, R60, R64: no bit of a command's encoding is dropped. -/
def Obligations.DecodeOfEncodeIsTheCommand : Prop :=
  ∀ i : Instr, i.wf = true → decode (encode i) = .ok i

/-- R60, R61: a word that is a command is that command's one encoding, with legal operands. -/
def Obligations.EncodeOfDecodeIsTheWord : Prop :=
  ∀ (w : CmdWord) (i : Instr), decode w = .ok i → i.wf = true ∧ encode i = w

/-- R57, R61: every word is an instance of exactly one row of the opcode map with legal field values,
and is then that row's command, or it is illegal. -/
def Obligations.EveryWordIsOneRowOrIllegal : Prop :=
  opcodeMap.Pairwise (fun x y => x.op ≠ y.op) ∧
  ∀ w : CmdWord,
    (∃ row ∈ opcodeMap, row.holds w ∧ (∀ other ∈ opcodeMap, other.holds w → other.op = row.op) ∧
      decode w = .ok (row.command (aField w) (dField w))) ∨
    ((∀ row ∈ opcodeMap, ¬ row.holds w) ∧ IsIllegal w)

/-- R62: exactly the listed words are illegal, whatever the state; such a word changes no state and is
answered E_ILLEGAL with data 0. -/
def Obligations.IllegalWordsAreListedAndAnswered : Prop :=
  ∀ w : CmdWord,
    (IsIllegal w ↔ listedIllegal (opField w).toNat (aField w).toNat (dField w).toNat = true) ∧
    (IsIllegal w → ∀ (s : State) (rest : List HostEvent), s.inputs = .command w :: rest →
      step s = .next { s with inputs := rest, rsp := some ⟨.error .illegal, 0⟩ })

/-- R59, R119: the two fields of a response word, and the eight status codes. -/
def Obligations.ResponseWordCarriesStatusAndData : Prop :=
  (∀ r : Response, r.word.extractLsb' 32 8 = r.status.code ∧ r.word.extractLsb' 0 32 = r.data) ∧
  Status.code .ok = 0x00 ∧ Status.code (.error .illegal) = 0x01 ∧
  Status.code (.error .phase) = 0x02 ∧ Status.code (.error .range) = 0x03 ∧
  Status.code (.error .overflow) = 0x04 ∧ Status.code (.error .unksym) = 0x05 ∧
  Status.code (.error .trunc) = 0x06 ∧ Status.code (.error .badcode) = 0x07

/-- 95_test_vectors.md 2.1: words written out from the encoding, one of each family, and what they
decode to. -/
def Obligations.WrittenOutWordsDecode : Prop :=
  decode 0x020500000000 = .ok (.rdreg 5) ∧ decode 0x146100000005 = .ok (.fset 0x61 5) ∧
  decode 0x11000000000A = .ok (.rsym 10) ∧ decode 0x210100000008 = .ok (.nget 1 8) ∧
  decode 0x226200000001 = .ok (.cget 0x62 1) ∧ decode 0x330D00001675 = .ok (.bput 13 0x1675) ∧
  decode 0x390000000017 = .ok (.decode 23) ∧ decode 0x3A0100000000 = .ok (.dstep 1) ∧
  IsIllegal 0x020A00000000 ∧ IsIllegal 0x350000000000 ∧ IsIllegal 0x3B0000000001

/-! ### The machine as a whole -/

/-- R14, R55: when the host's next event is a word that decodes to a command, a step is that command's
meaning on the state with the event taken; a reset event is a reset; with no event nothing changes
(60_exceptions.md R132). `withFetchWord` makes a word the next event. The list of events is the
model's own (notes/assumptions/4.md, 5.md, 6.md). That a reset leaves the exact state
`State.resetFor` is the model's choice in the cells of NODE, SYMBUF and BYTEBUF, which R35 leaves
unspecified and which the model lists none of (notes/assumptions/3.md, 8.md), and its reading of the
reset event (9.md). -/
def Obligations.StepRunsTheDecodedCommand : Prop :=
  (∀ (s : State) (w : CmdWord) (rest : List HostEvent) (i : Instr),
    s.inputs = .command w :: rest → decode w = .ok i →
      step s = exec i { s with inputs := rest }) ∧
  (∀ (s : State) (rest : List HostEvent), s.inputs = .reset :: rest →
    step s = .next { State.resetFor s.params with inputs := rest }) ∧
  (∀ s : State, s.inputs = [] → step s = .next s) ∧
  (∀ (s : State) (w : Nat), w < 2 ^ 48 →
    (s.withFetchWord 48 w).inputs = .command (BitVec.ofNat 48 w) :: s.inputs)

/-- R55, R139: every step goes on from every state, and a command word, legal or not, is answered by
exactly one response. The list of events is the model's own (notes/assumptions/4.md). -/
def Obligations.EveryStepGoesOnAndAnswersOnce : Prop :=
  (∀ s : State, ∃ t, step s = .next t) ∧
  (∀ (s : State) (w : CmdWord) (rest : List HostEvent), s.inputs = .command w :: rest →
    ∃ t r, step s = .next t ∧ t.rsp = some r ∧ t.inputs = rest)

/-- 10_state.md R35: the reset state of every instance, the state a reset event leaves and the state
CLR leaves have every value of the reset table. -/
def Obligations.ResetAndClrGiveTheResetState : Prop :=
  State.reset.IsReset ∧ (∀ p : Params, (State.resetFor p).IsReset) ∧
  (∀ (s : State) (rest : List HostEvent), s.inputs = .reset :: rest →
    ∃ t, step s = .next t ∧ t.IsReset ∧ t.rsp = none) ∧
  (∀ s : State, ∃ t, exec .clr s = .next t ∧ t.IsReset)

/-- 00_scope.md R8: parameters outside the bounds are refused, every instance has them inside, and no
step changes them (10_state.md R14). That they are a field of the state is the model's choice
(notes/assumptions/1.md). -/
def Obligations.ParametersStayInBoundsAndFixed : Prop :=
  (∀ m n : Nat, Params.make? m n = none ↔
    ¬ (1 ≤ m ∧ m ≤ 2 ^ 32 - 1 ∧ 1 ≤ n ∧ n ≤ 2 ^ 29 - 1)) ∧
  (∀ s : State, 1 ≤ s.params.symCap ∧ s.params.symCap ≤ 2 ^ 32 - 1 ∧ 1 ≤ s.params.byteCap ∧
    s.params.byteCap ≤ 2 ^ 29 - 1) ∧
  (∀ s t : State, step s = .next t → t.params = s.params)

/-! ### Invariants -/

/-- R34: the reset state of every instance satisfies the invariant of the whole state. Its part
`cells`, the canonical form of the memories of 20_memory.md R36, is the model's own
(notes/assumptions/2.md). -/
def Obligations.ResetSatisfiesTheInvariant : Prop := ∀ p : Params, (State.resetFor p).Inv

/-- 20_memory.md R36: every step keeps every local memory in canonical form and FREQ, NODE and CODE
inside their index ranges; with the buffers within capacity before the step, it keeps SYMBUF and
BYTEBUF inside theirs as well. The canonical form is the model's own (notes/assumptions/2.md). -/
def Obligations.CellsStayCanonical : Prop :=
  (∀ s t : State, s.CellsOk → step s = .next t → t.CellsOk) ∧
  (∀ s t : State, s.CellsOk → s.BuffersOk → step s = .next t →
    t.CellsOk ∧ (∀ c ∈ t.symbuf, c.1 < t.params.symCap) ∧
      ∀ c ∈ t.bytebuf, c.1 < t.params.byteCap)

/-- R31 (with R34 (a)): at all times the pad positions hold 0 and the buffers are within capacity. -/
def Obligations.BuffersStayInCapacityAndPadded : Prop :=
  (∀ p : Params, (State.resetFor p).BuffersOk) ∧
  (∀ s t : State, s.BuffersOk → step s = .next t → t.BuffersOk)

/-- R26, R22, R34 (c): reset establishes and every step keeps the shape of the tree in BUILT, the
position of CUR, and the empty state of UNINIT. -/
def Obligations.TreeShapeIsKept : Prop :=
  (∀ p : Params, (State.resetFor p).TreeInv) ∧
  (∀ s t : State, s.TreeInv → step s = .next t → t.TreeInv)

/-- R28: reset establishes and every step keeps the shape of the code table: no code in UNINIT, and in
BUILT the root-to-leaf paths of exactly the symbols that occur, prefix-free. -/
def Obligations.CodeTableShapeIsKept : Prop :=
  (∀ p : Params, (State.resetFor p).CodeInv) ∧
  (∀ s t : State, s.CodeInv → step s = .next t → t.CodeInv)

/-- R34: every step keeps the invariant of the whole state. Its part `cells`, the canonical form of
the memories of 20_memory.md R36, is the model's own (notes/assumptions/2.md). -/
def Obligations.InvariantIsKeptByEveryStep : Prop :=
  ∀ s t : State, s.Inv → step s = .next t → t.Inv

/-- R32: what the cells that are not valid hold cannot be observed. Two states that agree on
everything valid answer alike and go to states that agree on everything valid. -/
def Obligations.InvalidCellsCannotBeObserved : Prop :=
  ∀ s t s' : State, s.Inv → t.Inv → s.SameView t → step s = .next s' →
    ∃ t', step t = .next t' ∧ s'.SameView t'

/-! ### Rules about all commands -/

/-- R18: UNINIT after reset and after CLR; only a successful BUILD goes to BUILT and only CLR (or a
reset) leaves it. -/
def Obligations.OnlyBuildAndClrChangePhase : Prop :=
  (∀ p : Params, (State.resetFor p).phase = .uninit) ∧
  (∀ s : State, ∃ t, exec .clr s = .next t ∧ t.phase = .uninit) ∧
  (∀ (i : Instr) (s t : State), exec i s = .next t → s.phase = .uninit → t.phase = .built →
    i = .build ∧ ∃ d, t.rsp = some ⟨.ok, d⟩) ∧
  (∀ (i : Instr) (s t : State), exec i s = .next t → s.phase = .built → t.phase = .uninit →
    i = .clr) ∧
  (∀ s : State, s.phase = .uninit → ∃ t, exec .build s = .next t ∧ t.phase = .built)

/-- R23, 42_tree_builder.md R83: in BUILT no command but CLR changes the counts, the tree or the
codes. -/
def Obligations.BuiltTreeIsImmutable : Prop :=
  ∀ (i : Instr) (s t : State), exec i s = .next t → s.phase = .built → i ≠ .clr →
    t.phase = .built ∧ t.freq = s.freq ∧ t.node = s.node ∧ t.code = s.code ∧ t.root = s.root ∧
      t.nsyms = s.nsyms ∧ t.nnodes = s.nnodes

/-- 20_memory.md R37 (the W entries) and 10_state.md R19 (column "written by"): which command can
change which memory and which register. -/
def Obligations.MemoriesAndRegistersHaveTheirWriters : Prop :=
  ∀ (i : Instr) (s t : State), exec i s = .next t →
    t.params = s.params ∧ t.inputs = s.inputs ∧
    (t.freq ≠ s.freq → i = .clr ∨ i = .fcount ∨ ∃ a d, i = .fset a d) ∧
    (t.node ≠ s.node → i = .build) ∧
    (t.code ≠ s.code → i = .clr ∨ i = .build) ∧
    (t.symbuf ≠ s.symbuf → (∃ a, i = .wsym a) ∨ ∃ d, i = .decode d) ∧
    (t.bytebuf ≠ s.bytebuf → (∃ a, i = .wbyte a) ∨ (∃ a d, i = .bput a d) ∨ i = .encode) ∧
    (t.symlen ≠ s.symlen → (∃ a, i = .wsym a) ∨ i = .clrs ∨ (∃ d, i = .decode d) ∨ i = .clr) ∧
    (t.bitlen ≠ s.bitlen →
      (∃ a, i = .wbyte a) ∨ (∃ a d, i = .bput a d) ∨ i = .clrb ∨ i = .encode ∨ i = .clr) ∧
    (t.nsyms ≠ s.nsyms ∨ t.nnodes ≠ s.nnodes ∨ t.root ≠ s.root → i = .build ∨ i = .clr) ∧
    (t.cur ≠ s.cur →
      i = .build ∨ (∃ d, i = .decode d) ∨ (∃ a, i = .dstep a) ∨ i = .drst ∨ i = .clr)

/-- R46: a read changes nothing but the response, and issued again with the same operands it answers
the same; with no event nothing changes, which is how the model reads "No memory cell changes by
itself" (notes/assumptions/6.md). -/
def Obligations.ReadsHaveNoSideEffect : Prop :=
  (∀ (i : Instr) (s : State), IsRead i = true →
    ∃ t, exec i s = .next t ∧ t = { s with rsp := t.rsp } ∧ exec i t = .next t) ∧
  (∀ s : State, s.inputs = [] → step s = .next s)

/-- 60_exceptions.md R123: what an error leaves. A failed ENCODE empties the stream, a DECODE that
fails while it runs empties the output and returns the walker to the root, every other error changes
nothing but the response. -/
def Obligations.ErrorsLeaveTheStateTheTableGives : Prop :=
  ∀ (i : Instr) (s t : State) (e : ErrorKind) (info : Word32),
    exec i s = .next t → t.rsp = some ⟨.error e, info⟩ →
      (i = .encode ∧ (e = .overflow ∨ e = .unksym) → t.bitlen = 0 ∧
        t = { s with bytebuf := t.bytebuf, bitlen := t.bitlen, rsp := t.rsp }) ∧
      ((∃ d, i = .decode d) ∧ (e = .overflow ∨ e = .badcode ∨ e = .trunc) →
        t.symlen = 0 ∧ t.cur = s.root ∧
        t = { s with symbuf := t.symbuf, symlen := t.symlen, cur := t.cur, rsp := t.rsp }) ∧
      (¬ (i = .encode ∧ (e = .overflow ∨ e = .unksym)) →
        ¬ ((∃ d, i = .decode d) ∧ (e = .overflow ∨ e = .badcode ∨ e = .trunc)) →
        t = { s with rsp := t.rsp })

/-- R119, R122, R123: in the wrong phase a command answers E_PHASE with data 0 and changes nothing,
whatever its operands. -/
def Obligations.PhaseErrorsChangeNothing : Prop :=
  ∀ s : State,
    (s.phase = .built →
      exec .fcount s = .next (s.answer ⟨.error .phase, 0⟩) ∧
      (∀ a d, exec (.fset a d) s = .next (s.answer ⟨.error .phase, 0⟩)) ∧
      exec .build s = .next (s.answer ⟨.error .phase, 0⟩)) ∧
    (s.phase = .uninit →
      exec .encode s = .next (s.answer ⟨.error .phase, 0⟩) ∧
      (∀ d, exec (.decode d) s = .next (s.answer ⟨.error .phase, 0⟩)) ∧
      (∀ a : OperandA, a.toNat ≤ 1 →
        exec (.dstep a) s = .next (s.answer ⟨.error .phase, 0⟩)) ∧
      exec .drst s = .next (s.answer ⟨.error .phase, 0⟩))

/-- R120: a command with legal operands raises only the errors of its row. With an operand outside its
legal values, which no word decodes to, its meaning answers E_ILLEGAL with data 0 and changes nothing;
that is the model's inference from R62 (notes/assumptions/7.md). -/
def Obligations.ErrorKindsComeOnlyFromTheirCommands : Prop :=
  ∀ (i : Instr) (s : State),
    (i.wf = true → ∀ (t : State) (e : ErrorKind) (info : Word32), exec i s = .next t →
      t.rsp = some ⟨.error e, info⟩ → e ∈ errorsOf i) ∧
    (i.wf = false → exec i s = .next (s.answer ⟨.error .illegal, 0⟩))

/-! ### Control (spec/40_control.md) -/

/-- R66: NOP answers OK 0 and writes no state. -/
def Obligations.NopChangesNothing : Prop :=
  decode 0x000000000000 = .ok .nop ∧
  (∀ (a : OperandA) (d : Word32), a ≠ 0 ∨ d ≠ 0 → IsIllegal (packFields 0x00 a d)) ∧
  (∀ s : State, exec .nop s = .next { s with rsp := some ⟨.ok, 0⟩ })

/-- R67: CLR gives every register its reset value, clears FREQ and CODE, rewrites no cell of NODE,
SYMBUF or BYTEBUF, and leaves a state that agrees with the reset state in everything valid. It is the
only command that leaves BUILT. -/
def Obligations.ClrReturnsToTheResetState : Prop :=
  decode 0x010000000000 = .ok .clr ∧
  (∀ (a : OperandA) (d : Word32), a ≠ 0 ∨ d ≠ 0 → IsIllegal (packFields 0x01 a d)) ∧
  (∀ s : State, ∃ t, exec .clr s = .next t ∧ t.rsp = some ⟨.ok, 0⟩ ∧ t.phase = .uninit ∧
    t.symlen = 0 ∧ t.bitlen = 0 ∧ t.nsyms = 0 ∧ t.nnodes = 0 ∧ t.root = NIL ∧ t.cur = NIL ∧
    (∀ a : Symbol, t.freqAt a = 0 ∧ t.codeLen a = 0) ∧
    t.node = s.node ∧ t.symbuf = s.symbuf ∧ t.bytebuf = s.bytebuf ∧
    t.params = s.params ∧ t.inputs = s.inputs ∧
    t.SameView { State.resetFor s.params with rsp := t.rsp, inputs := s.inputs }) ∧
  (∀ (i : Instr) (s t : State), exec i s = .next t → s.phase = .built → t.phase = .uninit →
    i = .clr)

/-- R68, 10_state.md R20: RDREG answers the register of the table, zero-extended, and changes nothing;
the flags of STATUS; a register number above 9 is no command. -/
def Obligations.RdregReadsTheRegisterTable : Prop :=
  (∀ a : OperandA, a.toNat ≤ 9 → decode (packFields 0x02 a 0) = .ok (.rdreg a)) ∧
  (∀ (a : OperandA) (d : Word32), 9 < a.toNat ∨ d ≠ 0 → IsIllegal (packFields 0x02 a d)) ∧
  (∀ s : State,
    exec (.rdreg 0) s = .next (s.answer ⟨.ok, BitVec.ofNat 32
      ((if s.phase = .built then 1 else 0) +
       (if s.phase = .built ∧ s.nsyms = 0 then 2 else 0) +
       (if s.phase = .built ∧ s.nsyms = 1 then 4 else 0) +
       (if s.phase = .built ∧ s.cur ≠ s.root then 8 else 0))⟩) ∧
    exec (.rdreg 1) s = .next (s.answer ⟨.ok, s.symlen⟩) ∧
    exec (.rdreg 2) s = .next (s.answer ⟨.ok, s.bitlen⟩) ∧
    exec (.rdreg 3) s = .next (s.answer ⟨.ok, BitVec.ofNat 32 ((s.bitlen.toNat + 7) / 8)⟩) ∧
    exec (.rdreg 4) s = .next (s.answer ⟨.ok, s.nsyms.setWidth 32⟩) ∧
    exec (.rdreg 5) s = .next (s.answer ⟨.ok, s.nnodes.setWidth 32⟩) ∧
    exec (.rdreg 6) s = .next (s.answer ⟨.ok, s.root.setWidth 32⟩) ∧
    exec (.rdreg 7) s = .next (s.answer ⟨.ok, s.cur.setWidth 32⟩) ∧
    exec (.rdreg 8) s = .next (s.answer ⟨.ok, BitVec.ofNat 32 s.params.symCap⟩) ∧
    (BitVec.ofNat 32 s.params.symCap).toNat = s.params.symCap ∧
    exec (.rdreg 9) s = .next (s.answer ⟨.ok, BitVec.ofNat 32 s.params.byteCap⟩) ∧
    (BitVec.ofNat 32 s.params.byteCap).toNat = s.params.byteCap)

/-! ### Symbol buffer and frequency model (spec/41_frequency_model.md) -/

/-- R69: WSYM appends its symbol, or answers E_OVERFLOW with SYMLEN and changes nothing when SYMBUF is
full. -/
def Obligations.WsymAppendsTheSymbol : Prop :=
  (∀ a : OperandA, decode (packFields 0x10 a 0) = .ok (.wsym a)) ∧
  (∀ (a : OperandA) (d : Word32), d ≠ 0 → IsIllegal (packFields 0x10 a d)) ∧
  (∀ (a : OperandA) (s : State), s.symlen.toNat = s.params.symCap →
    exec (.wsym a) s = .next (s.answer ⟨.error .overflow, s.symlen⟩)) ∧
  (∀ (a : OperandA) (s : State), s.symlen.toNat < s.params.symCap →
    ∃ t, exec (.wsym a) s = .next t ∧ t.rsp = some ⟨.ok, 0⟩ ∧
      t.symlen.toNat = s.symlen.toNat + 1 ∧ t.symbuf.read s.symlen.toNat = a ∧
      (∀ j, j ≠ s.symlen.toNat → t.symbuf.read j = s.symbuf.read j) ∧
      t.symbols = s.symbols ++ [a] ∧
      t = { s with symbuf := t.symbuf, symlen := t.symlen, rsp := t.rsp })

/-- R70: RSYM reads a valid symbol, or answers E_RANGE with SYMLEN. -/
def Obligations.RsymReadsTheSymbol : Prop :=
  (∀ d : Word32, decode (packFields 0x11 0 d) = .ok (.rsym d)) ∧
  (∀ (a : OperandA) (d : Word32), a ≠ 0 → IsIllegal (packFields 0x11 a d)) ∧
  (∀ (d : Word32) (s : State), s.symlen.toNat ≤ d.toNat →
    exec (.rsym d) s = .next (s.answer ⟨.error .range, s.symlen⟩)) ∧
  (∀ (d : Word32) (s : State), d.toNat < s.symlen.toNat →
    exec (.rsym d) s = .next (s.answer ⟨.ok, (s.symbuf.read d.toNat).setWidth 32⟩))

/-- R71: CLRS sets SYMLEN to 0 and touches nothing else. -/
def Obligations.ClrsEmptiesTheSymbols : Prop :=
  decode 0x120000000000 = .ok .clrs ∧
  (∀ (a : OperandA) (d : Word32), a ≠ 0 ∨ d ≠ 0 → IsIllegal (packFields 0x12 a d)) ∧
  (∀ s : State, exec .clrs s = .next { s with symlen := 0, rsp := some ⟨.ok, 0⟩ })

/-- R72: after FCOUNT each entry of FREQ is exactly the number of positions that hold its symbol,
whatever the table held before; SYMBUF is not changed. In BUILT it is E_PHASE. -/
def Obligations.FcountCountsTheSymbols : Prop :=
  decode 0x130000000000 = .ok .fcount ∧
  (∀ (a : OperandA) (d : Word32), a ≠ 0 ∨ d ≠ 0 → IsIllegal (packFields 0x13 a d)) ∧
  (∀ s : State, s.phase = .built → exec .fcount s = .next (s.answer ⟨.error .phase, 0⟩)) ∧
  (∀ s : State, s.phase = .uninit →
    ∃ t, exec .fcount s = .next t ∧ t.rsp = some ⟨.ok, 0⟩ ∧
      (∀ a : Symbol, (t.freqAt a).toNat = s.symbols.count a) ∧
      t = { s with freq := t.freq, rsp := t.rsp })

/-- R73: FSET writes one entry of FREQ. In BUILT it is E_PHASE. -/
def Obligations.FsetWritesOneCount : Prop :=
  (∀ (a : OperandA) (d : Word32), decode (packFields 0x14 a d) = .ok (.fset a d)) ∧
  (∀ (a : OperandA) (d : Word32) (s : State), s.phase = .built →
    exec (.fset a d) s = .next (s.answer ⟨.error .phase, 0⟩)) ∧
  (∀ (a : OperandA) (d : Word32) (s : State), s.phase = .uninit →
    ∃ t, exec (.fset a d) s = .next t ∧ t.rsp = some ⟨.ok, 0⟩ ∧ t.freqAt a = d ∧
      (∀ b : Symbol, b ≠ a → t.freqAt b = s.freqAt b) ∧
      t = { s with freq := t.freq, rsp := t.rsp })

/-- R74: FGET answers the entry of FREQ and changes nothing. -/
def Obligations.FgetReadsTheCount : Prop :=
  (∀ a : OperandA, decode (packFields 0x15 a 0) = .ok (.fget a)) ∧
  (∀ (a : OperandA) (d : Word32), d ≠ 0 → IsIllegal (packFields 0x15 a d)) ∧
  (∀ (a : OperandA) (s : State), exec (.fget a) s = .next (s.answer ⟨.ok, s.freqAt a⟩))

/-! ### Tree builder (spec/42_tree_builder.md) -/

/-- R75, R76: extractMin removes the one index whose key (weight, then index) is first. -/
def Obligations.ExtractMinTakesTheFirstKey : Prop :=
  ∀ nodes : List Node, extractMin nodes [] = none ∧
    ∀ pq : List Nat, pq ≠ [] → pq.Nodup →
      ∃ m, extractMin nodes pq = some (m, pq.erase m) ∧ m ∈ pq ∧
        ∀ j ∈ pq, j ≠ m →
          (arenaAt nodes m).wgt.toNat < (arenaAt nodes j).wgt.toNat ∨
          ((arenaAt nodes m).wgt.toNat = (arenaAt nodes j).wgt.toNat ∧ m < j)

/-- R77, R78, R80, R83, with 10_state.md R26: from every UNINIT state BUILD makes a tree of the shape
R26 gives, answers NNODES, sets CUR to ROOT, and writes only what R83 names. The entries past NNODES,
which are not valid, keep what they hold (notes/assumptions/8.md). -/
def Obligations.BuildMakesTheTree : Prop :=
  decode 0x200000000000 = .ok .build ∧
  (∀ s : State, s.phase = .uninit →
    ∃ t, exec .build s = .next t ∧ t.rsp = some ⟨.ok, t.nnodes.setWidth 32⟩ ∧ t.phase = .built ∧
      t.cur = t.root ∧ t.TreeOk ∧
      (∀ k, t.nnodes.toNat ≤ k → t.nodeAt k = s.nodeAt k) ∧
      t = { s with
        node := t.node, nnodes := t.nnodes, nsyms := t.nsyms, root := t.root, code := t.code,
        cur := t.cur, phase := t.phase, rsp := t.rsp })

/-- R75, R78, R79: each internal node BUILD makes has as LEFT the waiting node with the first key and
as RIGHT the one with the second; a node waits from when it is made until it becomes a child. -/
def Obligations.MergesTakeTheTwoLowestKeys : Prop :=
  ∀ s t : State, s.phase = .uninit → exec .build s = .next t →
    ∀ i, t.nsyms.toNat ≤ i → i < t.nnodes.toNat →
      (t.nodeAt i).left.toNat ∈ t.waitingAt i ∧ (t.nodeAt i).right.toNat ∈ t.waitingAt i ∧
      t.KeyBefore (t.nodeAt i).left.toNat (t.nodeAt i).right.toNat ∧
      ∀ j ∈ t.waitingAt i, j ≠ (t.nodeAt i).left.toNat → j ≠ (t.nodeAt i).right.toNat →
        t.KeyBefore (t.nodeAt i).right.toNat j

/-- R84: BUILD is a function of FREQ alone: equal tables give equal trees and equal codes, whatever
else the two instances hold. -/
def Obligations.BuildDependsOnTheCountsAlone : Prop :=
  ∀ s t : State, s.phase = .uninit → t.phase = .uninit →
    (∀ a : Symbol, s.freqAt a = t.freqAt a) →
    ∃ s' t', exec .build s = .next s' ∧ exec .build t = .next t' ∧
      s'.nnodes = t'.nnodes ∧ s'.nsyms = t'.nsyms ∧ s'.root = t'.root ∧
      (∀ k, k < s'.nnodes.toNat → s'.nodeAt k = t'.nodeAt k) ∧
      (∀ a : Symbol, s'.codeAt a = t'.codeAt a)

/-- R81, R90: with no symbol BUILD succeeds with the empty tree and no code. R82, 43_code_table.md R89:
with one symbol the tree is that symbol's leaf, and its code is the one bit 0. -/
def Obligations.BuildOfNoneAndOfOneSymbol : Prop :=
  (∀ s : State, s.phase = .uninit → (∀ a : Symbol, s.freqAt a = 0) →
    ∃ t, exec .build s = .next t ∧ t.rsp = some ⟨.ok, 0⟩ ∧ t.phase = .built ∧ t.nnodes = 0 ∧
      t.nsyms = 0 ∧ t.root = NIL ∧ (∀ a : Symbol, t.codeLen a = 0)) ∧
  (∀ (s : State) (x : Symbol), s.phase = .uninit → s.freqAt x ≠ 0 →
    (∀ a : Symbol, a ≠ x → s.freqAt a = 0) →
    ∃ t, exec .build s = .next t ∧ t.rsp = some ⟨.ok, 1⟩ ∧ t.phase = .built ∧ t.nnodes = 1 ∧
      t.nsyms = 1 ∧ t.root = 0 ∧ t.nodeAt 0 = ⟨true, x, NIL, NIL, (s.freqAt x).setWidth 40⟩ ∧
      t.codeAt x = [false] ∧ (∀ a : Symbol, a ≠ x → t.codeLen a = 0))

/-- R86: NGET answers the field group of a valid node, or E_RANGE with NNODES; the link word by its
bits, and the link word of a leaf of the tree. -/
def Obligations.NgetReadsTheNode : Prop :=
  (∀ (a : OperandA) (d : Word32), a.toNat ≤ 2 → decode (packFields 0x21 a d) = .ok (.nget a d)) ∧
  (∀ (a : OperandA) (d : Word32), 2 < a.toNat → IsIllegal (packFields 0x21 a d)) ∧
  (∀ (a : OperandA) (d : Word32) (s : State), a.toNat ≤ 2 → s.nnodes.toNat ≤ d.toNat →
    exec (.nget a d) s = .next (s.answer ⟨.error .range, s.nnodes.setWidth 32⟩)) ∧
  (∀ (d : Word32) (s : State), d.toNat < s.nnodes.toNat →
    ∃ v0 v1 v2 : Word32,
      exec (.nget 0 d) s = .next (s.answer ⟨.ok, v0⟩) ∧
      exec (.nget 1 d) s = .next (s.answer ⟨.ok, v1⟩) ∧
      exec (.nget 2 d) s = .next (s.answer ⟨.ok, v2⟩) ∧
      v0.getLsbD 31 = (s.nodeAt d.toNat).leaf ∧ v0.extractLsb' 26 5 = 0 ∧
      v0.extractLsb' 18 8 = (s.nodeAt d.toNat).sym ∧
      v0.extractLsb' 9 9 = (s.nodeAt d.toNat).left ∧
      v0.extractLsb' 0 9 = (s.nodeAt d.toNat).right ∧
      v1.toNat = (s.nodeAt d.toNat).wgt.toNat % 2 ^ 32 ∧
      v2.toNat = (s.nodeAt d.toNat).wgt.toNat / 2 ^ 32 ∧
      (s.TreeOk → d.toNat < s.nsyms.toNat →
        v0.toNat = 0x80000000 + (s.nodeAt d.toNat).sym.toNat * 2 ^ 18 + 0x3FFFF))

/-! ### Code table (spec/43_code_table.md) -/

/-- R87, R88, R89, R90, R92, with 10_state.md R28: from every UNINIT state BUILD derives the codes of
the tree it makes. -/
def Obligations.BuildDerivesTheCodes : Prop :=
  ∀ s : State, s.phase = .uninit → ∃ t, exec .build s = .next t ∧ t.CodesOk

/-- R93: CGET answers LEN for selector 0, and for selector j + 1 the code bits 32j to 32j + 31, the
first in bit 31, zero past the end. -/
def Obligations.CgetReadsTheCode : Prop :=
  (∀ (a : OperandA) (d : Word32), d.toNat ≤ 8 → decode (packFields 0x22 a d) = .ok (.cget a d)) ∧
  (∀ (a : OperandA) (d : Word32), 8 < d.toNat → IsIllegal (packFields 0x22 a d)) ∧
  (∀ (a : OperandA) (s : State),
    exec (.cget a 0) s = .next (s.answer ⟨.ok, BitVec.ofNat 32 (s.codeLen a)⟩)) ∧
  (∀ (a : OperandA) (d : Word32) (s : State), 1 ≤ d.toNat → d.toNat ≤ 8 →
    ∃ v : Word32, exec (.cget a d) s = .next (s.answer ⟨.ok, v⟩) ∧
      ∀ k, k < 32 →
        v.getLsbD (31 - k) = (s.codeAt a).getD (32 * (d.toNat - 1) + k) false)

/-! ### Bit-stream codec (spec/44_bitstream_codec.md) -/

/-- R94, R95, R96: pack and unpack bit by bit, and the law of the two. -/
def Obligations.PackAndUnpackObeyTheirLaw : Prop :=
  (∀ q : List Bool, (pack q).length = (q.length + 7) / 8 ∧
    (∀ j k, j < (q.length + 7) / 8 → k < 8 →
      ((pack q).getD j 0).getLsbD (7 - k) = q.getD (8 * j + k) false)) ∧
  (∀ bytes : List Byte, (unpack bytes).length = 8 * bytes.length ∧
    (∀ j k, j < bytes.length → k < 8 →
      (unpack bytes).getD (8 * j + k) false = (bytes.getD j 0).getLsbD (7 - k))) ∧
  (∀ q : List Bool,
    unpack (pack q) = q ++ List.replicate ((8 - q.length % 8) % 8) false) ∧
  (∀ bytes : List Byte, pack (unpack bytes) = bytes)

/-- R101: WBYTE appends a whole byte after the last valid byte, or answers E_OVERFLOW with BYTELEN; the
pad bits of the former last byte become valid and are 0. -/
def Obligations.WbyteAppendsTheByte : Prop :=
  (∀ a : OperandA, decode (packFields 0x30 a 0) = .ok (.wbyte a)) ∧
  (∀ (a : OperandA) (d : Word32), d ≠ 0 → IsIllegal (packFields 0x30 a d)) ∧
  (∀ (a : OperandA) (s : State), s.bytelen = s.params.byteCap →
    exec (.wbyte a) s = .next (s.answer ⟨.error .overflow, BitVec.ofNat 32 s.bytelen⟩)) ∧
  (∀ (a : OperandA) (s : State), s.bytelen < s.params.byteCap →
    ∃ t, exec (.wbyte a) s = .next t ∧ t.rsp = some ⟨.ok, 0⟩ ∧
      t.bitlen.toNat = 8 * (s.bytelen + 1) ∧ t.bytebuf.read s.bytelen = a ∧
      (∀ j, j ≠ s.bytelen → t.bytebuf.read j = s.bytebuf.read j) ∧
      t.bytes = s.bytes ++ [a] ∧
      (s.BuffersOk → ∀ i, s.bitlen.toNat ≤ i → i < 8 * s.bytelen → t.streamBit i = false) ∧
      t = { s with bytebuf := t.bytebuf, bitlen := t.bitlen, rsp := t.rsp })

/-- R102: RBYTE reads a valid byte, or answers E_RANGE with BYTELEN. -/
def Obligations.RbyteReadsTheByte : Prop :=
  (∀ d : Word32, decode (packFields 0x31 0 d) = .ok (.rbyte d)) ∧
  (∀ (a : OperandA) (d : Word32), a ≠ 0 → IsIllegal (packFields 0x31 a d)) ∧
  (∀ (d : Word32) (s : State), s.bytelen ≤ d.toNat →
    exec (.rbyte d) s = .next (s.answer ⟨.error .range, BitVec.ofNat 32 s.bytelen⟩)) ∧
  (∀ (d : Word32) (s : State), d.toNat < s.bytelen →
    exec (.rbyte d) s = .next (s.answer ⟨.ok, (s.bytebuf.read d.toNat).setWidth 32⟩))

/-- R103: CLRB sets BITLEN to 0, so BYTELEN is 0, and rewrites no cell. -/
def Obligations.ClrbEmptiesTheStream : Prop :=
  decode 0x320000000000 = .ok .clrb ∧
  (∀ (a : OperandA) (d : Word32), a ≠ 0 ∨ d ≠ 0 → IsIllegal (packFields 0x32 a d)) ∧
  (∀ s : State, ∃ t, exec .clrb s = .next t ∧ t = { s with bitlen := 0, rsp := some ⟨.ok, 0⟩ } ∧
    t.bytelen = 0)

/-- R104: BPUT appends its `a` bits after the valid bits, `d[a-1]` first, and leaves every valid bit
and every other byte as it was; bits of `d` above are ignored; E_OVERFLOW with BITLEN when they do not
fit. -/
def Obligations.BputAppendsTheBits : Prop :=
  (∀ (a : OperandA) (d : Word32), 1 ≤ a.toNat → a.toNat ≤ 32 →
    decode (packFields 0x33 a d) = .ok (.bput a d)) ∧
  (∀ (a : OperandA) (d : Word32), a.toNat = 0 ∨ 32 < a.toNat → IsIllegal (packFields 0x33 a d)) ∧
  (∀ (a : OperandA) (d : Word32) (s : State), 1 ≤ a.toNat → a.toNat ≤ 32 →
    8 * s.params.byteCap < s.bitlen.toNat + a.toNat →
    exec (.bput a d) s = .next (s.answer ⟨.error .overflow, s.bitlen⟩)) ∧
  (∀ (a : OperandA) (d : Word32) (s : State), 1 ≤ a.toNat → a.toNat ≤ 32 → s.BuffersOk →
    s.bitlen.toNat + a.toNat ≤ 8 * s.params.byteCap →
    ∃ t, exec (.bput a d) s = .next t ∧ t.rsp = some ⟨.ok, 0⟩ ∧
      t.bitlen.toNat = s.bitlen.toNat + a.toNat ∧
      (∀ i, i < s.bitlen.toNat → t.streamBit i = s.streamBit i) ∧
      (∀ k, k < a.toNat → t.streamBit (s.bitlen.toNat + k) = d.getLsbD (a.toNat - 1 - k)) ∧
      (∀ j, j < s.bitlen.toNat / 8 ∨ t.bytelen ≤ j → t.bytebuf.read j = s.bytebuf.read j) ∧
      (∀ d' : Word32, (∀ k, k < a.toNat → d'.getLsbD k = d.getLsbD k) →
        exec (.bput a d') s = exec (.bput a d) s) ∧
      t = { s with bytebuf := t.bytebuf, bitlen := t.bitlen, rsp := t.rsp })

/-- R105: BGET answers `a` stream bits from offset `d`, the earliest most significant, zeros above, or
E_RANGE with 8·BYTELEN; the sum `d + a` does not wrap. -/
def Obligations.BgetReadsTheBits : Prop :=
  (∀ (a : OperandA) (d : Word32), 1 ≤ a.toNat → a.toNat ≤ 32 →
    decode (packFields 0x34 a d) = .ok (.bget a d)) ∧
  (∀ (a : OperandA) (d : Word32), a.toNat = 0 ∨ 32 < a.toNat → IsIllegal (packFields 0x34 a d)) ∧
  (∀ (a : OperandA) (d : Word32) (s : State), 1 ≤ a.toNat → a.toNat ≤ 32 →
    8 * s.bytelen < d.toNat + a.toNat →
    exec (.bget a d) s = .next (s.answer ⟨.error .range, BitVec.ofNat 32 (8 * s.bytelen)⟩)) ∧
  (∀ (a : OperandA) (d : Word32) (s : State), 1 ≤ a.toNat → a.toNat ≤ 32 →
    d.toNat + a.toNat ≤ 8 * s.bytelen →
    ∃ v : Word32, exec (.bget a d) s = .next (s.answer ⟨.ok, v⟩) ∧
      (∀ k, k < a.toNat → v.getLsbD (a.toNat - 1 - k) = s.streamBit (d.toNat + k)) ∧
      (∀ k, a.toNat ≤ k → v.getLsbD k = false))

/-- R98: the stream is the unpacked buffer, and the buffer holds the packed form of the valid bits. -/
def Obligations.BufferHoldsThePackedValidBits : Prop :=
  (∀ s : State, (unpack s.bytes).length = 8 * s.bytelen ∧
    ∀ i, i < 8 * s.bytelen → s.streamBit i = (unpack s.bytes).getD i false) ∧
  (∀ s : State, s.BuffersOk → s.bytes = pack s.validBits ∧
    ∀ i, s.bitlen.toNat ≤ i → i < 8 * s.bytelen → s.streamBit i = false)

/-! ### Coder (spec/45_coder.md) -/

/-- R106, R107: in BUILT, when every symbol has a code and the codes fit, ENCODE leaves the packed
concatenation of the codes and answers its length; at the first position without a code it answers
E_UNKSYM with the position, at the first whose code does not fit E_OVERFLOW, and then the stream is
empty. Bytes past those appended are unchanged (bytes that are not valid: the model's choice,
notes/assumptions/8.md). -/
def Obligations.EncodePacksTheCodes : Prop :=
  decode 0x380000000000 = .ok .encode ∧
  (∀ s : State, s.phase = .uninit → exec .encode s = .next (s.answer ⟨.error .phase, 0⟩)) ∧
  (∀ s : State, s.phase = .built → (∀ a ∈ s.symbols, s.codeAt a ≠ []) →
    (s.codesOf s.symbols).length ≤ 8 * s.params.byteCap →
    ∃ t, exec .encode s = .next t ∧ t.rsp = some ⟨.ok, t.bitlen⟩ ∧
      t.bitlen.toNat = (s.codesOf s.symbols).length ∧ t.bytes = pack (s.codesOf s.symbols) ∧
      (∀ j, t.bytelen ≤ j → t.bytebuf.read j = s.bytebuf.read j) ∧
      t = { s with bytebuf := t.bytebuf, bitlen := t.bitlen, rsp := t.rsp }) ∧
  (∀ (s : State) (before : List Symbol) (a : Symbol) (after : List Symbol), s.phase = .built →
    s.symbols = before ++ a :: after → (∀ b ∈ before, s.codeAt b ≠ []) →
    (s.codesOf before).length ≤ 8 * s.params.byteCap →
    (s.codeAt a = [] ∨
      8 * s.params.byteCap < (s.codesOf before).length + (s.codeAt a).length) →
    ∃ t, exec .encode s = .next t ∧
      t.rsp = some ⟨.error (if s.codeAt a = [] then .unksym else .overflow),
        BitVec.ofNat 32 before.length⟩ ∧ t.bitlen = 0 ∧
      (∀ j, ((s.codesOf before).length + 7) / 8 ≤ j → t.bytebuf.read j = s.bytebuf.read j) ∧
      t = { s with bytebuf := t.bytebuf, bitlen := t.bitlen, rsp := t.rsp })

/-- R108: the empty cases of ENCODE: with no symbol it answers OK 0 and the stream is empty, for any
tree; with the empty tree and a symbol it answers E_UNKSYM 0. That BYTEBUF, none of whose cells is
valid then, keeps what it holds is the model's choice (notes/assumptions/8.md). -/
def Obligations.EncodeOfEmptyTextOrEmptyTree : Prop :=
  (∀ s : State, s.phase = .built → s.symlen = 0 →
    ∃ t, exec .encode s = .next t ∧ t.rsp = some ⟨.ok, 0⟩ ∧ t.bitlen = 0 ∧ t.bytelen = 0 ∧
      t = { s with bitlen := t.bitlen, rsp := t.rsp }) ∧
  (∀ s : State, s.Inv → s.phase = .built → s.nsyms = 0 → s.symlen ≠ 0 →
    ∃ t, exec .encode s = .next t ∧ t.rsp = some ⟨.error .unksym, 0⟩ ∧ t.bitlen = 0 ∧
      t = { s with bitlen := t.bitlen, rsp := t.rsp })

/-- R109, R110: one step of the walker. With the empty tree and with bit 1 on a single leaf it is
E_BADCODE; bit 0 on a single leaf emits its symbol; else the walker goes to the child, and at a leaf
emits its symbol (0x100 plus the symbol) and returns to ROOT. Nothing but CUR changes. -/
def Obligations.DstepWalksOneBit : Prop :=
  (∀ a : OperandA, a.toNat ≤ 1 → decode (packFields 0x3A a 0) = .ok (.dstep a)) ∧
  (∀ (a : OperandA) (d : Word32), 1 < a.toNat ∨ d ≠ 0 → IsIllegal (packFields 0x3A a d)) ∧
  (∀ (a : OperandA) (s : State), a.toNat ≤ 1 → s.phase = .uninit →
    exec (.dstep a) s = .next (s.answer ⟨.error .phase, 0⟩)) ∧
  (∀ (a : OperandA) (s : State), a.toNat ≤ 1 → s.phase = .built →
    (s.root = NIL ∨ ((s.nodeAt s.root.toNat).leaf = true ∧ a = 1) →
      exec (.dstep a) s = .next (s.answer ⟨.error .badcode, 0⟩)) ∧
    (s.root ≠ NIL → (s.nodeAt s.root.toNat).leaf = true → a = 0 →
      ∃ v : Word32, exec (.dstep a) s = .next (s.answer ⟨.ok, v⟩) ∧
        v.toNat = 0x100 + (s.nodeAt s.root.toNat).sym.toNat) ∧
    (s.root ≠ NIL → (s.nodeAt s.root.toNat).leaf = false →
      ∀ next : NodeIdx,
        next = (if a = 0 then (s.nodeAt s.cur.toNat).left else (s.nodeAt s.cur.toNat).right) →
        ((s.nodeAt next.toNat).leaf = true →
          ∃ v : Word32, exec (.dstep a) s =
            .next { s with cur := s.root, rsp := some ⟨.ok, v⟩ } ∧
            v.toNat = 0x100 + (s.nodeAt next.toNat).sym.toNat) ∧
        ((s.nodeAt next.toNat).leaf = false →
          exec (.dstep a) s = .next { s with cur := next, rsp := some ⟨.ok, 0⟩ })))

/-- R111: DRST sets CUR to ROOT and changes nothing else. In UNINIT it is E_PHASE. -/
def Obligations.DrstReturnsToTheRoot : Prop :=
  decode 0x3B0000000000 = .ok .drst ∧
  (∀ (a : OperandA) (d : Word32), a ≠ 0 ∨ d ≠ 0 → IsIllegal (packFields 0x3B a d)) ∧
  (∀ s : State, s.phase = .uninit → exec .drst s = .next (s.answer ⟨.error .phase, 0⟩)) ∧
  (∀ s : State, s.phase = .built →
    exec .drst s = .next { s with cur := s.root, rsp := some ⟨.ok, 0⟩ })

/-- R112, R122: what DECODE tests before it runs, in order: the phase, then the range, with 8·BYTELEN
as the bound; on either error nothing changes. -/
def Obligations.DecodeTestsPhaseThenRange : Prop :=
  (∀ d : Word32, decode (packFields 0x39 0 d) = .ok (.decode d)) ∧
  (∀ (a : OperandA) (d : Word32), a ≠ 0 → IsIllegal (packFields 0x39 a d)) ∧
  (∀ (d : Word32) (s : State), s.phase = .uninit →
    exec (.decode d) s = .next (s.answer ⟨.error .phase, 0⟩)) ∧
  (∀ (d : Word32) (s : State), s.phase = .built → 8 * s.bytelen < d.toNat →
    exec (.decode d) s = .next (s.answer ⟨.error .range, BitVec.ofNat 32 (8 * s.bytelen)⟩))

/-- R112 with 10_state.md R28: when the first `d` stream bits are the codes of a text that fits SYMBUF,
DECODE `d` answers the number of symbols and SYMBUF holds the text; the stream is unchanged. The
symbol cells past the text, which are not valid, keep what they hold (notes/assumptions/8.md). -/
def Obligations.DecodeReadsTheCodesBack : Prop :=
  ∀ (s : State) (d : Word32) (text : List Symbol), s.Inv → s.phase = .built →
    (∀ a ∈ text, s.codeAt a ≠ []) → text.length ≤ s.params.symCap →
    d.toNat ≤ 8 * s.bytelen → s.streamBits 0 d.toNat = s.codesOf text →
    ∃ t, exec (.decode d) s = .next t ∧ t.rsp = some ⟨.ok, t.symlen⟩ ∧
      t.symlen.toNat = text.length ∧ t.symbols = text ∧ t.cur = s.root ∧
      (∀ j, text.length ≤ j → t.symbuf.read j = s.symbuf.read j) ∧
      t = { s with symbuf := t.symbuf, symlen := t.symlen, cur := t.cur, rsp := t.rsp }

/-- R115: when the bits end inside a code, DECODE answers E_TRUNC with the position where that code
starts, no symbol is returned and the walker is at the root; with at most one symbol in the tree
E_TRUNC cannot occur. What the cells that are not valid hold is the model's choice
(notes/assumptions/8.md). -/
def Obligations.DecodeReportsATruncatedStream : Prop :=
  (∀ (s : State) (d : Word32) (text : List Symbol) (x : Symbol) (part : List Bool),
    s.Inv → s.phase = .built → (∀ a ∈ text, s.codeAt a ≠ []) → text.length ≤ s.params.symCap →
    part ≠ [] → part <+: s.codeAt x → part ≠ s.codeAt x →
    d.toNat ≤ 8 * s.bytelen → s.streamBits 0 d.toNat = s.codesOf text ++ part →
    ∃ t, exec (.decode d) s = .next t ∧
      t.rsp = some ⟨.error .trunc, BitVec.ofNat 32 (s.codesOf text).length⟩ ∧
      t.symlen = 0 ∧ t.cur = s.root ∧
      (∀ j, text.length ≤ j → t.symbuf.read j = s.symbuf.read j) ∧
      t = { s with symbuf := t.symbuf, symlen := t.symlen, cur := t.cur, rsp := t.rsp }) ∧
  (∀ (s t : State) (d info : Word32), s.Inv → s.phase = .built → s.nsyms.toNat ≤ 1 →
    exec (.decode d) s = .next t → t.rsp ≠ some ⟨.error .trunc, info⟩)

/-- R116: DECODE 0 answers OK 0 for any tree; with the empty tree the first bit is E_BADCODE 0; with
the single-leaf tree each 0 is one symbol and the first 1 is E_BADCODE with its position. That SYMBUF,
none of whose cells is valid after the first two, keeps what it holds is the model's choice
(notes/assumptions/8.md). -/
def Obligations.DecodeOfEmptyAndSingleLeafTrees : Prop :=
  (∀ s : State, s.phase = .built →
    exec (.decode 0) s = .next { s with symlen := 0, cur := s.root, rsp := some ⟨.ok, 0⟩ }) ∧
  (∀ (s : State) (d : Word32), s.Inv → s.phase = .built → s.nsyms = 0 → d ≠ 0 →
    d.toNat ≤ 8 * s.bytelen →
    exec (.decode d) s =
      .next { s with symlen := 0, cur := s.root, rsp := some ⟨.error .badcode, 0⟩ }) ∧
  (∀ (s : State) (d : Word32), s.Inv → s.phase = .built → s.nsyms = 1 →
    d.toNat ≤ 8 * s.bytelen → d.toNat ≤ s.params.symCap →
    (∀ i, i < d.toNat → s.streamBit i = false) →
    ∃ t, exec (.decode d) s = .next t ∧ t.rsp = some ⟨.ok, d⟩ ∧
      t.symbols = List.replicate d.toNat (s.nodeAt s.root.toNat).sym) ∧
  (∀ (s : State) (d : Word32) (i : Nat), s.Inv → s.phase = .built → s.nsyms = 1 →
    d.toNat ≤ 8 * s.bytelen → i < d.toNat → i ≤ s.params.symCap →
    (∀ j, j < i → s.streamBit j = false) → s.streamBit i = true →
    ∃ t, exec (.decode d) s = .next t ∧
      t.rsp = some ⟨.error .badcode, BitVec.ofNat 32 i⟩ ∧ t.symlen = 0 ∧ t.cur = s.root)

/-- R112, R119: when one symbol more than SYMBUF holds is complete, DECODE answers E_OVERFLOW with the
position of that symbol's last bit, and the output is empty. -/
def Obligations.DecodeReportsAFullSymbolBuffer : Prop :=
  ∀ (s : State) (d : Word32) (text : List Symbol) (rest : List Bool), s.Inv → s.phase = .built →
    (∀ a ∈ text, s.codeAt a ≠ []) → text.length = s.params.symCap + 1 →
    d.toNat ≤ 8 * s.bytelen → s.streamBits 0 d.toNat = s.codesOf text ++ rest →
    ∃ t, exec (.decode d) s = .next t ∧
      t.rsp = some ⟨.error .overflow, BitVec.ofNat 32 ((s.codesOf text).length - 1)⟩ ∧
      t.symlen = 0 ∧ t.cur = s.root ∧
      t = { s with symbuf := t.symbuf, symlen := t.symlen, cur := t.cur, rsp := t.rsp }

/-- R117 in every state that meets the invariant: what ENCODE answers OK for, DECODE with that answer
gives back. -/
def Obligations.DecodeUndoesEncode : Prop :=
  ∀ (s t : State) (n : Word32), s.Inv → exec .encode s = .next t → t.rsp = some ⟨.ok, n⟩ →
    ∃ u, exec (.decode n) t = .next u ∧ u.rsp = some ⟨.ok, s.symlen⟩ ∧ u.symbols = s.symbols

/-- R117, the round-trip law: from reset, load a text, count, build and encode; then the same instance,
and every instance given the same counts and the same bytes, decodes the text. ENCODE answers OK unless
the stream does not fit. -/
def Obligations.RoundTripFromReset : Prop :=
  ∀ (p : Params) (text : List Symbol), text.length ≤ p.symCap →
    ∃ (built t : State),
      runAll (text.map .wsym ++ [.fcount, .build]) (State.resetFor p) = .next built ∧
      exec .encode built = .next t ∧
      ((built.codesOf text).length ≤ 8 * p.byteCap → ∃ n, t.rsp = some ⟨.ok, n⟩) ∧
      ∀ n : Word32, t.rsp = some ⟨.ok, n⟩ →
        (∃ u, exec (.decode n) t = .next u ∧
          u.rsp = some ⟨.ok, BitVec.ofNat 32 text.length⟩ ∧ u.symbols = text) ∧
        (text = [] → n = 0 ∧ t.bytes = []) ∧
        ∀ q : Params, text.length ≤ q.symCap → t.bytelen ≤ q.byteCap →
          ∃ u, runAll (allSymbols.map (fun a => .fset a (t.freqAt a)) ++ [.build] ++
              t.bytes.map .wbyte ++ [.decode n]) (State.resetFor q) = .next u ∧
            u.rsp = some ⟨.ok, BitVec.ofNat 32 text.length⟩ ∧ u.symbols = text
end

