-- ==== Sys2Proof/Laws/Cells.lean ====
section
/-! SUPPORT. Laws of the local memories: read after write, the canonical form is kept, and a memory in
canonical form is determined by what its cells read as. -/

namespace Sys2Proof.Machine

variable {α : Type} [DecidableEq α] {u v : α} {l m : Cells α} {i j : Nat}

omit [DecidableEq α] in
@[simp] theorem readCell_nil : readCell u [] i = u := rfl

omit [DecidableEq α] in
theorem readCell_filter_ne :
    readCell u (l.filter (fun c => c.1 ≠ i)) j = if j = i then u else readCell u l j := by
  induction l with
  | nil => simp [readCell]
  | cons c rest ih =>
    by_cases hc : c.1 = i
    · simp only [List.filter_cons, hc, ne_eq, not_true_eq_false, decide_false, Bool.false_eq_true,
        if_false]
      rw [ih]
      by_cases hj : j = i
      · simp [hj]
      · have : ¬ i = j := fun h => hj h.symm
        simp [hj, readCell, hc, this]
    · simp only [List.filter_cons, ne_eq, hc, not_false_eq_true, decide_true, if_true, readCell]
      by_cases hcj : c.1 = j
      · have : j ≠ i := by omega
        simp [hcj, this]
      · simp only [hcj, if_false]
        exact ih

omit [DecidableEq α] in
theorem readCell_insertCell (h : ∀ c ∈ l, c.1 ≠ i) :
    readCell u (insertCell i v l) j = if j = i then v else readCell u l j := by
  induction l with
  | nil =>
    by_cases hj : j = i
    · simp [insertCell, readCell, hj]
    · have : ¬ i = j := fun h => hj h.symm
      simp [insertCell, readCell, hj, this]
  | cons c rest ih =>
    have hc : c.1 ≠ i := h c (by simp)
    have ih := ih (fun d hd => h d (by simp [hd]))
    simp only [insertCell]
    split
    · by_cases hj : j = i
      · simp [readCell, hj]
      · have : ¬ i = j := fun h => hj h.symm
        simp [readCell, hj, this]
    · simp only [readCell]
      by_cases hcj : c.1 = j
      · have : j ≠ i := by omega
        simp [hcj, this]
      · simp only [hcj, if_false]
        exact ih

omit [DecidableEq α] in
theorem filter_ne_index (c : Nat × α) (h : c ∈ l.filter (fun c => c.1 ≠ i)) : c.1 ≠ i := by
  simpa using (List.mem_filter.mp h).2

/-- Read after write, in one equation. -/
theorem readCell_writeCell :
    readCell u (writeCell u l i v) j = if j = i then v else readCell u l j := by
  unfold writeCell
  by_cases hv : v = u
  · simp only [hv, if_true]
    exact readCell_filter_ne
  · simp only [hv, if_false]
    rw [readCell_insertCell (fun c hc => filter_ne_index c hc), readCell_filter_ne]
    by_cases hj : j = i <;> simp [hj]

@[simp] theorem readCell_writeCell_same : readCell u (writeCell u l i v) i = v := by
  simp [readCell_writeCell]

theorem readCell_writeCell_other (h : j ≠ i) :
    readCell u (writeCell u l i v) j = readCell u l j := by
  simp [readCell_writeCell, h]

omit [DecidableEq α] in
/-- A write adds no entry but the one written. -/
theorem mem_insertCell {c : Nat × α} (h : c ∈ insertCell i v l) : c ∈ l ∨ c = (i, v) := by
  induction l with
  | nil => simpa [insertCell] using h
  | cons d rest ih =>
    simp only [insertCell] at h
    split at h
    · simpa [or_comm] using h
    · rcases List.mem_cons.mp h with h | h
      · exact .inl (by simp [h])
      · exact (ih h).imp (fun h => by simp [h]) id

theorem mem_writeCell {c : Nat × α} (h : c ∈ writeCell u l i v) : c ∈ l ∨ c = (i, v) := by
  unfold writeCell at h
  split at h
  · exact .inl (List.mem_filter.mp h).1
  · exact (mem_insertCell h).imp (fun h => (List.mem_filter.mp h).1) id

/-- A bound on the listed indices survives a write inside it. -/
theorem writeCell_index_lt {n : Nat} (hl : ∀ c ∈ l, c.1 < n) (hi : i < n) :
    ∀ c ∈ writeCell u l i v, c.1 < n := by
  intro c hc
  rcases mem_writeCell hc with h | h
  · exact hl c h
  · simpa [h] using hi

theorem cellsWf_cons {c : Nat × α} :
    cellsWf u (c :: l) = true ↔ c.2 ≠ u ∧ (∀ d ∈ l, c.1 < d.1) ∧ cellsWf u l = true := by
  simp [cellsWf, and_assoc]

theorem cellsWf_filter (h : cellsWf u l = true) (p : Nat × α → Bool) :
    cellsWf u (l.filter p) = true := by
  induction l with
  | nil => rfl
  | cons c rest ih =>
    obtain ⟨h1, h2, h3⟩ := cellsWf_cons.mp h
    simp only [List.filter_cons]
    split
    · exact cellsWf_cons.mpr ⟨h1, fun d hd => h2 d (List.mem_filter.mp hd).1, ih h3⟩
    · exact ih h3

theorem cellsWf_insertCell (h : cellsWf u l = true) (hi : ∀ c ∈ l, c.1 ≠ i) (hv : v ≠ u) :
    cellsWf u (insertCell i v l) = true := by
  induction l with
  | nil => simp [insertCell, cellsWf, hv]
  | cons c rest ih =>
    obtain ⟨h1, h2, h3⟩ := cellsWf_cons.mp h
    have hc : c.1 ≠ i := hi c (by simp)
    simp only [insertCell]
    split
    · rename_i hlt
      refine cellsWf_cons.mpr ⟨hv, ?_, h⟩
      intro d hd
      rcases List.mem_cons.mp hd with hd | hd
      · simpa [hd] using hlt
      · exact Nat.lt_trans hlt (h2 d hd)
    · refine cellsWf_cons.mpr ⟨h1, ?_, ih h3 (fun d hd => hi d (by simp [hd]))⟩
      intro d hd
      rcases mem_insertCell hd with hd | hd
      · exact h2 d hd
      · simp only [hd]; omega

/-- Every write keeps the canonical form. -/
theorem cellsWf_writeCell (h : cellsWf u l = true) : cellsWf u (writeCell u l i v) = true := by
  unfold writeCell
  split
  · exact cellsWf_filter h _
  · rename_i hv
    exact cellsWf_insertCell (cellsWf_filter h _) (fun c hc => filter_ne_index c hc) hv

omit [DecidableEq α] in
theorem readCell_of_lt (h : ∀ c ∈ l, i < c.1) : readCell u l i = u := by
  induction l with
  | nil => rfl
  | cons c rest ih =>
    have : ¬ c.1 = i := by have := h c (by simp); omega
    simp only [readCell, this, if_false]
    exact ih (fun d hd => h d (by simp [hd]))

/-- Memories in canonical form that read alike everywhere are equal. -/
theorem cells_ext (hl : cellsWf u l = true) (hm : cellsWf u m = true)
    (h : ∀ i, readCell u l i = readCell u m i) : l = m := by
  induction l generalizing m with
  | nil =>
    cases m with
    | nil => rfl
    | cons c rest =>
      have := h c.1
      simp only [readCell] at this
      exact absurd this.symm (by simpa using (cellsWf_cons.mp hm).1)
  | cons c rest ih =>
    obtain ⟨h1, h2, h3⟩ := cellsWf_cons.mp hl
    cases m with
    | nil =>
      have := h c.1
      simp only [readCell] at this
      exact absurd this (by simpa using h1)
    | cons d more =>
      obtain ⟨g1, g2, g3⟩ := cellsWf_cons.mp hm
      have hcd : c.1 = d.1 := by
        rcases Nat.lt_trichotomy c.1 d.1 with hlt | heq | hgt
        · have hc := h c.1
          rw [readCell_of_lt (l := d :: more) (by
            intro e he
            rcases List.mem_cons.mp he with he | he
            · simpa [he] using hlt
            · exact Nat.lt_trans hlt (g2 e he))] at hc
          simp only [readCell] at hc
          exact absurd hc (by simpa using h1)
        · exact heq
        · have hd := h d.1
          rw [readCell_of_lt (l := c :: rest) (by
            intro e he
            rcases List.mem_cons.mp he with he | he
            · simpa [he] using hgt
            · exact Nat.lt_trans hgt (h2 e he))] at hd
          simp only [readCell] at hd
          exact absurd hd.symm (by simpa using g1)
      have hv : c.2 = d.2 := by
        have := h c.1
        simpa [readCell, hcd] using this
      have hrest : rest = more := by
        refine ih h3 g3 (fun i => ?_)
        by_cases hi : c.1 = i
        · rw [readCell_of_lt (by intro e he; have := h2 e he; omega),
            readCell_of_lt (by intro e he; have := g2 e he; omega)]
        · have := h i
          have hi' : ¬ d.1 = i := by omega
          simpa [readCell, hi, hi'] using this
      rw [hrest, show c = d from Prod.ext hcd hv]

/-! ### The byte memories -/

@[simp] theorem Memory.read_write_same (m : Memory) (i : Nat) (b : Byte) :
    (m.write i b).read i = b := readCell_writeCell_same

theorem Memory.read_write (m : Memory) (i j : Nat) (b : Byte) :
    (m.write i b).read j = if j = i then b else m.read j := readCell_writeCell

theorem Memory.read_write_other (m : Memory) {i j : Nat} (b : Byte) (h : j ≠ i) :
    (m.write i b).read j = m.read j := readCell_writeCell_other h

theorem Memory.wf_write {m : Memory} (h : m.wf = true) (i : Nat) (b : Byte) :
    (m.write i b).wf = true := cellsWf_writeCell h

theorem Memory.wf_nil : Memory.wf [] = true := rfl

/-! ### Tables filled entry by entry -/

/-- Storing a run of entries: each of them reads back, every other entry is unchanged. -/
theorem readCell_storeNodes (nodes : List Node) (k : Nat) (t : Cells Node) (i : Nat) :
    readCell Node.unlisted (storeNodes k nodes t) i =
      if k ≤ i ∧ i < k + nodes.length then nodes.getD (i - k) Node.unlisted
      else readCell Node.unlisted t i := by
  induction nodes generalizing k t with
  | nil =>
    have : ¬ (k ≤ i ∧ i < k) := by omega
    simp [storeNodes, this]
  | cons n rest ih =>
    simp only [storeNodes]
    rw [ih, readCell_writeCell]
    by_cases hik : i = k
    · subst hik
      simp
    · by_cases h : k ≤ i ∧ i < k + (n :: rest).length
      · have h1 : k + 1 ≤ i ∧ i < k + 1 + rest.length := by
          simp only [List.length_cons] at h; omega
        rw [if_pos h1, if_pos h, show i - k = (i - (k + 1)) + 1 by omega]
        rfl
      · have h1 : ¬ (k + 1 ≤ i ∧ i < k + 1 + rest.length) := by
          simp only [List.length_cons] at h; omega
        rw [if_neg h1, if_neg h, if_neg hik]

theorem cellsWf_storeNodes (nodes : List Node) (k : Nat) (t : Cells Node)
    (h : cellsWf Node.unlisted t = true) :
    cellsWf Node.unlisted (storeNodes k nodes t) = true := by
  induction nodes generalizing k t with
  | nil => exact h
  | cons n rest ih => exact ih (k + 1) _ (cellsWf_writeCell h)

end Sys2Proof.Machine
end

