-- ==== Sys2Proof/Laws/Encoding.lean ====
section
/-! SUPPORT. Laws of the command word: its fields, and the masks of the four formats
(spec/30_encoding.md R56, R57). -/

namespace Sys2Proof

@[simp] theorem opField_packFields (op : BitVec 8) (a : OperandA) (d : Word32) :
    opField (packFields op a d) = op := by
  apply BitVec.eq_of_getLsbD_eq
  intro i hi
  have h1 : ¬ 40 + i < 32 := by omega
  have h2 : ¬ 40 + i - 32 < 8 := by omega
  have h3 : 40 + i - 32 - 8 = i := by omega
  simp only [opField, packFields, BitVec.getLsbD_extractLsb', BitVec.getLsbD_append]
  simp [hi, h1, h2, h3]

@[simp] theorem aField_packFields (op : BitVec 8) (a : OperandA) (d : Word32) :
    aField (packFields op a d) = a := by
  apply BitVec.eq_of_getLsbD_eq
  intro i hi
  have h1 : ¬ 32 + i < 32 := by omega
  have h3 : 32 + i - 32 = i := by omega
  simp only [aField, packFields, BitVec.getLsbD_extractLsb', BitVec.getLsbD_append]
  simp [hi, h1, h3]

@[simp] theorem dField_packFields (op : BitVec 8) (a : OperandA) (d : Word32) :
    dField (packFields op a d) = d := by
  apply BitVec.eq_of_getLsbD_eq
  intro i hi
  simp only [dField, packFields, BitVec.getLsbD_extractLsb', BitVec.getLsbD_append]
  simp [hi]

/-- A word is its three fields. -/
theorem packFields_fields (w : CmdWord) : packFields (opField w) (aField w) (dField w) = w := by
  apply BitVec.eq_of_getLsbD_eq
  intro i hi
  simp only [packFields, opField, aField, dField, BitVec.getLsbD_append,
    BitVec.getLsbD_extractLsb']
  by_cases h1 : i < 32
  · simp [h1]
  · by_cases h2 : i - 32 < 8
    · simp [h1, h2, show 32 + (i - 32) = i by omega]
    · simp [h1, h2, show i - 32 - 8 < 8 by omega, show 40 + (i - 32 - 8) = i by omega]

@[simp] theorem decode_packFields (op : BitVec 8) (a : OperandA) (d : Word32) :
    decode (packFields op a d) = decodeFields op a d := by
  simp [decode]

/-! ### The masks -/

namespace Machine

theorem packFields_and_maskAD (op : BitVec 8) (a : OperandA) (d : Word32) :
    packFields op a d &&& maskAD = op.setWidth 48 <<< 40 := by
  apply BitVec.eq_of_getLsbD_eq
  intro i hi
  simp only [packFields, maskAD, BitVec.getLsbD_and, BitVec.getLsbD_append,
    BitVec.getLsbD_shiftLeft, BitVec.getLsbD_setWidth]
  interval_cases i <;> simp [BitVec.getLsbD] <;> (intro _; decide)

theorem packFields_and_maskA (op : BitVec 8) (a : OperandA) :
    packFields op a 0 &&& maskA = op.setWidth 48 <<< 40 := by
  apply BitVec.eq_of_getLsbD_eq
  intro i hi
  simp only [packFields, maskA, BitVec.getLsbD_and, BitVec.getLsbD_append,
    BitVec.getLsbD_shiftLeft, BitVec.getLsbD_setWidth]
  interval_cases i <;> simp [BitVec.getLsbD] <;> (intro _; decide)

theorem packFields_and_maskD (op : BitVec 8) (d : Word32) :
    packFields op 0 d &&& maskD = op.setWidth 48 <<< 40 := by
  apply BitVec.eq_of_getLsbD_eq
  intro i hi
  simp only [packFields, maskD, BitVec.getLsbD_and, BitVec.getLsbD_append,
    BitVec.getLsbD_shiftLeft, BitVec.getLsbD_setWidth]
  interval_cases i <;> simp [BitVec.getLsbD] <;> (intro _; decide)

theorem packFields_and_maskN (op : BitVec 8) :
    packFields op 0 0 &&& maskN = op.setWidth 48 <<< 40 := by
  apply BitVec.eq_of_getLsbD_eq
  intro i hi
  simp only [packFields, maskN, BitVec.getLsbD_and, BitVec.getLsbD_append,
    BitVec.getLsbD_shiftLeft, BitVec.getLsbD_setWidth]
  interval_cases i <;> simp [BitVec.getLsbD] <;> (intro _; decide)

end Machine

end Sys2Proof
end

