-- ==== Sys2Proof/Laws/State.lean ====
section
/-! SUPPORT. One lemma per field and named update of State, so that no later proof unfolds a record
update. -/

namespace Sys2Proof.Machine

variable (s : State)

/-! ### answer -/

@[simp] theorem State.answer_params (r : Response) : (s.answer r).params = s.params := rfl
@[simp] theorem State.answer_phase (r : Response) : (s.answer r).phase = s.phase := rfl
@[simp] theorem State.answer_symlen (r : Response) : (s.answer r).symlen = s.symlen := rfl
@[simp] theorem State.answer_bitlen (r : Response) : (s.answer r).bitlen = s.bitlen := rfl
@[simp] theorem State.answer_nsyms (r : Response) : (s.answer r).nsyms = s.nsyms := rfl
@[simp] theorem State.answer_nnodes (r : Response) : (s.answer r).nnodes = s.nnodes := rfl
@[simp] theorem State.answer_root (r : Response) : (s.answer r).root = s.root := rfl
@[simp] theorem State.answer_cur (r : Response) : (s.answer r).cur = s.cur := rfl
@[simp] theorem State.answer_freq (r : Response) : (s.answer r).freq = s.freq := rfl
@[simp] theorem State.answer_node (r : Response) : (s.answer r).node = s.node := rfl
@[simp] theorem State.answer_code (r : Response) : (s.answer r).code = s.code := rfl
@[simp] theorem State.answer_symbuf (r : Response) : (s.answer r).symbuf = s.symbuf := rfl
@[simp] theorem State.answer_bytebuf (r : Response) : (s.answer r).bytebuf = s.bytebuf := rfl
@[simp] theorem State.answer_rsp (r : Response) : (s.answer r).rsp = some r := rfl
@[simp] theorem State.answer_inputs (r : Response) : (s.answer r).inputs = s.inputs := rfl

/-! ### pushSymbol -/

@[simp] theorem State.pushSymbol_params (a : Symbol) : (s.pushSymbol a).params = s.params := rfl
@[simp] theorem State.pushSymbol_phase (a : Symbol) : (s.pushSymbol a).phase = s.phase := rfl
@[simp] theorem State.pushSymbol_symlen (a : Symbol) : (s.pushSymbol a).symlen = BitVec.ofNat 32 (s.symlen.toNat + 1) := rfl
@[simp] theorem State.pushSymbol_bitlen (a : Symbol) : (s.pushSymbol a).bitlen = s.bitlen := rfl
@[simp] theorem State.pushSymbol_nsyms (a : Symbol) : (s.pushSymbol a).nsyms = s.nsyms := rfl
@[simp] theorem State.pushSymbol_nnodes (a : Symbol) : (s.pushSymbol a).nnodes = s.nnodes := rfl
@[simp] theorem State.pushSymbol_root (a : Symbol) : (s.pushSymbol a).root = s.root := rfl
@[simp] theorem State.pushSymbol_cur (a : Symbol) : (s.pushSymbol a).cur = s.cur := rfl
@[simp] theorem State.pushSymbol_freq (a : Symbol) : (s.pushSymbol a).freq = s.freq := rfl
@[simp] theorem State.pushSymbol_node (a : Symbol) : (s.pushSymbol a).node = s.node := rfl
@[simp] theorem State.pushSymbol_code (a : Symbol) : (s.pushSymbol a).code = s.code := rfl
@[simp] theorem State.pushSymbol_symbuf (a : Symbol) : (s.pushSymbol a).symbuf = s.symbuf.write s.symlen.toNat a := rfl
@[simp] theorem State.pushSymbol_bytebuf (a : Symbol) : (s.pushSymbol a).bytebuf = s.bytebuf := rfl
@[simp] theorem State.pushSymbol_rsp (a : Symbol) : (s.pushSymbol a).rsp = s.rsp := rfl
@[simp] theorem State.pushSymbol_inputs (a : Symbol) : (s.pushSymbol a).inputs = s.inputs := rfl

/-! ### emptySymbols -/

@[simp] theorem State.emptySymbols_params : s.emptySymbols.params = s.params := rfl
@[simp] theorem State.emptySymbols_phase : s.emptySymbols.phase = s.phase := rfl
@[simp] theorem State.emptySymbols_symlen : s.emptySymbols.symlen = 0 := rfl
@[simp] theorem State.emptySymbols_bitlen : s.emptySymbols.bitlen = s.bitlen := rfl
@[simp] theorem State.emptySymbols_nsyms : s.emptySymbols.nsyms = s.nsyms := rfl
@[simp] theorem State.emptySymbols_nnodes : s.emptySymbols.nnodes = s.nnodes := rfl
@[simp] theorem State.emptySymbols_root : s.emptySymbols.root = s.root := rfl
@[simp] theorem State.emptySymbols_cur : s.emptySymbols.cur = s.cur := rfl
@[simp] theorem State.emptySymbols_freq : s.emptySymbols.freq = s.freq := rfl
@[simp] theorem State.emptySymbols_node : s.emptySymbols.node = s.node := rfl
@[simp] theorem State.emptySymbols_code : s.emptySymbols.code = s.code := rfl
@[simp] theorem State.emptySymbols_symbuf : s.emptySymbols.symbuf = s.symbuf := rfl
@[simp] theorem State.emptySymbols_bytebuf : s.emptySymbols.bytebuf = s.bytebuf := rfl
@[simp] theorem State.emptySymbols_rsp : s.emptySymbols.rsp = s.rsp := rfl
@[simp] theorem State.emptySymbols_inputs : s.emptySymbols.inputs = s.inputs := rfl

/-! ### emptyStream -/

@[simp] theorem State.emptyStream_params : s.emptyStream.params = s.params := rfl
@[simp] theorem State.emptyStream_phase : s.emptyStream.phase = s.phase := rfl
@[simp] theorem State.emptyStream_symlen : s.emptyStream.symlen = s.symlen := rfl
@[simp] theorem State.emptyStream_bitlen : s.emptyStream.bitlen = 0 := rfl
@[simp] theorem State.emptyStream_nsyms : s.emptyStream.nsyms = s.nsyms := rfl
@[simp] theorem State.emptyStream_nnodes : s.emptyStream.nnodes = s.nnodes := rfl
@[simp] theorem State.emptyStream_root : s.emptyStream.root = s.root := rfl
@[simp] theorem State.emptyStream_cur : s.emptyStream.cur = s.cur := rfl
@[simp] theorem State.emptyStream_freq : s.emptyStream.freq = s.freq := rfl
@[simp] theorem State.emptyStream_node : s.emptyStream.node = s.node := rfl
@[simp] theorem State.emptyStream_code : s.emptyStream.code = s.code := rfl
@[simp] theorem State.emptyStream_symbuf : s.emptyStream.symbuf = s.symbuf := rfl
@[simp] theorem State.emptyStream_bytebuf : s.emptyStream.bytebuf = s.bytebuf := rfl
@[simp] theorem State.emptyStream_rsp : s.emptyStream.rsp = s.rsp := rfl
@[simp] theorem State.emptyStream_inputs : s.emptyStream.inputs = s.inputs := rfl

/-! ### appendBit -/

@[simp] theorem State.appendBit_params (b : Bool) : (s.appendBit b).params = s.params := rfl
@[simp] theorem State.appendBit_phase (b : Bool) : (s.appendBit b).phase = s.phase := rfl
@[simp] theorem State.appendBit_symlen (b : Bool) : (s.appendBit b).symlen = s.symlen := rfl
@[simp] theorem State.appendBit_bitlen (b : Bool) : (s.appendBit b).bitlen = BitVec.ofNat 32 (s.bitlen.toNat + 1) := rfl
@[simp] theorem State.appendBit_nsyms (b : Bool) : (s.appendBit b).nsyms = s.nsyms := rfl
@[simp] theorem State.appendBit_nnodes (b : Bool) : (s.appendBit b).nnodes = s.nnodes := rfl
@[simp] theorem State.appendBit_root (b : Bool) : (s.appendBit b).root = s.root := rfl
@[simp] theorem State.appendBit_cur (b : Bool) : (s.appendBit b).cur = s.cur := rfl
@[simp] theorem State.appendBit_freq (b : Bool) : (s.appendBit b).freq = s.freq := rfl
@[simp] theorem State.appendBit_node (b : Bool) : (s.appendBit b).node = s.node := rfl
@[simp] theorem State.appendBit_code (b : Bool) : (s.appendBit b).code = s.code := rfl
@[simp] theorem State.appendBit_symbuf (b : Bool) : (s.appendBit b).symbuf = s.symbuf := rfl
@[simp] theorem State.appendBit_rsp (b : Bool) : (s.appendBit b).rsp = s.rsp := rfl
@[simp] theorem State.appendBit_inputs (b : Bool) : (s.appendBit b).inputs = s.inputs := rfl

/-! ### setCur -/

@[simp] theorem State.setCur_params (i : NodeIdx) : (s.setCur i).params = s.params := rfl
@[simp] theorem State.setCur_phase (i : NodeIdx) : (s.setCur i).phase = s.phase := rfl
@[simp] theorem State.setCur_symlen (i : NodeIdx) : (s.setCur i).symlen = s.symlen := rfl
@[simp] theorem State.setCur_bitlen (i : NodeIdx) : (s.setCur i).bitlen = s.bitlen := rfl
@[simp] theorem State.setCur_nsyms (i : NodeIdx) : (s.setCur i).nsyms = s.nsyms := rfl
@[simp] theorem State.setCur_nnodes (i : NodeIdx) : (s.setCur i).nnodes = s.nnodes := rfl
@[simp] theorem State.setCur_root (i : NodeIdx) : (s.setCur i).root = s.root := rfl
@[simp] theorem State.setCur_cur (i : NodeIdx) : (s.setCur i).cur = i := rfl
@[simp] theorem State.setCur_freq (i : NodeIdx) : (s.setCur i).freq = s.freq := rfl
@[simp] theorem State.setCur_node (i : NodeIdx) : (s.setCur i).node = s.node := rfl
@[simp] theorem State.setCur_code (i : NodeIdx) : (s.setCur i).code = s.code := rfl
@[simp] theorem State.setCur_symbuf (i : NodeIdx) : (s.setCur i).symbuf = s.symbuf := rfl
@[simp] theorem State.setCur_bytebuf (i : NodeIdx) : (s.setCur i).bytebuf = s.bytebuf := rfl
@[simp] theorem State.setCur_rsp (i : NodeIdx) : (s.setCur i).rsp = s.rsp := rfl
@[simp] theorem State.setCur_inputs (i : NodeIdx) : (s.setCur i).inputs = s.inputs := rfl

/-! ### emptyOutput -/

@[simp] theorem State.emptyOutput_params : s.emptyOutput.params = s.params := rfl
@[simp] theorem State.emptyOutput_phase : s.emptyOutput.phase = s.phase := rfl
@[simp] theorem State.emptyOutput_symlen : s.emptyOutput.symlen = 0 := rfl
@[simp] theorem State.emptyOutput_bitlen : s.emptyOutput.bitlen = s.bitlen := rfl
@[simp] theorem State.emptyOutput_nsyms : s.emptyOutput.nsyms = s.nsyms := rfl
@[simp] theorem State.emptyOutput_nnodes : s.emptyOutput.nnodes = s.nnodes := rfl
@[simp] theorem State.emptyOutput_root : s.emptyOutput.root = s.root := rfl
@[simp] theorem State.emptyOutput_cur : s.emptyOutput.cur = s.root := rfl
@[simp] theorem State.emptyOutput_freq : s.emptyOutput.freq = s.freq := rfl
@[simp] theorem State.emptyOutput_node : s.emptyOutput.node = s.node := rfl
@[simp] theorem State.emptyOutput_code : s.emptyOutput.code = s.code := rfl
@[simp] theorem State.emptyOutput_symbuf : s.emptyOutput.symbuf = s.symbuf := rfl
@[simp] theorem State.emptyOutput_bytebuf : s.emptyOutput.bytebuf = s.bytebuf := rfl
@[simp] theorem State.emptyOutput_rsp : s.emptyOutput.rsp = s.rsp := rfl
@[simp] theorem State.emptyOutput_inputs : s.emptyOutput.inputs = s.inputs := rfl

/-! ### clear -/

@[simp] theorem State.clear_params : s.clear.params = s.params := rfl
@[simp] theorem State.clear_phase : s.clear.phase = .uninit := rfl
@[simp] theorem State.clear_symlen : s.clear.symlen = 0 := rfl
@[simp] theorem State.clear_bitlen : s.clear.bitlen = 0 := rfl
@[simp] theorem State.clear_nsyms : s.clear.nsyms = 0 := rfl
@[simp] theorem State.clear_nnodes : s.clear.nnodes = 0 := rfl
@[simp] theorem State.clear_root : s.clear.root = NIL := rfl
@[simp] theorem State.clear_cur : s.clear.cur = NIL := rfl
@[simp] theorem State.clear_freq : s.clear.freq = [] := rfl
@[simp] theorem State.clear_node : s.clear.node = s.node := rfl
@[simp] theorem State.clear_code : s.clear.code = [] := rfl
@[simp] theorem State.clear_symbuf : s.clear.symbuf = s.symbuf := rfl
@[simp] theorem State.clear_bytebuf : s.clear.bytebuf = s.bytebuf := rfl
@[simp] theorem State.clear_rsp : s.clear.rsp = s.rsp := rfl
@[simp] theorem State.clear_inputs : s.clear.inputs = s.inputs := rfl

/-! ### build -/

@[simp] theorem State.build_params : s.build.params = s.params := rfl
@[simp] theorem State.build_phase : s.build.phase = .built := rfl
@[simp] theorem State.build_symlen : s.build.symlen = s.symlen := rfl
@[simp] theorem State.build_bitlen : s.build.bitlen = s.bitlen := rfl
@[simp] theorem State.build_cur : s.build.cur = s.build.root := rfl
@[simp] theorem State.build_freq : s.build.freq = s.freq := rfl
@[simp] theorem State.build_symbuf : s.build.symbuf = s.symbuf := rfl
@[simp] theorem State.build_bytebuf : s.build.bytebuf = s.bytebuf := rfl
@[simp] theorem State.build_rsp : s.build.rsp = s.rsp := rfl
@[simp] theorem State.build_inputs : s.build.inputs = s.inputs := rfl

/-! ### takeEvent -/

@[simp] theorem State.takeEvent_params (rest : List HostEvent) : (s.takeEvent rest).params = s.params := rfl
@[simp] theorem State.takeEvent_phase (rest : List HostEvent) : (s.takeEvent rest).phase = s.phase := rfl
@[simp] theorem State.takeEvent_symlen (rest : List HostEvent) : (s.takeEvent rest).symlen = s.symlen := rfl
@[simp] theorem State.takeEvent_bitlen (rest : List HostEvent) : (s.takeEvent rest).bitlen = s.bitlen := rfl
@[simp] theorem State.takeEvent_nsyms (rest : List HostEvent) : (s.takeEvent rest).nsyms = s.nsyms := rfl
@[simp] theorem State.takeEvent_nnodes (rest : List HostEvent) : (s.takeEvent rest).nnodes = s.nnodes := rfl
@[simp] theorem State.takeEvent_root (rest : List HostEvent) : (s.takeEvent rest).root = s.root := rfl
@[simp] theorem State.takeEvent_cur (rest : List HostEvent) : (s.takeEvent rest).cur = s.cur := rfl
@[simp] theorem State.takeEvent_freq (rest : List HostEvent) : (s.takeEvent rest).freq = s.freq := rfl
@[simp] theorem State.takeEvent_node (rest : List HostEvent) : (s.takeEvent rest).node = s.node := rfl
@[simp] theorem State.takeEvent_code (rest : List HostEvent) : (s.takeEvent rest).code = s.code := rfl
@[simp] theorem State.takeEvent_symbuf (rest : List HostEvent) : (s.takeEvent rest).symbuf = s.symbuf := rfl
@[simp] theorem State.takeEvent_bytebuf (rest : List HostEvent) : (s.takeEvent rest).bytebuf = s.bytebuf := rfl
@[simp] theorem State.takeEvent_rsp (rest : List HostEvent) : (s.takeEvent rest).rsp = s.rsp := rfl
@[simp] theorem State.takeEvent_inputs (rest : List HostEvent) : (s.takeEvent rest).inputs = rest := rfl

/-! ### offerWord -/

@[simp] theorem State.offerWord_params (w : CmdWord) : (s.offerWord w).params = s.params := rfl
@[simp] theorem State.offerWord_phase (w : CmdWord) : (s.offerWord w).phase = s.phase := rfl
@[simp] theorem State.offerWord_symlen (w : CmdWord) : (s.offerWord w).symlen = s.symlen := rfl
@[simp] theorem State.offerWord_bitlen (w : CmdWord) : (s.offerWord w).bitlen = s.bitlen := rfl
@[simp] theorem State.offerWord_nsyms (w : CmdWord) : (s.offerWord w).nsyms = s.nsyms := rfl
@[simp] theorem State.offerWord_nnodes (w : CmdWord) : (s.offerWord w).nnodes = s.nnodes := rfl
@[simp] theorem State.offerWord_root (w : CmdWord) : (s.offerWord w).root = s.root := rfl
@[simp] theorem State.offerWord_cur (w : CmdWord) : (s.offerWord w).cur = s.cur := rfl
@[simp] theorem State.offerWord_freq (w : CmdWord) : (s.offerWord w).freq = s.freq := rfl
@[simp] theorem State.offerWord_node (w : CmdWord) : (s.offerWord w).node = s.node := rfl
@[simp] theorem State.offerWord_code (w : CmdWord) : (s.offerWord w).code = s.code := rfl
@[simp] theorem State.offerWord_symbuf (w : CmdWord) : (s.offerWord w).symbuf = s.symbuf := rfl
@[simp] theorem State.offerWord_bytebuf (w : CmdWord) : (s.offerWord w).bytebuf = s.bytebuf := rfl
@[simp] theorem State.offerWord_rsp (w : CmdWord) : (s.offerWord w).rsp = s.rsp := rfl
@[simp] theorem State.offerWord_inputs (w : CmdWord) : (s.offerWord w).inputs = .command w :: s.inputs := rfl

/-! ### appendBit and build: the fields with a value of their own -/

@[simp] theorem State.appendBit_bytebuf (b : Bool) : (s.appendBit b).bytebuf =
    s.bytebuf.write (s.bitlen.toNat / 8)
      ((if s.bitlen.toNat % 8 = 0 then 0 else s.bytebuf.read (s.bitlen.toNat / 8)) +
        BitVec.ofNat 8 (b.toNat * 2 ^ (7 - s.bitlen.toNat % 8))) := rfl

theorem State.build_node : s.build.node = storeNodes 0 (buildArena s.freqAt).1 s.node := rfl
theorem State.build_nnodes :
    s.build.nnodes = BitVec.ofNat 10 (buildArena s.freqAt).1.length := rfl
theorem State.build_nsyms : s.build.nsyms = BitVec.ofNat 9 (seedLeaves s.freqAt).length := rfl
theorem State.build_root :
    s.build.root = selectRoot (buildArena s.freqAt).1 (buildArena s.freqAt).2 := rfl
theorem State.build_code :
    s.build.code = deriveCodes (buildArena s.freqAt).1 s.build.root := rfl

end Sys2Proof.Machine
end

