-- ==== Sys2Proof/Laws/Ops.lean ====
section
/-! SUPPORT. One lemma for each shared operation that says what it can do; proofs about commands cite
these instead of unfolding the operation. -/

namespace Sys2Proof.Machine

/-! ### Responses -/

theorem respondOk_eq (d : Word32) (s : State) :
    respondOk d s = .next { s with rsp := some ⟨.ok, d⟩ } := rfl

theorem raise_eq (e : ErrorKind) (info : Word32) (s : State) :
    raise e info s = .next { s with rsp := some ⟨.error e, info⟩ } := rfl

/-! ### Derived views depend only on the fields they read -/

theorem State.freqAt_congr {s t : State} (h : s.freq = t.freq) : s.freqAt = t.freqAt := by
  funext a; simp [State.freqAt, h]

theorem State.codeAt_congr {s t : State} (h : s.code = t.code) : s.codeAt = t.codeAt := by
  funext a; simp [State.codeAt, h]

theorem State.nodeAt_congr {s t : State} (h : s.node = t.node) : s.nodeAt = t.nodeAt := by
  funext i; simp [State.nodeAt, h]

theorem State.bytelen_congr {s t : State} (h : s.bitlen = t.bitlen) : s.bytelen = t.bytelen := by
  simp [State.bytelen, h]

theorem State.streamBit_congr {s t : State} (h : s.bytebuf = t.bytebuf) :
    s.streamBit = t.streamBit := by
  funext i; simp [State.streamBit, h]

theorem State.symbols_length (s : State) : s.symbols.length = s.symlen.toNat := by
  simp [State.symbols]

theorem State.bytes_length (s : State) : s.bytes.length = s.bytelen := by
  simp [State.bytes]

theorem State.validBits_length (s : State) : s.validBits.length = s.bitlen.toNat := by
  simp [State.validBits, State.streamBits]

/-- Every BITLEN has room for its BYTELEN. -/
theorem State.bitlen_le_bytelen (s : State) : s.bitlen.toNat ≤ 8 * s.bytelen := by
  simp only [State.bytelen]; omega

/-! ### Appending bits -/

@[simp] theorem State.appendBits_nil (s : State) : s.appendBits [] = s := rfl

@[simp] theorem State.appendBits_cons (s : State) (b : Bool) (bits : List Bool) :
    s.appendBits (b :: bits) = (s.appendBit b).appendBits bits := rfl

theorem State.appendBits_append (s : State) (p q : List Bool) :
    s.appendBits (p ++ q) = (s.appendBits p).appendBits q := by
  simp [State.appendBits, List.foldl_append]

/-- Appending changes BYTEBUF and BITLEN and nothing else. -/
theorem State.appendBits_frame (s : State) (bits : List Bool) :
    s.appendBits bits =
      { s with
        bytebuf := (s.appendBits bits).bytebuf
        bitlen := (s.appendBits bits).bitlen } := by
  induction bits generalizing s with
  | nil => rfl
  | cons b rest ih => simpa using ih (s.appendBit b)

/-- BITLEN grows by the number of bits, as long as the sum fits the register. -/
theorem State.appendBits_bitlen (s : State) (bits : List Bool)
    (h : s.bitlen.toNat + bits.length < 2 ^ 32) :
    (s.appendBits bits).bitlen.toNat = s.bitlen.toNat + bits.length := by
  induction bits generalizing s with
  | nil => rfl
  | cons b rest ih =>
    simp only [List.length_cons] at h ⊢
    have hb : (s.appendBit b).bitlen.toNat = s.bitlen.toNat + 1 := by
      simp only [State.appendBit_bitlen, BitVec.toNat_ofNat]
      exact Nat.mod_eq_of_lt (by omega)
    rw [State.appendBits_cons, ih _ (by omega), hb]
    omega

/-- Appending leaves every byte before the current one as it is. -/
theorem State.appendBits_bytes_before (s : State) (bits : List Bool) (j : Nat)
    (hj : j < s.bitlen.toNat / 8) (h : s.bitlen.toNat + bits.length < 2 ^ 32) :
    (s.appendBits bits).bytebuf.read j = s.bytebuf.read j := by
  induction bits generalizing s with
  | nil => rfl
  | cons b rest ih =>
    simp only [List.length_cons] at h
    have hb : (s.appendBit b).bitlen.toNat = s.bitlen.toNat + 1 := by
      simp only [State.appendBit_bitlen, BitVec.toNat_ofNat]
      exact Nat.mod_eq_of_lt (by omega)
    rw [State.appendBits_cons, ih _ (by omega) (by omega), State.appendBit_bytebuf,
      Memory.read_write_other _ _ (by omega)]

/-- Appending leaves every byte past the last one it fills as it is. -/
theorem State.appendBits_bytes_after (s : State) (bits : List Bool) (j : Nat)
    (hj : (s.bitlen.toNat + bits.length + 7) / 8 ≤ j)
    (h : s.bitlen.toNat + bits.length < 2 ^ 32) :
    (s.appendBits bits).bytebuf.read j = s.bytebuf.read j := by
  induction bits generalizing s with
  | nil => rfl
  | cons b rest ih =>
    simp only [List.length_cons] at h hj
    have hb : (s.appendBit b).bitlen.toNat = s.bitlen.toNat + 1 := by
      simp only [State.appendBit_bitlen, BitVec.toNat_ofNat]
      exact Nat.mod_eq_of_lt (by omega)
    rw [State.appendBits_cons, ih _ (by rw [hb]; omega) (by omega), State.appendBit_bytebuf,
      Memory.read_write_other _ _ (by omega)]

/-- Appending keeps the canonical form of BYTEBUF. -/
theorem State.appendBits_wf (s : State) (bits : List Bool) (h : s.bytebuf.wf = true) :
    (s.appendBits bits).bytebuf.wf = true := by
  induction bits generalizing s with
  | nil => exact h
  | cons b rest ih =>
    rw [State.appendBits_cons]
    exact ih _ (by rw [State.appendBit_bytebuf]; exact Memory.wf_write h _ _)

/-! ### The walker -/

/-- Everything WalkStep can do: fail or emit in place, emit and go back to ROOT, or move to a child. -/
theorem State.walkStep_cases (s : State) (b : Bool) :
    (s.walkStep b = (.badCode, s) ∧
      (s.root = NIL ∨ ((s.nodeAt s.root.toNat).leaf = true ∧ b = true))) ∨
    (s.walkStep b = (.emit (s.nodeAt s.root.toNat).sym, s) ∧ s.root ≠ NIL ∧
      (s.nodeAt s.root.toNat).leaf = true ∧ b = false) ∨
    (s.walkStep b = (.emit (s.nodeAt (s.child s.cur b).toNat).sym, s.setCur s.root) ∧
      s.root ≠ NIL ∧ (s.nodeAt s.root.toNat).leaf = false ∧
      (s.nodeAt (s.child s.cur b).toNat).leaf = true) ∨
    (s.walkStep b = (.noEmit, s.setCur (s.child s.cur b)) ∧ s.root ≠ NIL ∧
      (s.nodeAt s.root.toNat).leaf = false ∧ (s.nodeAt (s.child s.cur b).toNat).leaf = false) := by
  unfold State.walkStep
  by_cases h1 : s.root = NIL
  · simp [h1]
  · by_cases h2 : (s.nodeAt s.root.toNat).leaf = true
    · cases b <;> simp [h1, h2]
    · by_cases h3 : (s.nodeAt (s.child s.cur b).toNat).leaf = true
      · simp [h1, h2, h3]
      · simp [h1, h2, h3]

/-- WalkStep changes CUR and nothing else. -/
theorem State.walkStep_frame (s : State) (b : Bool) :
    (s.walkStep b).2 = s.setCur (s.walkStep b).2.cur := by
  rcases s.walkStep_cases b with ⟨h, _⟩ | ⟨h, _⟩ | ⟨h, _⟩ | ⟨h, _⟩ <;> rw [h] <;> rfl

/-! ### The loops of ENCODE and DECODE -/

/-- The loop of ENCODE answers a next state, in which only BYTEBUF, BITLEN and the response differ; if
the response is an error, it is E_UNKSYM or E_OVERFLOW and the stream is empty. -/
theorem encodeFrom_answers (i : Nat) (syms : List Symbol) (s : State) :
    ∃ t r, encodeFrom i syms s = .next t ∧ t.rsp = some r ∧
      t = { s with bytebuf := t.bytebuf, bitlen := t.bitlen, rsp := t.rsp } ∧
      ((r = ⟨.ok, t.bitlen⟩) ∨
        (t.bitlen = 0 ∧ (r.status = .error .unksym ∨ r.status = .error .overflow))) := by
  induction syms generalizing i s with
  | nil => exact ⟨_, _, rfl, rfl, rfl, .inl rfl⟩
  | cons a rest ih =>
    simp only [encodeFrom]
    split
    · exact ⟨_, _, rfl, rfl, rfl, .inr ⟨rfl, .inl rfl⟩⟩
    · split
      · exact ⟨_, _, rfl, rfl, rfl, .inr ⟨rfl, .inr rfl⟩⟩
      · obtain ⟨t, r, h1, h2, h3, h4⟩ := ih (i + 1) (s.appendBits (s.codeAt a))
        refine ⟨t, r, h1, h2, ?_, h4⟩
        rw [h3, State.appendBits_frame]

/-- The loop of DECODE answers a next state, in which only SYMBUF, SYMLEN, CUR and the response differ;
if the response is an error, it is E_BADCODE, E_OVERFLOW or E_TRUNC, SYMLEN is 0 and CUR is ROOT. -/
theorem decodeFrom_answers (i start : Nat) (bits : List Bool) (s : State) :
    ∃ t r, decodeFrom i start bits s = .next t ∧ t.rsp = some r ∧
      t = { s with symbuf := t.symbuf, symlen := t.symlen, cur := t.cur, rsp := t.rsp } ∧
      t.cur = s.root ∧
      ((r = ⟨.ok, t.symlen⟩) ∨
        (t.symlen = 0 ∧ (r.status = .error .badcode ∨ r.status = .error .overflow ∨
          r.status = .error .trunc))) := by
  induction bits generalizing i start s with
  | nil =>
    simp only [decodeFrom]
    split
    · exact ⟨_, _, rfl, rfl, rfl, rfl, .inr ⟨rfl, .inr (.inr rfl)⟩⟩
    · rename_i h
      exact ⟨_, _, rfl, rfl, rfl, by simpa using h, .inl rfl⟩
  | cons b rest ih =>
    simp only [decodeFrom]
    have hf := s.walkStep_frame b
    generalize hw : s.walkStep b = w at hf
    obtain ⟨res, u⟩ := w
    simp only at hf
    cases res with
    | badCode =>
      refine ⟨_, _, rfl, rfl, ?_, ?_, .inr ⟨rfl, .inl rfl⟩⟩
      · rw [hf]; rfl
      · rw [hf]; rfl
    | noEmit =>
      obtain ⟨t, r, h1, h2, h3, h4, h5⟩ := ih (i + 1) start u
      refine ⟨t, r, h1, h2, ?_, ?_, h5⟩
      · rw [h3, hf]; rfl
      · rw [h4, hf]; rfl
    | emit sym =>
      simp only
      split
      · refine ⟨_, _, rfl, rfl, ?_, ?_, .inr ⟨rfl, .inr (.inl rfl)⟩⟩
        · rw [hf]; rfl
        · rw [hf]; rfl
      · obtain ⟨t, r, h1, h2, h3, h4, h5⟩ := ih (i + 1) (i + 1) (u.pushSymbol sym)
        refine ⟨t, r, h1, h2, ?_, ?_, h5⟩
        · rw [h3, hf]; rfl
        · rw [h4, hf]; rfl

/-! ### The priority queue -/

/-- extractMin takes one index out of the queue. -/
theorem extractMin_erase {nodes : List Node} {pq rest : List Nat} {m : Nat}
    (h : extractMin nodes pq = some (m, rest)) : rest = pq.erase m := by
  cases pq with
  | nil => simp [extractMin] at h
  | cons i pq =>
    simp only [extractMin, Option.some.injEq, Prod.mk.injEq] at h
    rw [← h.1, ← h.2]

theorem extractMin_none {nodes : List Node} {pq : List Nat} :
    extractMin nodes pq = none ↔ pq = [] := by
  cases pq <;> simp [extractMin]

end Sys2Proof.Machine
end

