-- ==== Sys2Proof/Laws/PerInstr.lean ====
section
/-! SUPPORT. Per-instruction families: each constructor's word lies in its row of the opcode map. -/

namespace Sys2Proof.Laws.EncodedRow

open Sys2Proof.Machine

/-- The word of `i` is an instance of a row of the opcode map (spec/30_encoding.md R57, R60) whose
legal values are those of `i` and whose command, with the word's fields, is `i`. -/
def Statement (i : Instr) : Prop :=
  ∃ row ∈ opcodeMap,
    encode i &&& row.mask = row.op.setWidth 48 <<< 40 ∧
      row.legal (aField (encode i)) (dField (encode i)) = i.wf ∧
      row.command (aField (encode i)) (dField (encode i)) = i

theorem nop : Statement .nop :=
  ⟨opcodeMap[0], List.getElem_mem _, packFields_and_maskN _, by
    simp [opcodeMap, Sys2Proof.encode, Instr.wf], by simp [opcodeMap, Sys2Proof.encode]⟩

theorem clr : Statement .clr :=
  ⟨opcodeMap[1], List.getElem_mem _, packFields_and_maskN _, by
    simp [opcodeMap, Sys2Proof.encode, Instr.wf], by simp [opcodeMap, Sys2Proof.encode]⟩

theorem rdreg (a : OperandA) : Statement (.rdreg a) :=
  ⟨opcodeMap[2], List.getElem_mem _, packFields_and_maskA _ _, by
    simp [opcodeMap, Sys2Proof.encode, Instr.wf], by simp [opcodeMap, Sys2Proof.encode]⟩

theorem wsym (a : OperandA) : Statement (.wsym a) :=
  ⟨opcodeMap[3], List.getElem_mem _, packFields_and_maskA _ _, by
    simp [opcodeMap, Sys2Proof.encode, Instr.wf], by simp [opcodeMap, Sys2Proof.encode]⟩

theorem rsym (d : Word32) : Statement (.rsym d) :=
  ⟨opcodeMap[4], List.getElem_mem _, packFields_and_maskD _ _, by
    simp [opcodeMap, Sys2Proof.encode, Instr.wf], by simp [opcodeMap, Sys2Proof.encode]⟩

theorem clrs : Statement .clrs :=
  ⟨opcodeMap[5], List.getElem_mem _, packFields_and_maskN _, by
    simp [opcodeMap, Sys2Proof.encode, Instr.wf], by simp [opcodeMap, Sys2Proof.encode]⟩

theorem fcount : Statement .fcount :=
  ⟨opcodeMap[6], List.getElem_mem _, packFields_and_maskN _, by
    simp [opcodeMap, Sys2Proof.encode, Instr.wf], by simp [opcodeMap, Sys2Proof.encode]⟩

theorem fset (a : OperandA) (d : Word32) : Statement (.fset a d) :=
  ⟨opcodeMap[7], List.getElem_mem _, packFields_and_maskAD _ _ _, by
    simp [opcodeMap, Sys2Proof.encode, Instr.wf], by simp [opcodeMap, Sys2Proof.encode]⟩

theorem fget (a : OperandA) : Statement (.fget a) :=
  ⟨opcodeMap[8], List.getElem_mem _, packFields_and_maskA _ _, by
    simp [opcodeMap, Sys2Proof.encode, Instr.wf], by simp [opcodeMap, Sys2Proof.encode]⟩

theorem build : Statement .build :=
  ⟨opcodeMap[9], List.getElem_mem _, packFields_and_maskN _, by
    simp [opcodeMap, Sys2Proof.encode, Instr.wf], by simp [opcodeMap, Sys2Proof.encode]⟩

theorem nget (a : OperandA) (d : Word32) : Statement (.nget a d) :=
  ⟨opcodeMap[10], List.getElem_mem _, packFields_and_maskAD _ _ _, by
    simp [opcodeMap, Sys2Proof.encode, Instr.wf], by simp [opcodeMap, Sys2Proof.encode]⟩

theorem cget (a : OperandA) (d : Word32) : Statement (.cget a d) :=
  ⟨opcodeMap[11], List.getElem_mem _, packFields_and_maskAD _ _ _, by
    simp [opcodeMap, Sys2Proof.encode, Instr.wf], by simp [opcodeMap, Sys2Proof.encode]⟩

theorem wbyte (a : OperandA) : Statement (.wbyte a) :=
  ⟨opcodeMap[12], List.getElem_mem _, packFields_and_maskA _ _, by
    simp [opcodeMap, Sys2Proof.encode, Instr.wf], by simp [opcodeMap, Sys2Proof.encode]⟩

theorem rbyte (d : Word32) : Statement (.rbyte d) :=
  ⟨opcodeMap[13], List.getElem_mem _, packFields_and_maskD _ _, by
    simp [opcodeMap, Sys2Proof.encode, Instr.wf], by simp [opcodeMap, Sys2Proof.encode]⟩

theorem clrb : Statement .clrb :=
  ⟨opcodeMap[14], List.getElem_mem _, packFields_and_maskN _, by
    simp [opcodeMap, Sys2Proof.encode, Instr.wf], by simp [opcodeMap, Sys2Proof.encode]⟩

theorem bput (a : OperandA) (d : Word32) : Statement (.bput a d) :=
  ⟨opcodeMap[15], List.getElem_mem _, packFields_and_maskAD _ _ _, by
    simp [opcodeMap, Sys2Proof.encode, Instr.wf], by simp [opcodeMap, Sys2Proof.encode]⟩

theorem bget (a : OperandA) (d : Word32) : Statement (.bget a d) :=
  ⟨opcodeMap[16], List.getElem_mem _, packFields_and_maskAD _ _ _, by
    simp [opcodeMap, Sys2Proof.encode, Instr.wf], by simp [opcodeMap, Sys2Proof.encode]⟩

theorem encode : Statement .encode :=
  ⟨opcodeMap[17], List.getElem_mem _, packFields_and_maskN _, by
    simp [opcodeMap, Sys2Proof.encode, Instr.wf], by simp [opcodeMap, Sys2Proof.encode]⟩

theorem decode (d : Word32) : Statement (.decode d) :=
  ⟨opcodeMap[18], List.getElem_mem _, packFields_and_maskD _ _, by
    simp [opcodeMap, Sys2Proof.encode, Instr.wf], by simp [opcodeMap, Sys2Proof.encode]⟩

theorem dstep (a : OperandA) : Statement (.dstep a) :=
  ⟨opcodeMap[19], List.getElem_mem _, packFields_and_maskA _ _, by
    simp [opcodeMap, Sys2Proof.encode, Instr.wf], by simp [opcodeMap, Sys2Proof.encode]⟩

theorem drst : Statement .drst :=
  ⟨opcodeMap[20], List.getElem_mem _, packFields_and_maskN _, by
    simp [opcodeMap, Sys2Proof.encode, Instr.wf], by simp [opcodeMap, Sys2Proof.encode]⟩

end Sys2Proof.Laws.EncodedRow
end

