-- ==== Sys2Proof/Tests/Slice0.lean ====
section
/-! SUPPORT. The model's own tests. Expected values are those of spec/95_test_vectors.md (the section is
named at each group) or of the example in the command's rule. The witnesses at the end show, for each
statement of Certificates/Slice0/Obligations.lean that has hypotheses, concrete states and operands
that meet them. -/

namespace Sys2Proof.Tests

open Sys2Proof.Machine

-- One theorem at a time: elaborated in parallel, the kernel evaluations below hold a thread each.
set_option Elab.async false

/-- The state a command leaves. -/
def go (i : Instr) (s : State) : State :=
  match exec i s with
  | .next t => t
  | .fault _ => s
  | .refused _ => s

/-- The state a list of commands leaves. -/
def goAll (is : List Instr) (s : State) : State := is.foldl (fun s i => go i s) s

/-- What a command answers: OK with data. -/
def ok (d : Word32) : Option Response := some ⟨.ok, d⟩

/-- What a command answers: an error with data. -/
def err (e : ErrorKind) (d : Word32) : Option Response := some ⟨.error e, d⟩

/-- Small capacities: two symbols, two bytes. -/
def tiny : Params := ⟨2, 2, by decide, by decide, by decide, by decide⟩

def fresh : State := State.resetFor tiny

/-- The tree for a:1 b:1, with codes a = 0 and b = 1. -/
def treeAB : State := goAll [.fset 0x61 1, .fset 0x62 1, .build] fresh

/-- The tree for a:2 b:2 c:1, with codes a = 11, b = 0 and c = 10. -/
def treeABC : State := goAll [.fset 0x61 2, .fset 0x62 2, .fset 0x63 1, .build] fresh

/-- The tree for a:4: a single leaf. -/
def treeA : State := goAll [.fset 0x61 4, .build] fresh

/-- The empty tree. -/
def treeNone : State := goAll [.build] fresh

/-! ### Decoding: one written-out word for each command (95_test_vectors.md 2.1) -/

theorem test_decode_nop : decode 0x000000000000 = .ok .nop := by decide
theorem test_decode_clr : decode 0x010000000000 = .ok .clr := by decide
theorem test_decode_rdreg : decode 0x020500000000 = .ok (.rdreg 5) := by decide
theorem test_decode_wsym : decode 0x106100000000 = .ok (.wsym 0x61) := by decide
theorem test_decode_rsym : decode 0x11000000000A = .ok (.rsym 10) := by decide
theorem test_decode_clrs : decode 0x120000000000 = .ok .clrs := by decide
theorem test_decode_fcount : decode 0x130000000000 = .ok .fcount := by decide
theorem test_decode_fset : decode 0x146100000005 = .ok (.fset 0x61 5) := by decide
theorem test_decode_fget : decode 0x157200000000 = .ok (.fget 0x72) := by decide
theorem test_decode_build : decode 0x200000000000 = .ok .build := by decide
theorem test_decode_nget : decode 0x210100000008 = .ok (.nget 1 8) := by decide
theorem test_decode_cget : decode 0x226200000001 = .ok (.cget 0x62 1) := by decide
theorem test_decode_wbyte : decode 0x306E00000000 = .ok (.wbyte 0x6E) := by decide
theorem test_decode_rbyte : decode 0x310000000002 = .ok (.rbyte 2) := by decide
theorem test_decode_clrb : decode 0x320000000000 = .ok .clrb := by decide
theorem test_decode_bput : decode 0x330D00001675 = .ok (.bput 13 0x1675) := by decide
theorem test_decode_bget : decode 0x341000000000 = .ok (.bget 16 0) := by decide
theorem test_decode_encode : decode 0x380000000000 = .ok .encode := by decide
theorem test_decode_decode : decode 0x390000000017 = .ok (.decode 23) := by decide
theorem test_decode_dstep : decode 0x3A0100000000 = .ok (.dstep 1) := by decide
theorem test_decode_drst : decode 0x3B0000000000 = .ok .drst := by decide

/-- Illegal words for an undefined opcode (95_test_vectors.md 2.1). -/
theorem test_decode_undefined_opcodes :
    ([0x030000000000, 0x0F0000000000, 0x160000000000, 0x350000000000, 0x3C0000000000,
      0xFFFFFFFFFFFF] : List CmdWord).map decode =
      List.replicate 6 (.error .undefinedOpcode) := by decide

/-- Illegal words for a field that must be zero (95_test_vectors.md 2.1). -/
theorem test_decode_unused_fields :
    ([0x000000000001, 0x000100000000, 0x010000000001, 0x020000000001, 0x106100000001,
      0x110100000000, 0x12FF00000000, 0x200000000001, 0x390100000000, 0x3A0000000001,
      0x3B0000000001] : List CmdWord).map decode =
      List.replicate 11 (.error .unusedFieldNotZero) := by decide

/-- Illegal words for a value outside its row's range (95_test_vectors.md 2.1). -/
theorem test_decode_illegal_values :
    ([0x020A00000000, 0x210300000000, 0x226100000009, 0x330000000001, 0x332100000001,
      0x340000000000, 0x342100000000, 0x3A0200000000] : List CmdWord).map decode =
      List.replicate 8 (.error .valueNotLegal) := by decide

/-! ### WellFormed: an ill-formed term for each check -/

theorem test_wf_refuses_rdreg_10 : Instr.wf (.rdreg 10) = false := by decide
theorem test_wf_refuses_nget_3 : Instr.wf (.nget 3 0) = false := by decide
theorem test_wf_refuses_cget_9 : Instr.wf (.cget 0x61 9) = false := by decide
theorem test_wf_refuses_bput_0_33 :
    Instr.wf (.bput 0 1) = false ∧ Instr.wf (.bput 33 1) = false := by decide
theorem test_wf_refuses_bget_0_33 :
    Instr.wf (.bget 0 0) = false ∧ Instr.wf (.bget 33 0) = false := by decide
theorem test_wf_refuses_dstep_2 : Instr.wf (.dstep 2) = false := by decide

/-- R8: parameters outside the bounds are refused, those on the bounds are not. -/
theorem test_params_bounds :
    [Params.make? 0 1, Params.make? 1 0, Params.make? (2 ^ 32) 1, Params.make? 1 (2 ^ 29)].map
      Option.isSome = [false, false, false, false] ∧
    (Params.make? (2 ^ 32 - 1) (2 ^ 29 - 1)).isSome = true := by decide

/-! ### Control (95_test_vectors.md 2.3, P3) -/

theorem test_nop : (go .nop State.reset).rsp = ok 0 := by decide
theorem test_clr : (go .clr treeAB).phase = .uninit ∧ (go .clr treeAB).freqAt 0x61 = 0 := by
  decide
theorem test_rdreg_after_reset :
    ((List.range 10).map (fun a => (go (.rdreg (BitVec.ofNat 8 a)) State.reset).rsp)) =
      [0, 0, 0, 0, 0, 0, 0x1FF, 0x1FF, 4096, 4096].map ok := by decide
theorem test_rdreg_status_single : (go (.rdreg 0) treeA).rsp = ok 5 := by decide

/-! ### Symbol buffer and frequency model (2.4) -/

theorem test_wsym_zero : (go (.wsym 0) State.reset).symlen = 1 := by decide
theorem test_wsym_full : (go (.wsym 0x65) (goAll [.wsym 0x61, .wsym 0x62] fresh)).rsp =
    err .overflow 2 := by decide
theorem test_rsym : (go (.rsym 1) (goAll [.wsym 0x61, .wsym 0x62] fresh)).rsp = ok 0x62 := by
  decide
theorem test_rsym_range : (go (.rsym 0xFFFFFFFF) (goAll [.wsym 0x61, .wsym 0x62] fresh)).rsp =
    err .range 2 := by decide
theorem test_clrs : (go (.rsym 0) (goAll [.wsym 0x61, .clrs] fresh)).rsp = err .range 0 := by
  decide
theorem test_fcount_replaces :
    (goAll [.fset 0x7A 9, .wsym 0x61, .wsym 0x62, .fcount] fresh).freq =
      [(0x61, 1), (0x62, 1)] := by decide
theorem test_fcount_counts : (goAll [.wsym 0x61, .wsym 0x61, .fcount] fresh).freqAt 0x61 = 2 := by
  decide
theorem test_fset_edits :
    (goAll [.fset 0x61 1, .fset 0x62 1, .fset 0x61 0, .fset 0x63 7] fresh).freq =
      [(0x62, 1), (0x63, 7)] := by decide
theorem test_fset_built : (go (.fset 0x63 1) treeAB).rsp = err .phase 0 := by decide
theorem test_fget : (go (.fget 0xFF) (goAll [.fset 0xFF 0xFFFFFFFF] fresh)).rsp =
    ok 0xFFFFFFFF := by decide

/-! ### Tree builder (2.5) -/

theorem test_build_abracadabra :
    (go .build (goAll [.fset 0x61 5, .fset 0x62 2, .fset 0x63 1, .fset 0x64 1, .fset 0x72 2]
      State.reset)).node.map (fun c => c.2.linkWord) =
      [0x8187FFFF, 0x818BFFFF, 0x818FFFFF, 0x8193FFFF, 0x81CBFFFF, 0x00000403, 0x00000204,
       0x00000A06, 0x00000007] := by decide +kernel
theorem test_build_empty : (go .build fresh).rsp = ok 0 ∧ (go .build fresh).root = 0x1FF := by
  decide +kernel
theorem test_nget_link : (go (.nget 0 4) treeABC).rsp = ok 0x00000203 := by decide +kernel
theorem test_nget_range : (go (.nget 0 5) treeABC).rsp = err .range 5 := by decide +kernel

/-- The weight 0x1FFFFFFFE of two counts of 0xFFFFFFFF, in two halves (2.5). -/
theorem test_nget_weight :
    let s := goAll [.fset 0 0xFFFFFFFF, .fset 0xFF 0xFFFFFFFF, .build] fresh
    (go (.nget 1 2) s).rsp = ok 0xFFFFFFFE ∧ (go (.nget 2 2) s).rsp = ok 1 := by decide +kernel

/-! ### Code table (2.6) -/

theorem test_cget_bits :
    (go (.cget 0x61 1) treeABC).rsp = ok 0xC0000000 ∧
      (go (.cget 0x63 1) treeABC).rsp = ok 0x80000000 := by decide +kernel
theorem test_cget_length : (go (.cget 0x61 0) treeA).rsp = ok 1 ∧
    (go (.cget 0x62 0) treeA).rsp = ok 0 := by decide +kernel

/-! ### Bit-stream codec (2.7) -/

theorem test_pack : pack [true, false, true, true, false, false, true, true, true, false, true,
    false, true] = [0xB3, 0xA8] := by decide
theorem test_unpack : unpack [0x01] =
    [false, false, false, false, false, false, false, true] := by decide
theorem test_wbyte_starts_a_byte :
    (goAll [.bput 3 5, .wbyte 0xFF] fresh).bytes = [0xA0, 0xFF] := by decide
theorem test_wbyte_full : (go (.wbyte 0xEE) (goAll [.wbyte 0x1B, .wbyte 0xFF] fresh)).rsp =
    err .overflow 2 := by decide
theorem test_rbyte : (go (.rbyte 1) (goAll [.bput 13 0x1675] fresh)).rsp = ok 0xA8 := by decide
theorem test_rbyte_range : (go (.rbyte 2) (goAll [.bput 13 0x1675] fresh)).rsp =
    err .range 2 := by decide +kernel
theorem test_clrb : (go (.rbyte 0) (goAll [.bput 13 0x1675, .clrb] fresh)).rsp = err .range 0 := by
  decide
theorem test_bput_unaligned :
    (goAll [.bput 3 5, .bput 32 0xDEADBEEF] State.reset).bytes =
      [0xBB, 0xD5, 0xB7, 0xDD, 0xE0] := by decide +kernel
theorem test_bput_overflow : (go (.bput 4 0xF) (goAll [.bput 13 0x1675] fresh)).rsp =
    err .overflow 13 := by decide +kernel
theorem test_bget : (go (.bget 16 0) (goAll [.bput 13 0x1675] fresh)).rsp = ok 0xB3A8 := by
  decide +kernel
theorem test_bget_no_wrap : (go (.bget 1 0xFFFFFFFF) (goAll [.bput 13 0x1675] fresh)).rsp =
    err .range 16 := by decide

/-! ### Coder (2.8) -/

theorem test_encode_ab :
    let t := goAll [.wsym 0x61, .wsym 0x62, .encode] treeAB
    t.rsp = ok 2 ∧ t.bytes = [0x40] := by decide +kernel
theorem test_encode_unknown :
    let t := goAll [.wsym 0x61, .wsym 0x63, .encode] treeAB
    t.rsp = err .unksym 1 ∧ t.bitlen = 0 := by decide +kernel
theorem test_decode_stream :
    let t := goAll [.wbyte 0x40, .decode 2] treeAB
    t.rsp = ok 2 ∧ t.symbols = [0x61, 0x62] := by decide +kernel
theorem test_decode_truncated : (goAll [.wbyte 0x80, .decode 1] treeABC).rsp = err .trunc 0 := by
  decide +kernel
theorem test_dstep_moves_then_emits :
    (goAll [.dstep 1] treeABC).cur = 3 ∧ (goAll [.dstep 1, .dstep 0] treeABC).rsp = ok 0x163 := by
  decide +kernel
theorem test_dstep_badcode : (go (.dstep 1) treeA).rsp = err .badcode 0 := by decide +kernel
theorem test_drst : (goAll [.dstep 1, .drst] treeABC).cur = treeABC.root := by decide +kernel

/-! ### Step -/

/-- A reset event drops the response and the tree (70_reset_and_hazards.md R133). -/
theorem test_step_reset :
    step { treeAB with inputs := [.reset] } = .next { fresh with inputs := [] } := by rfl

/-- An illegal word as the first command after reset (95_test_vectors.md 2.1). -/
theorem test_step_illegal :
    step (State.reset.withFetchWord 48 0x010000000001) =
      .next { State.reset with rsp := err .illegal 0 } := by rfl

/-- BUILD as the first command after reset (P6). -/
theorem test_step_build :
    (match step (State.reset.withFetchWord 48 0x200000000000) with
      | .next t => t.rsp
      | .fault _ => none
      | .refused _ => none) = ok 0 := by decide +kernel

theorem test_decodeTableWord :
    decodeTableWord 48 0x3320DEADBEEF = some (.bput 32 0xDEADBEEF) ∧
      decodeTableWord 48 0x3300DEADBEEF = none ∧ decodeTableWord 56 0 = none := by decide

/-! ### Witnesses: states that meet the invariant -/

/-- The fields of `State.CellsOk`, decided. -/
def cellsCheck (s : State) : Bool :=
  cellsWf 0 s.freq && cellsWf Node.unlisted s.node && cellsWf [] s.code && s.symbuf.wf &&
    s.bytebuf.wf && decide (∀ c ∈ s.freq, c.1 < nsym) && decide (∀ c ∈ s.node, c.1 < maxNodes) &&
    decide (∀ c ∈ s.code, c.1 < nsym)

/-- The fields of `State.BuffersOk`, decided. -/
def buffersCheck (s : State) : Bool :=
  decide (s.symlen.toNat ≤ s.params.symCap) && decide (s.bitlen.toNat ≤ 8 * s.params.byteCap) &&
    decide (∀ c ∈ s.symbuf, c.1 < s.params.symCap) &&
    decide (∀ c ∈ s.bytebuf, c.1 < s.params.byteCap) &&
    decide (∀ i, i < 8 * s.bytelen → s.bitlen.toNat ≤ i → s.streamBit i = false)

/-- The fields of `State.TreeOk`, decided. -/
def treeCheck (s : State) : Bool :=
  decide (s.nsyms.toNat = s.distinctSymbols) &&
  decide (s.nsyms = 0 → s.nnodes = 0 ∧ s.root = NIL) &&
  decide (s.nsyms ≠ 0 →
    s.nnodes.toNat + 1 = 2 * s.nsyms.toNat ∧ s.root.toNat + 2 = 2 * s.nsyms.toNat) &&
  decide (∀ k, k < s.nsyms.toNat →
    (s.nodeAt k).leaf = true ∧ (s.nodeAt k).left = NIL ∧ (s.nodeAt k).right = NIL ∧
      s.freqAt (s.nodeAt k).sym ≠ 0 ∧
      (s.nodeAt k).wgt.toNat = (s.freqAt (s.nodeAt k).sym).toNat) &&
  decide (∀ k, k < s.nsyms.toNat → ∀ j, j < k →
    (s.nodeAt j).sym.toNat < (s.nodeAt k).sym.toNat) &&
  decide (∀ i, i < s.nnodes.toNat → s.nsyms.toNat ≤ i →
    (s.nodeAt i).leaf = false ∧ (s.nodeAt i).sym = 0 ∧ (s.nodeAt i).left.toNat < i ∧
      (s.nodeAt i).right.toNat < i ∧ (s.nodeAt i).left ≠ (s.nodeAt i).right) &&
  decide (∀ i, i < s.nnodes.toNat → s.nsyms.toNat ≤ i →
    (s.nodeAt i).wgt.toNat = (s.nodeAt (s.nodeAt i).left.toNat).wgt.toNat +
      (s.nodeAt (s.nodeAt i).right.toNat).wgt.toNat) &&
  decide (∀ j, j < s.nnodes.toNat →
    (s.childrenOf s.nsyms.toNat s.nnodes.toNat).count j = if j = s.root.toNat then 0 else 1) &&
  decide (s.nsyms ≠ 0 → (s.nodeAt s.root.toNat).wgt.toNat = s.freqSum) &&
  decide (s.cur = s.root ∨
    (s.nsyms.toNat ≤ s.cur.toNat ∧ s.cur.toNat < s.nnodes.toNat ∧ s.cur ≠ s.root))

/-- The fields of `State.CodesOk`, decided. -/
def codesCheck (s : State) : Bool :=
  decide (∀ a : Symbol, s.codeAt a ≠ [] ↔ s.freqAt a ≠ 0) &&
  decide (∀ a : Symbol, s.codeLen a ≤ maxCodeLen) &&
  decide (2 ≤ s.nsyms.toNat → ∀ a : Symbol, s.codeAt a ≠ [] →
    (s.nodeAt (s.follow s.root (s.codeAt a)).toNat).leaf = true ∧
      (s.nodeAt (s.follow s.root (s.codeAt a)).toNat).sym = a) &&
  decide (2 ≤ s.nsyms.toNat → ∀ a : Symbol, ∀ k, k < s.codeLen a →
    (s.nodeAt (s.follow s.root ((s.codeAt a).take k)).toNat).leaf = false) &&
  decide (s.nsyms = 1 → ∀ a : Symbol, s.codeAt a ≠ [] → s.codeAt a = [false]) &&
  decide (∀ a : Symbol, s.codeAt a ≠ [] → ∀ b : Symbol, s.codeAt b ≠ [] → a ≠ b →
    ¬ s.codeAt a <+: s.codeAt b)

/-- What the checks decide is the invariant, in BUILT. -/
theorem inv_of_checks {s : State} (hp : s.phase = .built) (h1 : cellsCheck s = true)
    (h2 : buffersCheck s = true) (h3 : treeCheck s = true) (h4 : codesCheck s = true) : s.Inv := by
  simp only [cellsCheck, buffersCheck, treeCheck, codesCheck, Bool.and_eq_true,
    decide_eq_true_eq] at h1 h2 h3 h4
  obtain ⟨⟨⟨⟨⟨⟨⟨c1, c2⟩, c3⟩, c4⟩, c5⟩, c6⟩, c7⟩, c8⟩ := h1
  obtain ⟨⟨⟨⟨b1, b2⟩, b3⟩, b4⟩, b5⟩ := h2
  obtain ⟨⟨⟨⟨⟨⟨⟨⟨⟨t1, t2⟩, t3⟩, t4⟩, t5⟩, t6⟩, t7⟩, t8⟩, t9⟩, t10⟩ := h3
  obtain ⟨⟨⟨⟨⟨d1, d2⟩, d3⟩, d4⟩, d5⟩, d6⟩ := h4
  have hu : s.phase ≠ .uninit := by rw [hp]; decide
  exact ⟨⟨c1, c2, c3, c4, c5, c6, c7, c8⟩, ⟨b1, b2, b3, b4, b5⟩,
    ⟨fun h => absurd h hu, fun _ => ⟨t1, t2, t3, t4, t5, t6, t7, t8, t9, t10⟩⟩,
    ⟨fun h => absurd h hu, fun _ => ⟨d1, d2, d3, d4, d5, d6⟩⟩⟩

/-- "ab" in SYMBUF (full), with the tree for it. -/
def textAB : State := goAll [.wsym 0x61, .wsym 0x62] treeAB

/-- The same, encoded: the stream is 01. -/
def streamAB : State := go .encode textAB

/-- The stream 10000000 under the tree for a:2 b:2 c:1. -/
def streamABC : State := go (.wbyte 0x80) treeABC

/-- Eight 0 bits under the single leaf. -/
def streamA : State := go (.wbyte 0x00) treeA

/-- The bits 00100000 under the single leaf. -/
def streamA1 : State := go (.wbyte 0x20) treeA

/-- A symbol and a byte under the empty tree. -/
def streamNone : State := goAll [.wsym 0x61, .wbyte 0x00] treeNone

/-- The tree for a:2 b:2 c:1 with the walker inside a code. -/
def midABC : State := go (.dstep 1) treeABC

theorem treeAB_inv : treeAB.Inv :=
  inv_of_checks (by decide) (by decide +kernel) (by decide +kernel) (by decide +kernel)
    (by decide +kernel)
theorem textAB_inv : textAB.Inv :=
  inv_of_checks (by decide) (by decide +kernel) (by decide +kernel) (by decide +kernel)
    (by decide +kernel)
theorem streamAB_inv : streamAB.Inv :=
  inv_of_checks (by decide +kernel) (by decide +kernel) (by decide +kernel) (by decide +kernel)
    (by decide +kernel)
theorem streamABC_inv : streamABC.Inv :=
  inv_of_checks (by decide +kernel) (by decide +kernel) (by decide +kernel) (by decide +kernel)
    (by decide +kernel)
theorem streamA_inv : streamA.Inv :=
  inv_of_checks (by decide +kernel) (by decide +kernel) (by decide +kernel) (by decide +kernel)
    (by decide +kernel)
theorem streamA1_inv : streamA1.Inv :=
  inv_of_checks (by decide +kernel) (by decide +kernel) (by decide +kernel) (by decide +kernel)
    (by decide +kernel)
theorem streamNone_inv : streamNone.Inv :=
  inv_of_checks (by decide +kernel) (by decide +kernel) (by decide +kernel) (by decide +kernel)
    (by decide +kernel)
theorem midABC_inv : midABC.Inv :=
  inv_of_checks (by decide +kernel) (by decide +kernel) (by decide +kernel) (by decide +kernel)
    (by decide +kernel)

/-! ### Witnesses, one for each statement that has hypotheses -/

/-- A reset pending. -/
def resetPending : State := { treeAB with inputs := [.reset] }

/-- A command word pending on the midwalk state. -/
def commandPending : State := { midABC with inputs := [.command 0x3A0000000000, .reset] }

theorem commandPending_inv : commandPending.Inv :=
  inv_of_checks (by decide +kernel) (by decide +kernel) (by decide +kernel) (by decide +kernel)
    (by decide +kernel)

theorem commandPending_step : ∃ t, step commandPending = .next t := ⟨_, rfl⟩

theorem witness_DecodeOfEncodeIsTheCommand :
    Instr.wf (.bput 32 0xFFFFFFFF) = true ∧ Instr.wf (.cget 0xFF 8) = true := by decide

theorem witness_EncodeOfDecodeIsTheWord : decode 0x3A0100000000 = .ok (.dstep 1) := by decide

theorem witness_IllegalWordsAreListedAndAnswered :
    IsIllegal 0x3A0200000000 ∧
      ∃ s : State, s.inputs = [.command 0x3A0200000000] ∧ s.phase = .built :=
  ⟨⟨_, rfl⟩, { treeAB with inputs := [.command 0x3A0200000000] }, rfl, by decide⟩

theorem witness_StepRunsTheDecodedCommand :
    (commandPending.inputs = [.command 0x3A0000000000, .reset] ∧
      decode 0x3A0000000000 = .ok (.dstep 0)) ∧
    resetPending.inputs = [.reset] ∧ State.reset.inputs = [] ∧ 0xFFFFFFFFFFFF < 2 ^ 48 := by
  decide +kernel

theorem witness_EveryStepGoesOnAndAnswersOnce :
    commandPending.inputs = .command 0x3A0000000000 :: [.reset] := rfl

theorem witness_ResetAndClrGiveTheResetState : resetPending.inputs = .reset :: [] := rfl

theorem witness_ParametersStayInBoundsAndFixed : ∃ t, step commandPending = .next t :=
  commandPending_step

theorem witness_CellsStayCanonical :
    commandPending.CellsOk ∧ commandPending.BuffersOk ∧ ∃ t, step commandPending = .next t :=
  ⟨commandPending_inv.cells, commandPending_inv.buffers, commandPending_step⟩

theorem witness_BuffersStayInCapacityAndPadded :
    commandPending.BuffersOk ∧ ∃ t, step commandPending = .next t :=
  ⟨commandPending_inv.buffers, commandPending_step⟩

theorem witness_TreeShapeIsKept : commandPending.TreeInv ∧ ∃ t, step commandPending = .next t :=
  ⟨commandPending_inv.tree, commandPending_step⟩

theorem witness_CodeTableShapeIsKept :
    commandPending.CodeInv ∧ ∃ t, step commandPending = .next t :=
  ⟨commandPending_inv.codes, commandPending_step⟩

theorem witness_InvariantIsKeptByEveryStep :
    commandPending.Inv ∧ ∃ t, step commandPending = .next t :=
  ⟨commandPending_inv, commandPending_step⟩

/-- The same state with another content in a symbol cell that is not valid. -/
def otherCell : State := { commandPending with symbuf := [(1, 0x7F)] }

theorem otherCell_inv : otherCell.Inv :=
  inv_of_checks (by decide +kernel) (by decide +kernel) (by decide +kernel) (by decide +kernel)
    (by decide +kernel)

theorem otherCell_sameView : commandPending.SameView otherCell :=
  ⟨rfl, rfl, rfl, rfl, rfl, rfl, rfl, rfl, fun _ => rfl, fun _ => rfl, fun _ _ => rfl,
    by decide +kernel, rfl, rfl, rfl⟩

theorem witness_InvalidCellsCannotBeObserved :
    commandPending ≠ otherCell ∧ commandPending.Inv ∧ otherCell.Inv ∧
      commandPending.SameView otherCell ∧ ∃ t, step commandPending = .next t :=
  ⟨by decide +kernel, commandPending_inv, otherCell_inv, otherCell_sameView, commandPending_step⟩

theorem witness_OnlyBuildAndClrChangePhase :
    (exec .build fresh = .next (go .build fresh) ∧ fresh.phase = .uninit ∧
      (go .build fresh).phase = .built) ∧
    (exec .clr treeAB = .next (go .clr treeAB) ∧ treeAB.phase = .built ∧
      (go .clr treeAB).phase = .uninit) :=
  ⟨⟨rfl, rfl, by decide⟩, rfl, by decide, by decide⟩

theorem witness_BuiltTreeIsImmutable :
    exec .clrs textAB = .next (go .clrs textAB) ∧ textAB.phase = .built ∧
      Instr.clrs ≠ .clr :=
  ⟨rfl, by decide, by decide⟩

/-- Each clause has a command that makes the change it speaks of. -/
theorem witness_MemoriesAndRegistersHaveTheirWriters :
    (go (.fset 0x61 1) fresh).freq ≠ fresh.freq ∧ (go .build treeA.clear).nnodes = 0 ∧
    treeAB.node ≠ fresh.node ∧ treeAB.code ≠ fresh.code ∧ textAB.symbuf ≠ treeAB.symbuf ∧
    streamA1.bytebuf ≠ treeA.bytebuf ∧ textAB.symlen ≠ treeAB.symlen ∧
    streamAB.bitlen ≠ textAB.bitlen ∧ treeAB.root ≠ fresh.root ∧ midABC.cur ≠ treeABC.cur := by
  decide +kernel

theorem witness_ReadsHaveNoSideEffect :
    IsRead (.rdreg 7) = true ∧ IsRead (.bget 32 0) = true ∧ treeAB.inputs = [] := by decide

theorem witness_ErrorsLeaveTheStateTheTableGives :
    (go .encode (go (.wsym 0x63) treeAB)).rsp = err .unksym 0 ∧
      (go (.decode 1) streamABC).rsp = err .trunc 0 ∧
      (go (.decode 9) streamABC).rsp = err .range 8 := by decide +kernel

theorem witness_PhaseErrorsChangeNothing :
    treeAB.phase = .built ∧ fresh.phase = .uninit ∧ (1 : OperandA).toNat ≤ 1 := by decide

theorem witness_ErrorKindsComeOnlyFromTheirCommands :
    (Instr.wf (.dstep 1) = true ∧ (go (.dstep 1) treeA).rsp = err .badcode 0) ∧
      Instr.wf (.dstep 2) = false := by decide +kernel

theorem witness_NopChangesNothing : (0 : OperandA) ≠ 0 ∨ (1 : Word32) ≠ 0 := by decide

theorem witness_ClrReturnsToTheResetState :
    ((1 : OperandA) ≠ 0 ∨ (0 : Word32) ≠ 0) ∧ exec .clr treeAB = .next (go .clr treeAB) ∧
      treeAB.phase = .built ∧ (go .clr treeAB).phase = .uninit :=
  ⟨by decide, rfl, by decide, by decide⟩

theorem witness_RdregReadsTheRegisterTable :
    (9 : OperandA).toNat ≤ 9 ∧ 9 < (10 : OperandA).toNat ∧ (1 : Word32) ≠ 0 := by decide

theorem witness_WsymAppendsTheSymbol :
    (1 : Word32) ≠ 0 ∧ textAB.symlen.toNat = textAB.params.symCap ∧
      (go (.wsym 0x61) treeAB).symlen.toNat + 1 = treeAB.params.symCap := by decide

theorem witness_RsymReadsTheSymbol :
    (1 : OperandA) ≠ 0 ∧ textAB.symlen.toNat ≤ (2 : Word32).toNat ∧
      (1 : Word32).toNat < textAB.symlen.toNat := by decide

theorem witness_ClrsEmptiesTheSymbols : (0 : OperandA) ≠ 0 ∨ (1 : Word32) ≠ 0 := by decide

theorem witness_FcountCountsTheSymbols :
    ((1 : OperandA) ≠ 0 ∨ (0 : Word32) ≠ 0) ∧ treeAB.phase = .built ∧
      (go (.wsym 0x61) fresh).phase = .uninit := by decide

theorem witness_FsetWritesOneCount :
    treeAB.phase = .built ∧ fresh.phase = .uninit ∧ (0x62 : Symbol) ≠ 0x61 := by decide

theorem witness_FgetReadsTheCount : (1 : Word32) ≠ 0 := by decide

theorem witness_ExtractMinTakesTheFirstKey : ([2, 0, 1] : List Nat) ≠ [] ∧ [2, 0, 1].Nodup := by
  decide

theorem witness_BuildMakesTheTree : (goAll [.fset 0x61 1, .fset 0x62 1] fresh).phase = .uninit := by
  decide

theorem witness_MergesTakeTheTwoLowestKeys :
    let s := goAll [.fset 0x61 2, .fset 0x62 2, .fset 0x63 1] fresh
    s.phase = .uninit ∧ exec .build s = .next treeABC ∧ treeABC.nsyms.toNat ≤ 4 ∧
      4 < treeABC.nnodes.toNat :=
  ⟨rfl, rfl, by decide +kernel, by decide +kernel⟩

theorem witness_BuildDependsOnTheCountsAlone :
    let s := goAll [.fset 0x61 1, .fset 0x62 1] fresh
    let t := goAll [.wsym 0x62, .wsym 0x61, .fcount, .wbyte 7] State.reset
    s.phase = .uninit ∧ t.phase = .uninit ∧ ∀ a : Symbol, s.freqAt a = t.freqAt a :=
  ⟨rfl, by decide, by decide +kernel⟩

theorem witness_BuildOfNoneAndOfOneSymbol :
    (fresh.phase = .uninit ∧ ∀ a : Symbol, fresh.freqAt a = 0) ∧
      (let s := go (.fset 0x61 4) fresh
       s.phase = .uninit ∧ s.freqAt 0x61 ≠ 0 ∧ ∀ a : Symbol, a ≠ 0x61 → s.freqAt a = 0) := by
  decide +kernel

theorem witness_NgetReadsTheNode :
    (2 : OperandA).toNat ≤ 2 ∧ 2 < (3 : OperandA).toNat ∧
      treeAB.nnodes.toNat ≤ (3 : Word32).toNat ∧ (2 : Word32).toNat < treeAB.nnodes.toNat ∧
      treeAB.TreeOk ∧ (1 : Word32).toNat < treeAB.nsyms.toNat :=
  ⟨by decide, by decide, by decide +kernel, by decide +kernel,
    treeAB_inv.tree.2 (by decide), by decide +kernel⟩

theorem witness_BuildDerivesTheCodes : fresh.phase = .uninit := rfl

theorem witness_CgetReadsTheCode :
    (8 : Word32).toNat ≤ 8 ∧ 8 < (9 : Word32).toNat ∧ 1 ≤ (1 : Word32).toNat ∧
      (1 : Word32).toNat ≤ 8 ∧ 31 < 32 := by decide

theorem witness_PackAndUnpackObeyTheirLaw :
    0 < (([true] : List Bool).length + 7) / 8 ∧ 7 < 8 ∧ 0 < ([0x80] : List Byte).length := by decide

theorem witness_WbyteAppendsTheByte :
    (1 : Word32) ≠ 0 ∧
      (let s := goAll [.wbyte 1, .wbyte 2] treeAB
       s.bytelen = s.params.byteCap) ∧
      (streamAB.bytelen < streamAB.params.byteCap ∧ streamAB.BuffersOk ∧
        streamAB.bitlen.toNat ≤ 7 ∧ 7 < 8 * streamAB.bytelen) :=
  ⟨by decide, by decide +kernel, by decide +kernel, streamAB_inv.buffers, by decide +kernel,
    by decide +kernel⟩

theorem witness_RbyteReadsTheByte :
    (1 : OperandA) ≠ 0 ∧ streamA.bytelen ≤ (1 : Word32).toNat ∧
      (0 : Word32).toNat < streamA.bytelen := by decide +kernel

theorem witness_ClrbEmptiesTheStream : (0 : OperandA) ≠ 0 ∨ (1 : Word32) ≠ 0 := by decide

theorem witness_BputAppendsTheBits :
    (1 ≤ (32 : OperandA).toNat ∧ (32 : OperandA).toNat ≤ 32) ∧
    ((0 : OperandA).toNat = 0 ∨ 32 < (0 : OperandA).toNat) ∧ 32 < (33 : OperandA).toNat ∧
    8 * streamAB.params.byteCap < streamAB.bitlen.toNat + (15 : OperandA).toNat ∧
    streamAB.BuffersOk ∧
    streamAB.bitlen.toNat + (14 : OperandA).toNat ≤ 8 * streamAB.params.byteCap ∧
    ∀ k, k < (14 : OperandA).toNat →
      (0xFFFFC000 : Word32).getLsbD k = (0x00000000 : Word32).getLsbD k :=
  ⟨by decide, by decide, by decide, by decide +kernel, streamAB_inv.buffers, by decide +kernel,
    by decide⟩

theorem witness_BgetReadsTheBits :
    (1 ≤ (32 : OperandA).toNat ∧ (32 : OperandA).toNat ≤ 32) ∧ (0 : OperandA).toNat = 0 ∧
    32 < (33 : OperandA).toNat ∧
    8 * streamA.bytelen < (1 : Word32).toNat + (8 : OperandA).toNat ∧
    (0 : Word32).toNat + (8 : OperandA).toNat ≤ 8 * streamA.bytelen := by decide +kernel

theorem witness_BufferHoldsThePackedValidBits :
    streamAB.BuffersOk ∧ streamAB.bitlen.toNat ≤ 2 ∧ 2 < 8 * streamAB.bytelen :=
  ⟨streamAB_inv.buffers, by decide +kernel, by decide +kernel⟩

/-- A text of three symbols whose last has no code, and one whose last does not fit one byte. -/
def roomy : Params := ⟨20, 1, by decide, by decide, by decide, by decide⟩

/-- Nine symbols with one-bit codes, one more than the single byte holds. -/
def textNine : State :=
  goAll ([.fset 0x61 1, .fset 0x62 1, .build] ++ List.replicate 9 (.wsym 0x62))
    (State.resetFor roomy)

theorem witness_EncodePacksTheCodes :
    fresh.phase = .uninit ∧
    (textAB.phase = .built ∧ (∀ a ∈ textAB.symbols, textAB.codeAt a ≠ []) ∧
      (textAB.codesOf textAB.symbols).length ≤ 8 * textAB.params.byteCap) ∧
    (let s := goAll [.wsym 0x61, .wsym 0x63] treeAB
     s.phase = .built ∧ s.symbols = [0x61] ++ 0x63 :: [] ∧ (∀ b ∈ [0x61], s.codeAt b ≠ []) ∧
       (s.codesOf [0x61]).length ≤ 8 * s.params.byteCap ∧ s.codeAt 0x63 = []) ∧
    (textNine.phase = .built ∧ textNine.symbols = List.replicate 8 0x62 ++ 0x62 :: [] ∧
      (∀ b ∈ List.replicate 8 (0x62 : Symbol), textNine.codeAt b ≠ []) ∧
      (textNine.codesOf (List.replicate 8 0x62)).length ≤ 8 * textNine.params.byteCap ∧
      8 * textNine.params.byteCap <
        (textNine.codesOf (List.replicate 8 0x62)).length + (textNine.codeAt 0x62).length) := by
  decide +kernel

theorem witness_EncodeOfEmptyTextOrEmptyTree :
    (treeAB.phase = .built ∧ treeAB.symlen = 0) ∧
      (streamNone.Inv ∧ streamNone.phase = .built ∧ streamNone.nsyms = 0 ∧
        streamNone.symlen ≠ 0) :=
  ⟨by decide, streamNone_inv, by decide +kernel, by decide +kernel, by decide +kernel⟩

theorem witness_DstepWalksOneBit :
    (1 : OperandA).toNat ≤ 1 ∧ 1 < (2 : OperandA).toNat ∧ (1 : Word32) ≠ 0 ∧
    fresh.phase = .uninit ∧ (treeNone.phase = .built ∧ treeNone.root = NIL) ∧
    (treeA.root ≠ NIL ∧ (treeA.nodeAt treeA.root.toNat).leaf = true) ∧
    (treeABC.root ≠ NIL ∧ (treeABC.nodeAt treeABC.root.toNat).leaf = false ∧
      (treeABC.nodeAt (treeABC.nodeAt treeABC.cur.toNat).left.toNat).leaf = true ∧
      (treeABC.nodeAt (treeABC.nodeAt treeABC.cur.toNat).right.toNat).leaf = false) := by
  decide +kernel

theorem witness_DrstReturnsToTheRoot :
    ((1 : OperandA) ≠ 0 ∨ (0 : Word32) ≠ 0) ∧ fresh.phase = .uninit ∧ midABC.phase = .built ∧
      midABC.cur ≠ midABC.root := by decide +kernel

theorem witness_DecodeTestsPhaseThenRange :
    (1 : OperandA) ≠ 0 ∧ fresh.phase = .uninit ∧ streamA.phase = .built ∧
      8 * streamA.bytelen < (9 : Word32).toNat := by decide +kernel

theorem witness_DecodeReadsTheCodesBack :
    streamAB.Inv ∧ streamAB.phase = .built ∧
      (∀ a ∈ [0x61, 0x62], streamAB.codeAt a ≠ []) ∧
      [0x61, 0x62].length ≤ streamAB.params.symCap ∧
      (2 : Word32).toNat ≤ 8 * streamAB.bytelen ∧
      streamAB.streamBits 0 (2 : Word32).toNat = streamAB.codesOf [0x61, 0x62] :=
  ⟨streamAB_inv, by decide +kernel, by decide +kernel, by decide +kernel, by decide +kernel,
    by decide +kernel⟩

theorem witness_DecodeReportsATruncatedStream :
    (streamABC.Inv ∧ streamABC.phase = .built ∧ (∀ a ∈ [0x63, 0x62], streamABC.codeAt a ≠ []) ∧
      ([0x63] : List Symbol).length ≤ streamABC.params.symCap ∧ ([true] : List Bool) ≠ [] ∧
      [true] <+: streamABC.codeAt 0x61 ∧ [true] ≠ streamABC.codeAt 0x61 ∧
      (1 : Word32).toNat ≤ 8 * streamABC.bytelen ∧
      streamABC.streamBits 0 (1 : Word32).toNat = streamABC.codesOf [] ++ [true]) ∧
    (streamA.Inv ∧ streamA.phase = .built ∧ streamA.nsyms.toNat ≤ 1 ∧
      exec (.decode 1) streamA = .next (go (.decode 1) streamA)) :=
  ⟨⟨streamABC_inv, by decide +kernel, by decide +kernel, by decide +kernel, by decide,
    by decide +kernel, by decide +kernel, by decide +kernel, by decide +kernel⟩,
   streamA_inv, by decide +kernel, by decide +kernel, rfl⟩

theorem witness_DecodeOfEmptyAndSingleLeafTrees :
    treeAB.phase = .built ∧
    (streamNone.Inv ∧ streamNone.phase = .built ∧ streamNone.nsyms = 0 ∧ (1 : Word32) ≠ 0 ∧
      (1 : Word32).toNat ≤ 8 * streamNone.bytelen) ∧
    (streamA.Inv ∧ streamA.phase = .built ∧ streamA.nsyms = 1 ∧
      (2 : Word32).toNat ≤ 8 * streamA.bytelen ∧ (2 : Word32).toNat ≤ streamA.params.symCap ∧
      ∀ i, i < (2 : Word32).toNat → streamA.streamBit i = false) ∧
    (streamA1.Inv ∧ streamA1.phase = .built ∧ streamA1.nsyms = 1 ∧
      (8 : Word32).toNat ≤ 8 * streamA1.bytelen ∧ 2 < (8 : Word32).toNat ∧
      2 ≤ streamA1.params.symCap ∧ (∀ j, j < 2 → streamA1.streamBit j = false) ∧
      streamA1.streamBit 2 = true) :=
  ⟨by decide, ⟨streamNone_inv, by decide +kernel, by decide +kernel, by decide, by decide +kernel⟩,
   ⟨streamA_inv, by decide +kernel, by decide +kernel, by decide +kernel, by decide +kernel,
    by decide +kernel⟩,
   ⟨streamA1_inv, by decide +kernel, by decide +kernel, by decide +kernel, by decide,
    by decide +kernel, by decide +kernel, by decide +kernel⟩⟩

theorem witness_DecodeReportsAFullSymbolBuffer :
    streamA.Inv ∧ streamA.phase = .built ∧ (∀ a ∈ [0x61, 0x61, 0x61], streamA.codeAt a ≠ []) ∧
      [0x61, 0x61, 0x61].length = streamA.params.symCap + 1 ∧
      (8 : Word32).toNat ≤ 8 * streamA.bytelen ∧
      streamA.streamBits 0 (8 : Word32).toNat =
        streamA.codesOf [0x61, 0x61, 0x61] ++ List.replicate 5 false :=
  ⟨streamA_inv, by decide +kernel, by decide +kernel, by decide +kernel, by decide +kernel,
    by decide +kernel⟩

theorem witness_DecodeUndoesEncode :
    textAB.Inv ∧ exec .encode textAB = .next streamAB ∧ streamAB.rsp = some ⟨.ok, 2⟩ :=
  ⟨textAB_inv, rfl, by decide +kernel⟩

/-- A text that fills SYMBUF, its stream, and a second instance of the same size. -/
theorem witness_RoundTripFromReset :
    let text : List Symbol := [0x61, 0x62]
    let built := goAll (text.map .wsym ++ [.fcount, .build]) fresh
    let t := go .encode built
    text.length ≤ tiny.symCap ∧ (built.codesOf text).length ≤ 8 * tiny.byteCap ∧
      t.rsp = some ⟨.ok, 2⟩ ∧ t.bytelen ≤ tiny.byteCap := by decide +kernel

end Sys2Proof.Tests
end

section
/-! PROOFS. What one command and one step can do, whatever the command: the answer, and the
fields no command touches (spec/10_state.md R14, spec/30_encoding.md R55). -/

namespace Sys2Proof.Machine

/-- The result `x` of a command run in `s` is one next state with a response, in which the
parameters and the host's events are those of `s`. -/
def Answers (s : State) (x : Result) : Prop :=
  ∃ t r, x = .next t ∧ t.rsp = some r ∧ t.params = s.params ∧ t.inputs = s.inputs

theorem Answers.respondOk (d : Word32) (s : State) : Answers s (respondOk d s) :=
  ⟨_, _, rfl, rfl, rfl, rfl⟩

theorem Answers.raise (e : ErrorKind) (info : Word32) (s : State) : Answers s (raise e info s) :=
  ⟨_, _, rfl, rfl, rfl, rfl⟩

/-- A command may go on from a state `u` it has made of `s`. -/
theorem Answers.trans {s u : State} {x : Result} (h : Answers u x) (hp : u.params = s.params)
    (hi : u.inputs = s.inputs) : Answers s x := by
  obtain ⟨t, r, hx, hr, htp, hti⟩ := h
  exact ⟨t, r, hx, hr, htp.trans hp, hti.trans hi⟩

theorem Answers.ite {s : State} {x y : Result} {c : Prop} [Decidable c] (hx : Answers s x)
    (hy : Answers s y) : Answers s (if c then x else y) := by
  split
  · exact hx
  · exact hy

theorem Answers.encodeFrom (i : Nat) (syms : List Symbol) (s : State) :
    Answers s (encodeFrom i syms s) := by
  obtain ⟨t, r, hx, hr, hframe, _⟩ := encodeFrom_answers i syms s
  exact ⟨t, r, hx, hr, by rw [hframe], by rw [hframe]⟩

theorem Answers.decodeFrom (i start : Nat) (bits : List Bool) (s : State) :
    Answers s (decodeFrom i start bits s) := by
  obtain ⟨t, r, hx, hr, hframe, _⟩ := decodeFrom_answers i start bits s
  exact ⟨t, r, hx, hr, by rw [hframe], by rw [hframe]⟩

@[simp] theorem State.appendBits_params (s : State) (bits : List Bool) :
    (s.appendBits bits).params = s.params := by
  rw [s.appendBits_frame bits]

@[simp] theorem State.appendBits_inputs (s : State) (bits : List Bool) :
    (s.appendBits bits).inputs = s.inputs := by
  rw [s.appendBits_frame bits]

/-- The state WalkStep leaves is `s` with some CUR. -/
theorem State.eq_setCur_of_walkStep {s t : State} {b : Bool} {res : WalkResult}
    (h : s.walkStep b = (res, t)) : t = s.setCur t.cur := by
  simpa [h] using s.walkStep_frame b

theorem execDstep_answers (a : OperandA) (s : State) : Answers s (execDstep a s) := by
  refine .ite (.raise _ _ _) ?_
  split
  · exact .raise _ _ _
  · split <;> rename_i hwalk <;> rw [State.eq_setCur_of_walkStep hwalk]
    · exact (Answers.raise _ _ _).trans rfl rfl
    · exact (Answers.respondOk _ _).trans rfl rfl
    · exact (Answers.respondOk _ _).trans rfl rfl

/-- R55: every command in every state answers once, and touches neither the parameters nor the
host's events. -/
theorem exec_answers (i : Instr) (s : State) : Answers s (exec i s) := by
  cases i with
  | nop => exact .respondOk _ _
  | clr => exact (Answers.respondOk _ s.clear).trans rfl rfl
  | rdreg a => exact .ite (.raise _ _ _) (.respondOk _ _)
  | wsym a => exact .ite (.raise _ _ _) ((Answers.respondOk _ (s.pushSymbol a)).trans rfl rfl)
  | rsym d => exact .ite (.raise _ _ _) (.respondOk _ _)
  | clrs => exact (Answers.respondOk _ s.emptySymbols).trans rfl rfl
  | fcount =>
    simp only [exec, execFcount]
    split
    · exact .raise _ _ _
    · exact (Answers.respondOk _ _).trans rfl rfl
  | fset a d =>
    simp only [exec, execFset]
    split
    · exact .raise _ _ _
    · exact (Answers.respondOk _ _).trans rfl rfl
  | fget a => exact .respondOk _ _
  | build =>
    simp only [exec, execBuild]
    split
    · exact .raise _ _ _
    · exact (Answers.respondOk _ _).trans s.build_params s.build_inputs
  | nget a d => exact .ite (.raise _ _ _) (.ite (.raise _ _ _) (.respondOk _ _))
  | cget a d => exact .ite (.raise _ _ _) (.ite (.respondOk _ _) (.respondOk _ _))
  | wbyte a => exact .ite (.raise _ _ _) ((Answers.respondOk _ _).trans rfl rfl)
  | rbyte d => exact .ite (.raise _ _ _) (.respondOk _ _)
  | clrb => exact (Answers.respondOk _ s.emptyStream).trans rfl rfl
  | bput a d =>
    exact .ite (.raise _ _ _) (.ite (.raise _ _ _) ((Answers.respondOk _ _).trans
      (s.appendBits_params _) (s.appendBits_inputs _)))
  | bget a d => exact .ite (.raise _ _ _) (.ite (.raise _ _ _) (.respondOk _ _))
  | encode =>
    simp only [exec, execEncode]
    split
    · exact .raise _ _ _
    · exact (Answers.encodeFrom _ _ _).trans rfl rfl
  | decode d =>
    simp only [exec, execDecode]
    split
    · exact .raise _ _ _
    · exact .ite (.raise _ _ _) ((Answers.decodeFrom _ _ _ _).trans rfl rfl)
  | dstep a => exact execDstep_answers a s
  | drst =>
    simp only [exec, execDrst]
    split
    · exact .raise _ _ _
    · exact (Answers.respondOk _ (s.setCur s.root)).trans rfl rfl

/-- Everything a step can be: idle, a reset, a legal command, or an illegal word. -/
theorem step_cases (s : State) :
    (s.inputs = [] ∧ step s = .next s) ∨
    (∃ rest, s.inputs = .reset :: rest ∧ step s = .next (s.takeEvent rest).hostReset) ∨
    (∃ w rest i, s.inputs = .command w :: rest ∧ decode w = .ok i ∧
      step s = exec i (s.takeEvent rest)) ∨
    (∃ w rest e, s.inputs = .command w :: rest ∧ decode w = .error e ∧
      step s = answerIllegal (s.takeEvent rest)) := by
  unfold step
  split
  case h_1 hin => exact .inl ⟨hin, rfl⟩
  case h_2 rest hin => exact .inr (.inl ⟨rest, hin, rfl⟩)
  case h_3 w rest hin =>
    split
    · exact .inr (.inr (.inl ⟨w, rest, _, hin, ‹_›, rfl⟩))
    · exact .inr (.inr (.inr ⟨w, rest, _, hin, ‹_›, rfl⟩))

theorem Answers.params_eq {s t : State} {x : Result} (h : Answers s x) (hx : x = .next t) :
    t.params = s.params := by
  obtain ⟨u, _, hu, _, hp, _⟩ := h
  obtain rfl : u = t := by simpa [hu] using hx
  exact hp

/-- R14: no step changes the parameters. -/
theorem step_params {s t : State} (h : step s = .next t) : t.params = s.params := by
  obtain ⟨_, hs⟩ | ⟨rest, _, hs⟩ | ⟨_, rest, i, _, _, hs⟩ | ⟨_, rest, _, _, _, hs⟩ := step_cases s
  · obtain rfl : s = t := by simpa [hs] using h
    rfl
  · obtain rfl : (s.takeEvent rest).hostReset = t := by simpa [hs] using h
    rfl
  · exact (exec_answers i (s.takeEvent rest)).params_eq (hs.symm.trans h)
  · exact (Answers.raise _ _ (s.takeEvent rest)).params_eq (hs.symm.trans h)

end Sys2Proof.Machine
end

section
/-! PROOFS. The statement of spec/00_scope.md. -/

namespace Sys2Proof

/-- R8: exactly the capacities outside the bounds are refused. -/
theorem Params.make?_eq_none_iff (m n : Nat) :
    Params.make? m n = none ↔
      ¬ (1 ≤ m ∧ m ≤ 2 ^ 32 - 1 ∧ 1 ≤ n ∧ n ≤ 2 ^ 29 - 1) := by
  simp [Params.make?, and_assoc]

open Sys2Proof.Machine

/-- Settles O10: R8's check is `Params.make?`, its bounds are fields of `Params`, and no step changes
the parameters. -/
theorem parametersStayInBoundsAndFixed : Obligations.ParametersStayInBoundsAndFixed :=
  ⟨Params.make?_eq_none_iff,
    fun s => ⟨s.params.symCap_pos, s.params.symCap_le, s.params.byteCap_pos, s.params.byteCap_le⟩,
    fun _ _ => step_params⟩

end Sys2Proof
end

section
/-! PROOFS. What a command can do to the state, said once: every command answers after a sequence of
changes from a short list, so a predicate that each change keeps is kept by every step (10_state.md
R34). -/

namespace Sys2Proof.Machine

/-- FREQ <- f. -/
def State.setFreq (s : State) (f : Cells Count) : State := { s with freq := f }

/-- BYTEBUF[BYTELEN] <- a; BITLEN <- 8·(BYTELEN + 1): what a WBYTE with room does
(`execWbyte_of_room`). -/
def State.putByte (s : State) (a : OperandA) : State :=
  { s with
    bytebuf := s.bytebuf.write s.bytelen a
    bitlen := BitVec.ofNat 32 (8 * (s.bytelen + 1)) }

theorem execWbyte_of_room {s : State} (a : OperandA) (room : s.bytelen ≠ s.params.byteCap) :
    execWbyte a s = respondOk 0 (s.putByte a) := by
  simp [execWbyte, room, State.putByte]

/-- One change that the command `i` makes to the state on its way to the response, with the
condition under which it makes it. -/
inductive Change (i : Instr) (s : State) : State → Prop
  | clear (hi : i = .clr) : Change i s s.clear
  | push (a : Symbol) (room : s.symlen.toNat ≠ s.params.symCap) : Change i s (s.pushSymbol a)
  | emptySymbols : Change i s s.emptySymbols
  | setCount (a : Symbol) (d : Count) (hp : s.phase = .uninit) :
      Change i s (s.setFreq (writeFreq s.freq a d))
  | count (hp : s.phase = .uninit) : Change i s (s.setFreq (countSymbols s.symbols))
  | build (hi : i = .build) (hp : s.phase = .uninit) : Change i s s.build
  | putByte (a : OperandA) (room : s.bytelen ≠ s.params.byteCap) : Change i s (s.putByte a)
  | emptyStream : Change i s s.emptyStream
  | appendBit (b : Bool) (room : s.bitlen.toNat < 8 * s.params.byteCap) :
      Change i s (s.appendBit b)
  | walk (b : Bool) (hp : s.phase = .built) : Change i s (s.walkStep b).2
  | toRoot (hp : s.phase = .built) : Change i s (s.setCur s.root)

/-- Any number of changes, one after the other. -/
abbrev Changes (i : Instr) : State → State → Prop := Relation.ReflTransGen (Change i)

/-- The result `x` is a response to `s` after changes of the command `i`. -/
def ChangesAndAnswers (i : Instr) (s : State) (x : Result) : Prop :=
  ∃ u r, x = .next (State.answer u r) ∧ Changes i s u

section
variable {i : Instr} {s u : State} {x y : Result}

theorem Changes.respondOk (h : Changes i s u) (d : Word32) :
    ChangesAndAnswers i s (respondOk d u) := ⟨u, _, rfl, h⟩

theorem Changes.raise (h : Changes i s u) (e : ErrorKind) (info : Word32) :
    ChangesAndAnswers i s (raise e info u) := ⟨u, _, rfl, h⟩

theorem ChangesAndAnswers.ite {c : Prop} [Decidable c] (hx : c → ChangesAndAnswers i s x)
    (hy : ¬ c → ChangesAndAnswers i s y) : ChangesAndAnswers i s (if c then x else y) := by
  split
  · exact hx ‹_›
  · exact hy ‹_›

theorem Changes.appendBits (bits : List Bool) (s : State)
    (room : s.bitlen.toNat + bits.length ≤ 8 * s.params.byteCap) :
    Changes i s (s.appendBits bits) := by
  induction bits generalizing s with
  | nil => exact .refl
  | cons b rest ih =>
    simp only [List.length_cons] at room
    have := s.params.byteCap_le
    have hb : (s.appendBit b).bitlen.toNat = s.bitlen.toNat + 1 := by
      simp only [State.appendBit_bitlen, BitVec.toNat_ofNat]
      omega
    refine .head (.appendBit b (by omega)) (ih _ ?_)
    rw [hb, State.appendBit_params]
    omega

theorem Changes.emptyOutput (hp : s.phase = .built) : Changes i s s.emptyOutput :=
  .tail (.single .emptySymbols) (.toRoot hp)

/-- The loop of ENCODE changes the state by appending bits and by emptying the stream. -/
theorem Changes.encodeFrom (k : Nat) (syms : List Symbol) (u : State) (h : Changes i s u) :
    ChangesAndAnswers i s (encodeFrom k syms u) := by
  induction syms generalizing k u with
  | nil => exact h.respondOk _
  | cons a rest ih =>
    refine .ite (fun _ => Changes.raise (h.tail .emptyStream) _ _) fun _ =>
      .ite (fun _ => Changes.raise (h.tail .emptyStream) _ _) fun room => ih _ _ (h.trans ?_)
    exact Changes.appendBits _ _ (by simp only [State.codeLen] at room; omega)

theorem State.walkStep_phase {b : Bool} {res : WalkResult} {t : State}
    (hw : s.walkStep b = (res, t)) : t.phase = s.phase := by
  rw [State.eq_setCur_of_walkStep hw]; rfl

theorem Changes.walk {b : Bool} {res : WalkResult} {t : State} (hp : s.phase = .built)
    (hw : s.walkStep b = (res, t)) : Changes i s t := by
  simpa [hw] using Relation.ReflTransGen.single (Change.walk (i := i) b hp)

/-- The loop of DECODE changes the state by walking, by appending symbols and by emptying the
output. -/
theorem Changes.decodeFrom (k start : Nat) (bits : List Bool) (u : State) (h : Changes i s u)
    (hp : u.phase = .built) : ChangesAndAnswers i s (decodeFrom k start bits u) := by
  induction bits generalizing k start u with
  | nil =>
    exact .ite (fun _ => Changes.raise (h.trans (Changes.emptyOutput hp)) _ _) fun _ =>
      h.respondOk _
  | cons b rest ih =>
    simp only [Machine.decodeFrom]
    split
    all_goals
      rename_i t hw
      have ht : Changes i s t := h.trans (Changes.walk hp hw)
      have htp : t.phase = .built := (State.walkStep_phase hw).trans hp
    · exact Changes.raise (ht.trans (Changes.emptyOutput htp)) _ _
    · exact ih _ _ _ ht htp
    · exact .ite (fun _ => Changes.raise (ht.trans (Changes.emptyOutput htp)) _ _) fun room =>
        ih _ _ _ (ht.tail (.push _ room)) htp

theorem execDstep_changes (a : OperandA) (s : State) :
    ChangesAndAnswers i s (execDstep a s) := by
  refine .ite (fun _ => Changes.raise .refl _ _) fun _ => ?_
  split
  · exact Changes.raise .refl _ _
  · rename_i hp
    split <;> rename_i hw
    · exact Changes.raise (Changes.walk hp hw) _ _
    · exact Changes.respondOk (Changes.walk hp hw) _
    · exact Changes.respondOk (Changes.walk hp hw) _

/-- What every command does: changes of the list, and then its response. -/
theorem exec_changes (i : Instr) (s : State) : ChangesAndAnswers i s (exec i s) := by
  have same : Changes i s s := .refl
  cases i with
  | nop => exact same.respondOk _
  | clr => exact Changes.respondOk (.single (.clear rfl)) _
  | rdreg a => exact .ite (fun _ => same.raise _ _) fun _ => same.respondOk _
  | wsym a =>
    exact .ite (fun _ => same.raise _ _) fun room => Changes.respondOk (.single (.push a room)) _
  | rsym d => exact .ite (fun _ => same.raise _ _) fun _ => same.respondOk _
  | clrs => exact Changes.respondOk (.single .emptySymbols) _
  | fcount =>
    simp only [exec, execFcount]
    split
    · exact same.raise _ _
    · exact Changes.respondOk (.single (.count ‹_›)) _
  | fset a d =>
    simp only [exec, execFset]
    split
    · exact same.raise _ _
    · exact Changes.respondOk (.single (.setCount a d ‹_›)) _
  | fget a => exact same.respondOk _
  | build =>
    simp only [exec, execBuild]
    split
    · exact same.raise _ _
    · exact Changes.respondOk (.single (.build rfl ‹_›)) _
  | nget a d =>
    exact .ite (fun _ => same.raise _ _) fun _ =>
      .ite (fun _ => same.raise _ _) fun _ => same.respondOk _
  | cget a d =>
    exact .ite (fun _ => same.raise _ _) fun _ =>
      .ite (fun _ => same.respondOk _) fun _ => same.respondOk _
  | wbyte a =>
    exact .ite (fun _ => same.raise _ _) fun room =>
      Changes.respondOk (.single (.putByte a room)) _
  | rbyte d => exact .ite (fun _ => same.raise _ _) fun _ => same.respondOk _
  | clrb => exact Changes.respondOk (.single .emptyStream) _
  | bput a d =>
    refine .ite (fun _ => same.raise _ _) fun _ => .ite (fun _ => same.raise _ _) fun room =>
      Changes.respondOk (Changes.appendBits _ _ ?_) _
    simp only [operandBits, List.length_map, List.length_range]
    omega
  | bget a d =>
    exact .ite (fun _ => same.raise _ _) fun _ =>
      .ite (fun _ => same.raise _ _) fun _ => same.respondOk _
  | encode =>
    simp only [exec, execEncode]
    split
    · exact same.raise _ _
    · exact Changes.encodeFrom _ _ _ (.single .emptyStream)
  | decode d =>
    simp only [exec, execDecode]
    split
    · exact same.raise _ _
    · rename_i hp
      exact .ite (fun _ => same.raise _ _) fun _ =>
        Changes.decodeFrom _ _ _ _ (Changes.emptyOutput hp) hp
  | dstep a => exact execDstep_changes a s
  | drst =>
    simp only [exec, execDrst]
    split
    · exact same.raise _ _
    · exact Changes.respondOk (.single (.toRoot ‹_›)) _

end

theorem exec_eq_next {i : Instr} {s t : State} (h : exec i s = .next t) :
    ∃ u r, t = u.answer r ∧ Changes i s u := by
  obtain ⟨u, r, hx, hu⟩ := exec_changes i s
  exact ⟨u, r, by simpa [hx] using h.symm, hu⟩

/-- A predicate that holds after reset and that each change, a response and a host event keep. -/
structure IsInvariant (P : State → Prop) : Prop where
  reset : ∀ p : Params, P (State.resetFor p)
  change : ∀ {i : Instr} {s u : State}, Change i s u → P s → P u
  answer : ∀ {s : State} (r : Response), P s → P (s.answer r)
  takeEvent : ∀ {s : State} (rest : List HostEvent), P s → P (s.takeEvent rest)

theorem IsInvariant.changes {P : State → Prop} (h : IsInvariant P) {i : Instr} {s u : State}
    (hu : Changes i s u) (hs : P s) : P u := by
  induction hu with
  | refl => exact hs
  | tail _ hc ih => exact h.change hc ih

/-- Every step keeps an invariant. -/
theorem IsInvariant.step {P : State → Prop} (h : IsInvariant P) {s t : State} (hs : P s)
    (hstep : step s = .next t) : P t := by
  obtain ⟨_, hx⟩ | ⟨rest, _, hx⟩ | ⟨_, rest, i, _, _, hx⟩ | ⟨_, rest, _, _, _, hx⟩ :=
    step_cases s <;> rw [hx] at hstep
  · obtain rfl : s = t := Host.Outcome.next.inj hstep
    exact hs
  · obtain rfl : ((State.resetFor s.params).takeEvent rest) = t := Host.Outcome.next.inj hstep
    exact h.takeEvent rest (h.reset s.params)
  · obtain ⟨u, r, rfl, hu⟩ := exec_eq_next hstep
    exact h.answer r (h.changes hu (h.takeEvent rest hs))
  · obtain rfl : (s.takeEvent rest).answer ⟨.error .illegal, 0⟩ = t := Host.Outcome.next.inj hstep
    exact h.answer _ (h.takeEvent rest hs)

end Sys2Proof.Machine
end

section
/-! PROOFS. The buffers stay within capacity and the pad positions stay 0 (10_state.md R31,
R34 (a)). -/

namespace Sys2Proof.Machine

variable {s t : State}

/-- BuffersOk reads the parameters and the two buffers with their lengths. -/
theorem State.BuffersOk.congr (h : s.BuffersOk) (hparams : t.params = s.params)
    (hsymlen : t.symlen = s.symlen) (hbitlen : t.bitlen = s.bitlen) (hsymbuf : t.symbuf = s.symbuf)
    (hbytebuf : t.bytebuf = s.bytebuf) : t.BuffersOk := by
  obtain ⟨symlen_le, bitlen_le, symbuf_lt, bytebuf_lt, pad_zero⟩ := h
  cases t
  subst hparams hsymlen hbitlen hsymbuf hbytebuf
  exact ⟨symlen_le, bitlen_le, symbuf_lt, bytebuf_lt, pad_zero⟩

/-- An empty SYMBUF is within capacity, whatever the cells hold. -/
theorem State.BuffersOk.emptySymbols (h : s.BuffersOk) : s.emptySymbols.BuffersOk where
  symlen_le := Nat.zero_le _
  bitlen_le := h.bitlen_le
  symbuf_lt := h.symbuf_lt
  bytebuf_lt := h.bytebuf_lt
  pad_zero := h.pad_zero

/-- An empty stream has no pad position, whatever the cells hold. -/
theorem State.BuffersOk.emptyStream (h : s.BuffersOk) : s.emptyStream.BuffersOk where
  symlen_le := h.symlen_le
  bitlen_le := Nat.zero_le _
  symbuf_lt := h.symbuf_lt
  bytebuf_lt := h.bytebuf_lt
  pad_zero i hi := by simp [State.bytelen] at hi

theorem State.BuffersOk.pushSymbol (h : s.BuffersOk) (a : Symbol)
    (room : s.symlen.toNat ≠ s.params.symCap) : (s.pushSymbol a).BuffersOk where
  symlen_le := by
    have := h.symlen_le
    have := s.params.symCap_le
    simp only [State.pushSymbol_symlen, State.pushSymbol_params, BitVec.toNat_ofNat]
    omega
  bitlen_le := h.bitlen_le
  symbuf_lt := writeCell_index_lt h.symbuf_lt (lt_of_le_of_ne h.symlen_le room)
  bytebuf_lt := h.bytebuf_lt
  pad_zero := h.pad_zero

/-- A whole byte appended leaves no pad position. -/
theorem State.BuffersOk.putByte (h : s.BuffersOk) (a : OperandA)
    (room : s.bytelen ≠ s.params.byteCap) : (s.putByte a).BuffersOk := by
  have hle := h.bitlen_le
  have hcap := s.params.byteCap_le
  have hlt : s.bytelen < s.params.byteCap := by simp only [State.bytelen] at room ⊢; omega
  have hlen : (s.putByte a).bitlen.toNat = 8 * (s.bytelen + 1) := by
    simp only [State.putByte, BitVec.toNat_ofNat]
    omega
  refine ⟨h.symlen_le, ?_, h.symbuf_lt, writeCell_index_lt h.bytebuf_lt hlt, ?_⟩
  · rw [hlen]
    exact Nat.mul_le_mul_left 8 hlt
  · intro i hi hpad
    rw [State.bytelen, hlen] at hi
    rw [hlen] at hpad
    omega

/-- Adding bits at positions `m` and above of a byte leaves the bits below `m`. -/
theorem getLsbD_add_mul_two_pow (c : Byte) (n : Nat) {k m : Nat} (hk : k < m) (hm : m < 8) :
    (c + BitVec.ofNat 8 (n * 2 ^ m)).getLsbD k = c.getLsbD k := by
  have hmod : (c + BitVec.ofNat 8 (n * 2 ^ m)).toNat % 2 ^ m = c.toNat % 2 ^ m := by
    rw [BitVec.toNat_add, BitVec.toNat_ofNat, Nat.add_mod_mod,
      Nat.mod_mod_of_dvd _ (Nat.pow_dvd_pow 2 hm.le), Nat.add_mul_mod_self_right]
  have hbit := congrArg (Nat.testBit · k) hmod
  simpa [Nat.testBit_mod_two_pow, hk, BitVec.getLsbD] using hbit

/-- AppendBit leaves the positions after the appended one as they were in its byte: 0 in a byte it
starts. -/
theorem State.appendBit_streamBit_after {b : Bool} {i : Nat} (hi : s.bitlen.toNat < i)
    (hsame : i / 8 = s.bitlen.toNat / 8) :
    (s.appendBit b).streamBit i = if s.bitlen.toNat % 8 = 0 then false else s.streamBit i := by
  have hpos : 7 - i % 8 < 7 - s.bitlen.toNat % 8 := by omega
  simp only [State.streamBit, State.appendBit_bytebuf, hsame, Memory.read_write_same]
  rw [getLsbD_add_mul_two_pow _ _ hpos (by omega)]
  split
  · exact BitVec.getLsbD_zero
  · rfl

theorem State.BuffersOk.appendBit (h : s.BuffersOk) (b : Bool)
    (room : s.bitlen.toNat < 8 * s.params.byteCap) : (s.appendBit b).BuffersOk := by
  have hcap := s.params.byteCap_le
  have hlen : (s.appendBit b).bitlen.toNat = s.bitlen.toNat + 1 := by
    simp only [State.appendBit_bitlen, BitVec.toNat_ofNat]
    omega
  have hcell : s.bitlen.toNat / 8 < s.params.byteCap := by omega
  refine ⟨h.symlen_le, ?_, h.symbuf_lt, writeCell_index_lt h.bytebuf_lt hcell, ?_⟩
  · rw [hlen]
    exact room
  · intro i hi hpad
    rw [State.bytelen, hlen] at hi
    rw [hlen] at hpad
    rw [State.appendBit_streamBit_after (by omega) (by omega)]
    split
    · rfl
    · exact h.pad_zero i (by simp only [State.bytelen]; omega) (by omega)

theorem State.BuffersOk.setCur (h : s.BuffersOk) (i : NodeIdx) : (s.setCur i).BuffersOk :=
  h.congr rfl rfl rfl rfl rfl

theorem State.buffersOk_resetFor (p : Params) : (State.resetFor p).BuffersOk where
  symlen_le := Nat.zero_le _
  bitlen_le := Nat.zero_le _
  symbuf_lt := by simp [State.resetFor]
  bytebuf_lt := by simp [State.resetFor]
  pad_zero i hi := by simp [State.bytelen, State.resetFor] at hi

theorem State.BuffersOk.change {i : Instr} (hc : Change i s t) (h : s.BuffersOk) : t.BuffersOk := by
  cases hc with
  | clear => exact h.emptySymbols.emptyStream.congr rfl rfl rfl rfl rfl
  | push a room => exact h.pushSymbol a room
  | emptySymbols => exact h.emptySymbols
  | setCount => exact h.congr rfl rfl rfl rfl rfl
  | count => exact h.congr rfl rfl rfl rfl rfl
  | build => exact h.congr rfl rfl rfl rfl rfl
  | putByte a room => exact h.putByte a room
  | emptyStream => exact h.emptyStream
  | appendBit b room => exact h.appendBit b room
  | walk b =>
    rw [s.walkStep_frame b]
    exact h.setCur _
  | toRoot => exact h.setCur _

theorem State.buffersOk_isInvariant : IsInvariant State.BuffersOk where
  reset := State.buffersOk_resetFor
  change := State.BuffersOk.change
  answer _ h := h.congr rfl rfl rfl rfl rfl
  takeEvent _ h := h.congr rfl rfl rfl rfl rfl

/-- Settles O13: every change keeps the buffers within capacity and padded. -/
theorem buffersStayInCapacityAndPadded : Obligations.BuffersStayInCapacityAndPadded :=
  ⟨State.buffersOk_isInvariant.reset, fun _ _ => State.buffersOk_isInvariant.step⟩

end Sys2Proof.Machine
end

section
/-! PROOFS. What BUILD's seeding and merging make (42_tree_builder.md R75 to R80): an invariant of
the merge loop, and the shape of the finished arena. -/

namespace Sys2Proof.Machine

/-! ### The symbols that occur -/

/-- The symbols with a count above 0, in ascending value (10_state.md R34 (d)). -/
def occurring (freq : Symbol → Count) : List Symbol := allSymbols.filter (fun a => freq a ≠ 0)

/-- The sum of all counts. -/
def countSum (freq : Symbol → Count) : Nat := (allSymbols.map (fun a => (freq a).toNat)).sum

theorem State.distinctSymbols_eq (s : State) :
    s.distinctSymbols = (occurring s.freqAt).length := rfl

theorem State.freqSum_eq (s : State) : s.freqSum = countSum s.freqAt := rfl

theorem mem_allSymbols (a : Symbol) : a ∈ allSymbols :=
  List.mem_map.mpr ⟨a.toNat, List.mem_range.mpr a.isLt, by simp⟩

@[simp] theorem allSymbols_length : allSymbols.length = 256 := by simp [allSymbols, nsym]

theorem allSymbols_ascending : allSymbols.Pairwise (fun a b => a.toNat < b.toNat) := by
  refine List.pairwise_map.mpr (List.pairwise_lt_range.imp_of_mem ?_)
  intro i j hi hj hij
  simp only [List.mem_range, nsym] at hi hj
  simp only [BitVec.toNat_ofNat]
  omega

variable {freq : Symbol → Count}

@[simp] theorem mem_occurring {a : Symbol} : a ∈ occurring freq ↔ freq a ≠ 0 := by
  simp [occurring, mem_allSymbols]

theorem occurring_ascending : (occurring freq).Pairwise (fun a b => a.toNat < b.toNat) :=
  allSymbols_ascending.filter _

theorem occurring_length_le : (occurring freq).length ≤ 256 :=
  allSymbols_length ▸ List.length_filter_le _ _

/-- The counts cannot overflow the 40 bits of a weight (10_state.md R25). -/
theorem countSum_lt : countSum freq < 2 ^ 40 := by
  have hle := List.sum_le_card_nsmul (allSymbols.map fun a => (freq a).toNat) (2 ^ 32 - 1) (by
    intro n hn
    obtain ⟨a, _, rfl⟩ := List.mem_map.mp hn
    have := (freq a).isLt
    omega)
  simp only [List.length_map, allSymbols_length, smul_eq_mul] at hle
  exact lt_of_le_of_lt hle (by norm_num)

/-! ### Seeding -/

theorem seedLeaves_eq : seedLeaves freq = (occurring freq).map (fun a => leafNode a (freq a)) := by
  unfold seedLeaves occurring
  induction allSymbols with
  | nil => rfl
  | cons a rest ih => by_cases ha : freq a = 0#32 <;> simpa [ha] using ih

@[simp] theorem seedLeaves_length : (seedLeaves freq).length = (occurring freq).length := by
  simp [seedLeaves_eq]

theorem leafNode_wgt (a : Symbol) (n : Count) : (leafNode a n).wgt.toNat = n.toNat := by
  simp [leafNode, BitVec.toNat_setWidth]
  omega

theorem seedLeaves_weights :
    ((seedLeaves freq).map fun n => n.wgt.toNat).sum = countSum freq := by
  unfold seedLeaves countSum
  induction allSymbols with
  | nil => rfl
  | cons a rest ih => by_cases ha : freq a = 0#32 <;> simpa [ha, leafNode_wgt] using ih

/-! ### The arena -/

variable {nodes : List Node} {pq pq1 pq2 : List Nat} {i k l r : Nat}

theorem arenaAt_append_left (x : List Node) (hi : i < nodes.length) :
    arenaAt (nodes ++ x) i = arenaAt nodes i := by
  simp [arenaAt, List.getD_eq_getElem?_getD, List.getElem?_append_left hi]

@[simp] theorem arenaAt_append_new (n : Node) : arenaAt (nodes ++ [n]) nodes.length = n := by
  simp [arenaAt, List.getD_eq_getElem?_getD]

theorem arenaAt_of_prefix {leaves : List Node} (h : leaves <+: nodes) (hi : i < leaves.length) :
    arenaAt nodes i = arenaAt leaves i := by
  obtain ⟨x, rfl⟩ := h
  exact arenaAt_append_left x hi

theorem arenaAt_eq_getElem (hi : i < nodes.length) : arenaAt nodes i = nodes[i] := by
  simp [arenaAt, hi]

/-- The children of the nodes `lo .. hi - 1` of `node`, LEFT and RIGHT of each in order. -/
def childrenIn (node : Nat → Node) (lo hi : Nat) : List Nat :=
  (List.range' lo (hi - lo)).flatMap (fun i => [(node i).left.toNat, (node i).right.toNat])

theorem State.childrenOf_eq (s : State) (lo hi : Nat) :
    s.childrenOf lo hi = childrenIn s.nodeAt lo hi := rfl

section
variable {node other : Nat → Node} {lo hi j : Nat}

theorem childrenIn_length : (childrenIn node lo hi).length = 2 * (hi - lo) := by
  simp [childrenIn, List.length_flatMap, Nat.mul_comm]

theorem mem_childrenIn : j ∈ childrenIn node lo hi ↔
    ∃ i, lo ≤ i ∧ i < hi ∧ (j = (node i).left.toNat ∨ j = (node i).right.toNat) := by
  simp only [childrenIn, List.mem_flatMap, List.mem_range'_1, List.mem_cons, List.not_mem_nil,
    or_false]
  exact exists_congr fun i => by constructor <;> rintro ⟨_, _⟩ <;> omega

theorem childrenIn_congr (h : ∀ i, i < hi → node i = other i) :
    childrenIn node lo hi = childrenIn other lo hi := by
  refine List.flatMap_congr fun i hmem => ?_
  rw [List.mem_range'_1] at hmem
  rw [h i (by omega)]

theorem childrenIn_of_le (h : hi ≤ lo) : childrenIn node lo hi = [] := by
  simp [childrenIn, Nat.sub_eq_zero_of_le h]

/-- One node more adds its own two children. -/
theorem childrenIn_succ (h : lo ≤ hi) : childrenIn node lo (hi + 1) =
    childrenIn node lo hi ++ [(node hi).left.toNat, (node hi).right.toNat] := by
  unfold childrenIn
  rw [Nat.succ_sub h, List.range'_concat, List.flatMap_append, Nat.one_mul, Nat.add_sub_cancel' h]
  simp

end

/-! ### The queue -/

theorem foldl_keyBefore_mem (m : Nat) (pq : List Nat) :
    pq.foldl (fun m j => if keyBefore nodes j m then j else m) m ∈ m :: pq := by
  induction pq generalizing m with
  | nil => simp
  | cons j rest ih =>
    rw [List.foldl_cons]
    rcases List.mem_cons.mp (ih (if keyBefore nodes j m then j else m)) with heq | hmem
    · rw [heq]
      split <;> simp
    · exact List.mem_cons_of_mem _ (List.mem_cons_of_mem _ hmem)

/-- extractMin takes one of the waiting indices and leaves the others. -/
theorem extractMin_perm (h : extractMin nodes pq = some (k, pq1)) : pq.Perm (k :: pq1) := by
  rw [extractMin_erase h]
  cases pq with
  | nil => simp [extractMin] at h
  | cons i rest =>
    simp only [extractMin, Option.some.injEq, Prod.mk.injEq] at h
    exact List.perm_cons_erase (h.1 ▸ foldl_keyBefore_mem i rest)

theorem selectRoot_nil : selectRoot nodes [] = NIL := rfl

theorem selectRoot_singleton : selectRoot nodes [k] = BitVec.ofNat 9 k := rfl

/-! ### The invariant of the merge loop -/

/-- What holds of the arena and the queue before every pass of the merge loop (R78): the leaves come
first, each node after them is internal over two different earlier nodes and weighs what they weigh
together, each node is either one node's child or waits in the queue, and the waiting nodes weigh
together what the counts sum to. -/
structure Growing (freq : Symbol → Count) (nodes : List Node) (pq : List Nat) : Prop where
  seeds : seedLeaves freq <+: nodes
  internal : ∀ i, i < nodes.length → (occurring freq).length ≤ i →
    (arenaAt nodes i).leaf = false ∧ (arenaAt nodes i).sym = 0 ∧ (arenaAt nodes i).left.toNat < i ∧
      (arenaAt nodes i).right.toNat < i ∧ (arenaAt nodes i).left ≠ (arenaAt nodes i).right
  weights : ∀ i, i < nodes.length → (occurring freq).length ≤ i →
    (arenaAt nodes i).wgt.toNat = (arenaAt nodes (arenaAt nodes i).left.toNat).wgt.toNat +
      (arenaAt nodes (arenaAt nodes i).right.toNat).wgt.toNat
  parents : (childrenIn (arenaAt nodes) (occurring freq).length nodes.length ++ pq).Perm
    (List.range nodes.length)
  total : (pq.map fun i => (arenaAt nodes i).wgt.toNat).sum = countSum freq

theorem growing_seedLeaves (freq : Symbol → Count) :
    Growing freq (seedLeaves freq) (List.range (seedLeaves freq).length) where
  seeds := List.prefix_rfl
  internal i hi hS := by rw [seedLeaves_length] at hi; omega
  weights i hi hS := by rw [seedLeaves_length] at hi; omega
  parents := by simp [childrenIn]
  total := by
    rw [← seedLeaves_weights]
    congr 1
    refine List.ext_getElem (by simp) fun i hi _ => ?_
    have : i < (seedLeaves freq).length := by simpa using hi
    simp [arenaAt_eq_getElem this]

theorem Growing.occurring_le (h : Growing freq nodes pq) : (occurring freq).length ≤ nodes.length :=
  seedLeaves_length (freq := freq) ▸ h.seeds.length_le

/-- Each pass trades two waiting nodes for one new node. -/
theorem Growing.size (h : Growing freq nodes pq) :
    nodes.length + pq.length = 2 * (occurring freq).length := by
  have hle := h.occurring_le
  have hlen := h.parents.length_eq
  rw [List.length_append, childrenIn_length, List.length_range] at hlen
  omega

theorem Growing.lt_of_waits (h : Growing freq nodes pq) (hi : i ∈ pq) : i < nodes.length :=
  List.mem_range.mp (h.parents.subset (List.mem_append_right _ hi))

theorem Growing.nodup (h : Growing freq nodes pq) : pq.Nodup :=
  (List.nodup_append.mp (h.parents.nodup_iff.mpr List.nodup_range)).2.1

/-- The last node made is no node's child, so it waits. -/
theorem Growing.last_waits (h : Growing freq nodes pq) (hne : nodes ≠ []) :
    nodes.length - 1 ∈ pq := by
  have hpos : 0 < nodes.length := List.length_pos_iff.mpr hne
  have hmem : nodes.length - 1 ∈
      childrenIn (arenaAt nodes) (occurring freq).length nodes.length ++ pq :=
    h.parents.symm.subset (List.mem_range.mpr (by omega))
  rcases List.mem_append.mp hmem with hchild | hwaits
  · obtain ⟨i, hS, hi, hj⟩ := mem_childrenIn.mp hchild
    obtain ⟨_, _, hleft, hright, _⟩ := h.internal i hi hS
    omega
  · exact hwaits

/-- Two extractions take two of the waiting indices. -/
theorem extractMin_perm_of_two (hl : extractMin nodes pq = some (l, pq1))
    (hr : extractMin nodes pq1 = some (r, pq2)) : pq.Perm (l :: r :: pq2) :=
  (extractMin_perm hl).trans ((extractMin_perm hr).cons l)

section
variable (h : Growing freq nodes pq) (hl : extractMin nodes pq = some (l, pq1))
  (hr : extractMin nodes pq1 = some (r, pq2))
include h hl hr

/-- The two extracted nodes are different, are in the arena, and their indices fit IDX_W bits. -/
theorem Growing.extracted :
    l < nodes.length ∧ r < nodes.length ∧ l ≠ r ∧ nodes.length < 511 := by
  have hperm := extractMin_perm_of_two hl hr
  have hlen : pq.length = pq2.length + 2 := by simpa using hperm.length_eq
  have hS := occurring_length_le (freq := freq)
  have hsize := h.size
  have hnodup : (l :: r :: pq2).Nodup := hperm.nodup_iff.mp h.nodup
  refine ⟨h.lt_of_waits (hperm.symm.subset (by simp)), h.lt_of_waits (hperm.symm.subset (by simp)),
    ?_, by omega⟩
  rintro rfl
  simp at hnodup

theorem Growing.merged_left : (mergedNode nodes l r).left.toNat = l := by
  have := h.extracted hl hr
  simp only [mergedNode, BitVec.toNat_ofNat]
  omega

theorem Growing.merged_right : (mergedNode nodes l r).right.toNat = r := by
  have := h.extracted hl hr
  simp only [mergedNode, BitVec.toNat_ofNat]
  omega

/-- What waits beside the two extracted nodes, and they, weigh the sum of the counts. -/
theorem Growing.total_of_two :
    (arenaAt nodes l).wgt.toNat + ((arenaAt nodes r).wgt.toNat +
      (pq2.map fun i => (arenaAt nodes i).wgt.toNat).sum) = countSum freq := by
  rw [← h.total, ((extractMin_perm_of_two hl hr).map _).sum_eq]
  simp

theorem Growing.merged_wgt : (mergedNode nodes l r).wgt.toNat =
    (arenaAt nodes l).wgt.toNat + (arenaAt nodes r).wgt.toNat := by
  have htotal := h.total_of_two hl hr
  have hlt := countSum_lt (freq := freq)
  simp only [mergedNode, BitVec.toNat_ofNat]
  omega

theorem Growing.merge :
    Growing freq (nodes ++ [mergedNode nodes l r]) (pq2 ++ [nodes.length]) := by
  obtain ⟨hln, hrn, hlr, _⟩ := h.extracted hl hr
  have hleft := h.merged_left hl hr
  have hright := h.merged_right hl hr
  have hperm := extractMin_perm_of_two hl hr
  have hold : ∀ i, i < nodes.length →
      arenaAt (nodes ++ [mergedNode nodes l r]) i = arenaAt nodes i := fun _ =>
    arenaAt_append_left _
  have hcases : ∀ i, i < (nodes ++ [mergedNode nodes l r]).length →
      i < nodes.length ∨ i = nodes.length := by
    intro i hi
    simp only [List.length_append, List.length_singleton] at hi
    omega
  constructor
  case seeds => exact h.seeds.trans (List.prefix_append _ _)
  case internal =>
    intro i hi hS
    rcases hcases i hi with hi | rfl
    · rw [hold i hi]
      exact h.internal i hi hS
    · rw [arenaAt_append_new, hleft, hright]
      refine ⟨rfl, rfl, hln, hrn, fun heq => hlr ?_⟩
      exact hleft.symm.trans ((congrArg BitVec.toNat heq).trans hright)
  case weights =>
    intro i hi hS
    rcases hcases i hi with hi | rfl
    · obtain ⟨_, _, hli, hri, _⟩ := h.internal i hi hS
      rw [hold i hi, hold _ (by omega), hold _ (by omega)]
      exact h.weights i hi hS
    · rw [arenaAt_append_new, hleft, hright, hold l hln, hold r hrn]
      exact h.merged_wgt hl hr
  case parents =>
    rw [List.length_append, List.length_singleton, childrenIn_succ h.occurring_le,
      childrenIn_congr hold, arenaAt_append_new, hleft, hright, List.range_succ]
    have hwaits : (childrenIn (arenaAt nodes) (occurring freq).length nodes.length ++
        (l :: r :: pq2)).Perm (List.range nodes.length) :=
      (hperm.symm.append_left _).trans h.parents
    simpa using hwaits.append_right [nodes.length]
  case total =>
    have hwaits : ∀ i ∈ pq2, i < nodes.length := fun i hi =>
      h.lt_of_waits (hperm.symm.subset (by simp [hi]))
    rw [List.map_append, List.sum_append, ← h.total_of_two hl hr,
      List.map_congr_left fun i hi => by rw [hold i (hwaits i hi)]]
    simp only [List.map_singleton, List.sum_singleton, arenaAt_append_new, h.merged_wgt hl hr]
    omega

end

/-- The loop ends with at most one node waiting, if it may run one pass fewer than there are nodes
in the queue. -/
theorem Growing.mergeLoop (fuel : Nat) (h : Growing freq nodes pq) (hfuel : pq.length ≤ fuel + 1) :
    Growing freq (mergeLoop fuel nodes pq).1 (mergeLoop fuel nodes pq).2 ∧
      (mergeLoop fuel nodes pq).2.length ≤ 1 := by
  induction fuel generalizing nodes pq with
  | zero => exact ⟨h, hfuel⟩
  | succ fuel ih =>
    simp only [Machine.mergeLoop]
    split
    · rename_i hnone
      exact ⟨h, by simp [extractMin_none.mp hnone]⟩
    · rename_i l pq1 hl
      split
      · rename_i hnone
        refine ⟨h, ?_⟩
        rw [(extractMin_perm hl).length_eq, extractMin_none.mp hnone]
        rfl
      · rename_i r pq2 hr
        refine ih (h.merge hl hr) ?_
        have := (extractMin_perm_of_two hl hr).length_eq
        simp only [List.length_cons, List.length_append, List.length_nil] at this ⊢
        omega

/-! ### The finished arena -/

theorem growing_buildArena (freq : Symbol → Count) :
    Growing freq (buildArena freq).1 (buildArena freq).2 ∧ (buildArena freq).2.length ≤ 1 :=
  (growing_seedLeaves freq).mergeLoop _ (by simp)

/-- R80 without symbols: no node, and an empty queue. -/
theorem buildArena_of_none (hS : (occurring freq).length = 0) : buildArena freq = ([], []) := by
  have hsize := (growing_buildArena freq).1.size
  refine Prod.ext (List.length_eq_zero_iff.mp ?_) (List.length_eq_zero_iff.mp ?_) <;> omega

/-- R80 with S symbols: the last of 2S - 1 nodes is the one index left in the queue. -/
theorem buildArena_of_some (hS : (occurring freq).length ≠ 0) :
    (buildArena freq).1.length + 1 = 2 * (occurring freq).length ∧
      (buildArena freq).2 = [(buildArena freq).1.length - 1] := by
  obtain ⟨hgrow, hle⟩ := growing_buildArena freq
  have hsize := hgrow.size
  have hne : (buildArena freq).1 ≠ [] := by
    intro hnil
    rw [hnil, List.length_nil] at hsize
    omega
  have hlast := hgrow.last_waits hne
  obtain ⟨j, hj⟩ := List.length_eq_one_iff.mp (le_antisymm hle (List.length_pos_of_mem hlast))
  rw [hj] at hlast hsize
  exact ⟨hsize, by rw [hj, List.mem_singleton.mp hlast]⟩

theorem buildArena_length_le (freq : Symbol → Count) : (buildArena freq).1.length ≤ maxNodes := by
  have hS := occurring_length_le (freq := freq)
  rw [maxNodes]
  by_cases h0 : (occurring freq).length = 0
  · simp [buildArena_of_none h0]
  · have := (buildArena_of_some h0).1
    omega

end Sys2Proof.Machine
end

section
/-! PROOFS. BUILD makes the tree of 10_state.md R26, and every step keeps it (R22, R34 (c)). -/

namespace Sys2Proof.Machine

variable {s t : State}

/-! ### The tree BUILD makes -/

theorem State.build_nnodes_toNat (s : State) :
    s.build.nnodes.toNat = (buildArena s.freqAt).1.length := by
  have := buildArena_length_le s.freqAt
  rw [maxNodes] at this
  rw [State.build_nnodes, BitVec.toNat_ofNat]
  omega

theorem State.build_nsyms_toNat (s : State) :
    s.build.nsyms.toNat = (occurring s.freqAt).length := by
  have := occurring_length_le (freq := s.freqAt)
  rw [State.build_nsyms, BitVec.toNat_ofNat, seedLeaves_length]
  omega

/-- The NODE entries of the new tree are the nodes of the arena. -/
theorem State.build_nodeAt (s : State) {i : Nat} (hi : i < (buildArena s.freqAt).1.length) :
    s.build.nodeAt i = arenaAt (buildArena s.freqAt).1 i := by
  rw [State.nodeAt, State.build_node, readCell_storeNodes, if_pos ⟨Nat.zero_le i, by omega⟩]
  rfl

theorem State.build_root_of_none (hS : (occurring s.freqAt).length = 0) : s.build.root = NIL := by
  rw [State.build_root, buildArena_of_none hS, selectRoot_nil]

theorem State.build_root_of_some (hS : (occurring s.freqAt).length ≠ 0) :
    s.build.root.toNat = (buildArena s.freqAt).1.length - 1 := by
  have := buildArena_length_le s.freqAt
  rw [maxNodes] at this
  rw [State.build_root, (buildArena_of_some hS).2, selectRoot_singleton, BitVec.toNat_ofNat]
  omega

/-- The first entries of the new tree are the leaves of the symbols that occur, in their order. -/
theorem State.build_leaf (s : State) {k : Nat} (hk : k < (occurring s.freqAt).length) :
    s.build.nodeAt k = leafNode (occurring s.freqAt)[k] (s.freqAt (occurring s.freqAt)[k]) := by
  obtain ⟨hgrow, _⟩ := growing_buildArena s.freqAt
  have hlen : k < (seedLeaves s.freqAt).length := by simpa using hk
  rw [State.build_nodeAt s (lt_of_lt_of_le hlen hgrow.seeds.length_le),
    arenaAt_of_prefix hgrow.seeds hlen, arenaAt_eq_getElem hlen]
  simp [seedLeaves_eq]

/-- R26: whatever the counts, BUILD makes the tree. -/
theorem State.build_treeOk (s : State) : s.build.TreeOk := by
  obtain ⟨hgrow, _⟩ := growing_buildArena s.freqAt
  have hnn := s.build_nnodes_toNat
  have hns := s.build_nsyms_toNat
  have hS0 : s.build.nsyms ≠ 0 → (occurring s.freqAt).length ≠ 0 := fun h h0 =>
    h (BitVec.eq_of_toNat_eq (hns.trans h0))
  constructor
  case nsyms_eq => exact hns
  case empty_tree =>
    intro h0
    have h0 : (occurring s.freqAt).length = 0 := by rw [← hns, h0]; rfl
    refine ⟨BitVec.eq_of_toNat_eq ?_, State.build_root_of_none h0⟩
    rw [hnn, buildArena_of_none h0]
    rfl
  case sizes =>
    intro h
    have hsize := (buildArena_of_some (hS0 h)).1
    rw [hnn, hns, State.build_root_of_some (hS0 h)]
    have := hS0 h
    omega
  case leaves =>
    intro k hk
    rw [hns] at hk
    rw [State.build_leaf s hk]
    exact ⟨rfl, rfl, rfl, mem_occurring.mp (List.getElem_mem hk), leafNode_wgt _ _⟩
  case ascending =>
    intro k hk j hj
    rw [hns] at hk
    rw [State.build_leaf s hk, State.build_leaf s (hj.trans hk)]
    exact List.pairwise_iff_getElem.mp occurring_ascending j k (hj.trans hk) hk hj
  case internal =>
    intro i hi hS
    rw [hnn] at hi
    rw [State.build_nodeAt s hi]
    exact hgrow.internal i hi (hns ▸ hS)
  case weights =>
    intro i hi hS
    rw [hnn] at hi
    obtain ⟨_, _, hleft, hright, _⟩ := hgrow.internal i hi (hns ▸ hS)
    rw [State.build_nodeAt s hi, State.build_nodeAt s (hleft.trans hi),
      State.build_nodeAt s (hright.trans hi)]
    exact hgrow.weights i hi (hns ▸ hS)
  case one_parent =>
    intro j hj
    rw [hnn] at hj ⊢
    have h0 : (occurring s.freqAt).length ≠ 0 := by have := hgrow.size; omega
    have hcount := hgrow.parents.count_eq j
    rw [(buildArena_of_some h0).2, List.count_append, List.count_singleton,
      List.count_eq_one_of_mem List.nodup_range (List.mem_range.mpr hj)] at hcount
    rw [hns, State.childrenOf_eq, childrenIn_congr fun i => State.build_nodeAt s,
      State.build_root_of_some h0]
    by_cases hr : j = (buildArena s.freqAt).1.length - 1
    · rw [if_pos hr]
      simp only [hr, beq_self_eq_true, if_true] at hcount ⊢
      omega
    · rw [if_neg hr]
      simpa [Ne.symm hr] using hcount
  case root_weight =>
    intro h
    have hsize := (buildArena_of_some (hS0 h)).1
    have htotal := hgrow.total
    rw [(buildArena_of_some (hS0 h)).2, List.map_singleton, List.sum_singleton] at htotal
    have := hS0 h
    rw [State.build_root_of_some (hS0 h), State.build_nodeAt s (by omega), htotal]
    exact (State.freqSum_eq s.build).symm
  case cur_ok => exact .inl rfl

/-! ### The walker stays on the tree -/

/-- TreeOk reads FREQ, NODE and the registers of the tree. -/
theorem State.TreeOk.congr (h : s.TreeOk) (hfreq : t.freq = s.freq) (hnode : t.node = s.node)
    (hnsyms : t.nsyms = s.nsyms) (hnnodes : t.nnodes = s.nnodes) (hroot : t.root = s.root)
    (hcur : t.cur = s.root ∨ (s.nsyms.toNat ≤ t.cur.toNat ∧ t.cur.toNat < s.nnodes.toNat ∧
      t.cur ≠ s.root)) : t.TreeOk := by
  obtain ⟨nsyms_eq, empty_tree, sizes, leaves, ascending, internal, weights, one_parent,
    root_weight, _⟩ := h
  cases t
  subst hfreq hnode hnsyms hnnodes hroot
  exact ⟨nsyms_eq, empty_tree, sizes, leaves, ascending, internal, weights, one_parent,
    root_weight, hcur⟩

theorem State.TreeOk.nsyms_le (h : s.TreeOk) : s.nsyms.toNat ≤ 256 := by
  rw [h.nsyms_eq]
  exact occurring_length_le

theorem State.TreeOk.root_eq_nil_iff (h : s.TreeOk) : s.root = NIL ↔ s.nsyms = 0 := by
  refine ⟨fun hr => ?_, fun h0 => (h.empty_tree h0).2⟩
  by_contra h0
  have hle := h.nsyms_le
  have hroot := (h.sizes h0).2
  rw [hr, show NIL.toNat = 511 from rfl] at hroot
  omega

theorem State.TreeOk.root_lt (h : s.TreeOk) (hr : s.root ≠ NIL) :
    s.root.toNat < s.nnodes.toNat := by
  have := h.sizes (mt h.root_eq_nil_iff.mpr hr)
  omega

/-- The leaves of the tree are the entries below NSYMS. -/
theorem State.TreeOk.leaf_iff (h : s.TreeOk) {i : Nat} (hi : i < s.nnodes.toNat) :
    (s.nodeAt i).leaf = true ↔ i < s.nsyms.toNat := by
  by_cases hS : i < s.nsyms.toNat
  · simp [hS, (h.leaves i hS).1]
  · simp [hS, (h.internal i hi (by omega)).1]

theorem State.TreeOk.le_of_internal (h : s.TreeOk) {i : Nat} (hleaf : (s.nodeAt i).leaf = false) :
    s.nsyms.toNat ≤ i := by
  by_contra hS
  simp [(h.leaves i (by omega)).1] at hleaf

/-- A child lies before its parent. -/
theorem State.TreeOk.child_lt (h : s.TreeOk) {i : NodeIdx} (hi : i.toNat < s.nnodes.toNat)
    (hleaf : (s.nodeAt i.toNat).leaf = false) (b : Bool) : (s.child i b).toNat < i.toNat := by
  obtain ⟨_, _, hleft, hright, _⟩ := h.internal _ hi (h.le_of_internal hleaf)
  cases b
  · exact hleft
  · exact hright

/-- With two symbols or more the walker's node is internal (R22). -/
theorem State.TreeOk.cur_internal (h : s.TreeOk) (hr : s.root ≠ NIL)
    (hleaf : (s.nodeAt s.root.toNat).leaf = false) :
    s.cur.toNat < s.nnodes.toNat ∧ (s.nodeAt s.cur.toNat).leaf = false := by
  rcases h.cur_ok with hcur | ⟨hS, hlt, _⟩
  · rw [hcur]
    exact ⟨h.root_lt hr, hleaf⟩
  · exact ⟨hlt, (h.internal _ hlt hS).1⟩

theorem State.TreeOk.child_cur_lt (h : s.TreeOk) (hr : s.root ≠ NIL)
    (hleaf : (s.nodeAt s.root.toNat).leaf = false) (b : Bool) :
    (s.child s.cur b).toNat < s.nnodes.toNat := by
  obtain ⟨hlt, hcur⟩ := h.cur_internal hr hleaf
  exact (h.child_lt hlt hcur b).trans hlt

theorem State.TreeOk.toRoot (h : s.TreeOk) : (s.setCur s.root).TreeOk :=
  h.congr rfl rfl rfl rfl rfl (.inl rfl)

/-- WalkStep moves CUR to an internal node below the one it was at, or to ROOT, or not at all. -/
theorem State.TreeOk.walkStep (h : s.TreeOk) (b : Bool) : (s.walkStep b).2.TreeOk := by
  obtain ⟨hw, _⟩ | ⟨hw, _⟩ | ⟨hw, _⟩ | ⟨hw, hr, hleaf, hnext⟩ := s.walkStep_cases b <;> rw [hw]
  · exact h
  · exact h
  · exact h.toRoot
  · obtain ⟨hlt, hcur⟩ := h.cur_internal hr hleaf
    have hbelow := h.child_lt hlt hcur b
    have hroot := (h.sizes (mt h.root_eq_nil_iff.mpr hr)).2
    have hsize := (h.sizes (mt h.root_eq_nil_iff.mpr hr)).1
    refine h.congr rfl rfl rfl rfl rfl (.inr ⟨h.le_of_internal hnext,
      hbelow.trans hlt, fun heq => ?_⟩)
    have : (s.child s.cur b).toNat = s.root.toNat := congrArg BitVec.toNat heq
    omega

/-! ### Every step keeps the tree -/

theorem State.UninitOk.congr (h : s.UninitOk) (hnsyms : t.nsyms = s.nsyms)
    (hnnodes : t.nnodes = s.nnodes) (hroot : t.root = s.root) (hcur : t.cur = s.cur)
    (hcode : t.code = s.code) : t.UninitOk :=
  ⟨hnsyms.trans h.nsyms_zero, hnnodes.trans h.nnodes_zero, hroot.trans h.root_nil,
    hcur.trans h.cur_nil, fun a => by rw [State.codeAt_congr hcode]; exact h.no_codes a⟩

theorem State.uninitOk_clear (s : State) : s.clear.UninitOk := ⟨rfl, rfl, rfl, rfl, fun _ => rfl⟩

theorem State.uninitOk_resetFor (p : Params) : (State.resetFor p).UninitOk :=
  ⟨rfl, rfl, rfl, rfl, fun _ => rfl⟩

theorem State.TreeInv.of_uninit (hp : s.phase = .uninit) (h : s.UninitOk) : s.TreeInv :=
  ⟨fun _ => h, fun hb => by simp [hp] at hb⟩

theorem State.TreeInv.of_built (hp : s.phase = .built) (h : s.TreeOk) : s.TreeInv :=
  ⟨fun hu => by simp [hp] at hu, fun _ => h⟩

/-- TreeInv reads nothing of the buffers, the response and the host's events. -/
theorem State.TreeInv.congr (h : s.TreeInv) (hphase : t.phase = s.phase) (hfreq : t.freq = s.freq)
    (hnode : t.node = s.node) (hcode : t.code = s.code) (hnsyms : t.nsyms = s.nsyms)
    (hnnodes : t.nnodes = s.nnodes) (hroot : t.root = s.root) (hcur : t.cur = s.cur) :
    t.TreeInv :=
  ⟨fun hp => (h.1 (hphase ▸ hp)).congr hnsyms hnnodes hroot hcur hcode,
    fun hp => (h.2 (hphase ▸ hp)).congr hfreq hnode hnsyms hnnodes hroot
      (by rw [hcur]; exact (h.2 (hphase ▸ hp)).cur_ok)⟩

/-- The counts may change in UNINIT. -/
theorem State.TreeInv.setFreq (h : s.TreeInv) (hp : s.phase = .uninit) (f : Cells Count) :
    (s.setFreq f).TreeInv :=
  .of_uninit hp ((h.1 hp).congr rfl rfl rfl rfl rfl)

theorem State.TreeInv.change {i : Instr} (hc : Change i s t) (h : s.TreeInv) : t.TreeInv := by
  cases hc with
  | clear => exact .of_uninit rfl s.uninitOk_clear
  | push => exact h.congr rfl rfl rfl rfl rfl rfl rfl rfl
  | emptySymbols => exact h.congr rfl rfl rfl rfl rfl rfl rfl rfl
  | setCount a d hp => exact h.setFreq hp _
  | count hp => exact h.setFreq hp _
  | build => exact .of_built rfl s.build_treeOk
  | putByte => exact h.congr rfl rfl rfl rfl rfl rfl rfl rfl
  | emptyStream => exact h.congr rfl rfl rfl rfl rfl rfl rfl rfl
  | appendBit => exact h.congr rfl rfl rfl rfl rfl rfl rfl rfl
  | walk b hp => exact .of_built ((State.walkStep_phase rfl).trans hp) ((h.2 hp).walkStep b)
  | toRoot hp => exact .of_built hp (h.2 hp).toRoot

theorem State.treeInv_isInvariant : IsInvariant State.TreeInv where
  reset p := .of_uninit rfl (State.uninitOk_resetFor p)
  change := State.TreeInv.change
  answer _ h := h.congr rfl rfl rfl rfl rfl rfl rfl rfl
  takeEvent _ h := h.congr rfl rfl rfl rfl rfl rfl rfl rfl

/-- Settles O14: BUILD makes the tree, the walker stays on it, and no other change touches it. -/
theorem treeShapeIsKept : Obligations.TreeShapeIsKept :=
  ⟨State.treeInv_isInvariant.reset, fun _ _ => State.treeInv_isInvariant.step⟩

end Sys2Proof.Machine
end

section
/-! PROOFS. BUILD derives the codes of 10_state.md R28 (43_code_table.md R87 to R90), and every step
keeps them. -/

namespace Sys2Proof.Machine

/-! ### Paths -/

/-- The branch bits `p` lead from `i` to `j`, and every node before `j` is internal. -/
def State.Leads (s : State) (i : NodeIdx) (p : List Bool) (j : NodeIdx) : Prop :=
  s.follow i p = j ∧ ∀ k, k < p.length → (s.nodeAt (s.follow i (p.take k)).toNat).leaf = false

section
variable {s t : State} {i j : NodeIdx} {p : List Bool} {b : Bool}

@[simp] theorem State.leads_nil : s.Leads i [] j ↔ i = j := by simp [State.Leads, State.follow]

theorem State.leads_cons :
    s.Leads i (b :: p) j ↔ (s.nodeAt i.toNat).leaf = false ∧ s.Leads (s.child i b) p j := by
  constructor
  · rintro ⟨hj, hint⟩
    exact ⟨hint 0 (Nat.zero_lt_succ _), hj, fun k hk => hint (k + 1) (Nat.succ_lt_succ hk)⟩
  · rintro ⟨hi, hj, hint⟩
    refine ⟨hj, fun k hk => ?_⟩
    cases k with
    | zero => exact hi
    | succ k => exact hint k (Nat.lt_of_succ_lt_succ hk)

theorem State.Leads.snoc (h : s.Leads i p j) (hj : (s.nodeAt j.toNat).leaf = false) (b : Bool) :
    s.Leads i (p ++ [b]) (s.child j b) := by
  induction p generalizing i with
  | nil =>
    obtain rfl := State.leads_nil.mp h
    exact State.leads_cons.mpr ⟨hj, State.leads_nil.mpr rfl⟩
  | cons c rest ih =>
    obtain ⟨hi, hrest⟩ := State.leads_cons.mp h
    exact State.leads_cons.mpr ⟨hi, ih hrest⟩

theorem State.Leads.take (h : s.Leads i p j) (k : Nat) :
    s.Leads i (p.take k) (s.follow i (p.take k)) := by
  refine ⟨rfl, fun m hm => ?_⟩
  rw [List.length_take] at hm
  rw [List.take_take, min_eq_left (by omega)]
  exact h.2 m (by omega)

/-- A path ends where a leaf is met: no longer path begins with it. -/
theorem State.Leads.eq_of_prefix {q : List Bool} {k : NodeIdx} (hp : s.Leads i p j)
    (hj : (s.nodeAt j.toNat).leaf = true) (hq : s.Leads i q k) (hpq : p <+: q) : j = k := by
  obtain ⟨x, rfl⟩ := hpq
  cases x with
  | nil => rw [← hp.1, ← hq.1, List.append_nil]
  | cons b rest =>
    have hint := hq.2 p.length (by simp)
    rw [List.take_left', hp.1, hj] at hint
    · exact absurd hint (by decide)
    · rfl

/-! ### Paths on the tree -/

/-- Each branch goes to an earlier node. -/
theorem State.TreeOk.leads_le (tree : s.TreeOk) (hi : i.toNat < s.nnodes.toNat)
    (h : s.Leads i p j) : j.toNat + p.length ≤ i.toNat := by
  induction p generalizing i with
  | nil => simp [State.leads_nil.mp h]
  | cons b rest ih =>
    obtain ⟨hleaf, hrest⟩ := State.leads_cons.mp h
    have hchild := tree.child_lt hi hleaf b
    have := ih (hchild.trans hi) hrest
    simp only [List.length_cons]
    omega

theorem State.TreeOk.nnodes_le (tree : s.TreeOk) : s.nnodes.toNat ≤ 511 := by
  have hS := tree.nsyms_le
  by_cases h0 : s.nsyms = 0
  · simp [(tree.empty_tree h0).1]
  · have := (tree.sizes h0).1
    omega

theorem State.TreeOk.nsyms_le_nnodes (tree : s.TreeOk) : s.nsyms.toNat ≤ s.nnodes.toNat := by
  by_cases h0 : s.nsyms = 0
  · simp [h0]
  · have := (tree.sizes h0).1
    omega

/-- Every node but the root is a child of a later internal node. -/
theorem State.TreeOk.exists_parent (tree : s.TreeOk) (hj : j.toNat < s.nnodes.toNat)
    (hne : j ≠ s.root) : ∃ (i : NodeIdx) (b : Bool), j.toNat < i.toNat ∧
      i.toNat < s.nnodes.toNat ∧ (s.nodeAt i.toNat).leaf = false ∧ s.child i b = j := by
  have hcount := tree.one_parent j.toNat hj
  rw [if_neg fun h => hne (BitVec.eq_of_toNat_eq h)] at hcount
  obtain ⟨n, hS, hn, hchild⟩ :=
    mem_childrenIn.mp (List.count_pos_iff.mp (lt_of_lt_of_eq Nat.zero_lt_one hcount.symm))
  obtain ⟨hleaf, _, hleft, hright, _⟩ := tree.internal n hn hS
  have hle := tree.nnodes_le
  have hidx : (BitVec.ofNat 9 n).toNat = n := by rw [BitVec.toNat_ofNat]; omega
  refine ⟨BitVec.ofNat 9 n, decide (j.toNat = (s.nodeAt n).right.toNat), ?_⟩
  rw [State.child, hidx]
  by_cases hr : j.toNat = (s.nodeAt n).right.toNat
  · rw [decide_eq_true hr, if_pos rfl]
    exact ⟨by omega, hn, hleaf, (BitVec.eq_of_toNat_eq hr).symm⟩
  · have hl : j.toNat = (s.nodeAt n).left.toNat := hchild.resolve_right hr
    rw [decide_eq_false hr, if_neg Bool.false_ne_true]
    exact ⟨by omega, hn, hleaf, (BitVec.eq_of_toNat_eq hl).symm⟩

/-- Every node lies on a path from the root. -/
theorem State.TreeOk.exists_leads (tree : s.TreeOk) (j : NodeIdx) (hj : j.toNat < s.nnodes.toNat) :
    ∃ p, s.Leads s.root p j := by
  by_cases hroot : j = s.root
  · exact ⟨[], State.leads_nil.mpr hroot.symm⟩
  · obtain ⟨i, b, hji, hi, hleaf, rfl⟩ := tree.exists_parent hj hroot
    obtain ⟨p, hp⟩ := tree.exists_leads i hi
    exact ⟨p ++ [b], hp.snoc hleaf b⟩
termination_by s.nnodes.toNat - j.toNat

/-- The symbols that occur are those of the leaves. -/
theorem State.TreeOk.occurs_iff (tree : s.TreeOk) (a : Symbol) :
    s.freqAt a ≠ 0 ↔ ∃ k, k < s.nsyms.toNat ∧ (s.nodeAt k).sym = a := by
  constructor
  · intro ha
    have hnodup : ((List.range s.nsyms.toNat).map fun k => (s.nodeAt k).sym).Nodup := by
      refine List.Nodup.map_on ?_ List.nodup_range
      intro j hj k hk heq
      rw [List.mem_range] at hj hk
      rcases Nat.lt_trichotomy j k with hlt | heq' | hlt
      · exact absurd (congrArg BitVec.toNat heq) (tree.ascending k hk j hlt).ne
      · exact heq'
      · exact absurd (congrArg BitVec.toNat heq) (tree.ascending j hj k hlt).ne'
    have hsub : ((List.range s.nsyms.toNat).map fun k => (s.nodeAt k).sym) ⊆
        occurring s.freqAt := by
      intro c hc
      obtain ⟨k, hk, rfl⟩ := List.mem_map.mp hc
      exact mem_occurring.mpr (tree.leaves k (List.mem_range.mp hk)).2.2.2.1
    have hperm := (hnodup.subperm hsub).perm_of_length_le
      (by simp [tree.nsyms_eq, s.distinctSymbols_eq])
    obtain ⟨k, hk, hsym⟩ := List.mem_map.mp (hperm.symm.subset (mem_occurring.mpr ha))
    exact ⟨k, List.mem_range.mp hk, hsym⟩
  · rintro ⟨k, hk, rfl⟩
    exact (tree.leaves k hk).2.2.2.1

/-! ### The number of nodes below a node -/

/-- How many nodes the subtree of node `i` has, for a node over earlier nodes. -/
def State.subtreeSize (s : State) (i : Nat) : Nat :=
  if h : (s.nodeAt i).leaf = false ∧ (s.nodeAt i).left.toNat < i ∧ (s.nodeAt i).right.toNat < i then
    1 + s.subtreeSize (s.nodeAt i).left.toNat + s.subtreeSize (s.nodeAt i).right.toNat
  else 1
termination_by i
decreasing_by
  · exact h.2.1
  · exact h.2.2

theorem State.subtreeSize_pos (s : State) (i : Nat) : 0 < s.subtreeSize i := by
  unfold State.subtreeSize
  split <;> omega

theorem State.subtreeSize_of_leaf {i : Nat} (h : (s.nodeAt i).leaf = true) :
    s.subtreeSize i = 1 := by
  unfold State.subtreeSize
  simp [h]

theorem State.TreeOk.subtreeSize_of_internal (tree : s.TreeOk) {i : Nat}
    (hi : i < s.nnodes.toNat) (h : (s.nodeAt i).leaf = false) :
    s.subtreeSize i =
      1 + s.subtreeSize (s.nodeAt i).left.toNat + s.subtreeSize (s.nodeAt i).right.toNat := by
  obtain ⟨_, _, hleft, hright, _⟩ := tree.internal i hi (tree.le_of_internal h)
  rw [State.subtreeSize, dif_pos ⟨h, hleft, hright⟩]

/-- Summed over the first `m` nodes, the sizes count every node once for itself and once in each
child taken so far. -/
theorem State.TreeOk.sum_subtreeSize (tree : s.TreeOk) (m : Nat) (hm : m ≤ s.nnodes.toNat) :
    ((List.range m).map s.subtreeSize).sum =
      m + ((s.childrenOf s.nsyms.toNat m).map s.subtreeSize).sum := by
  rw [State.childrenOf_eq]
  induction m with
  | zero => simp [childrenIn_of_le]
  | succ m ih =>
    rw [List.range_succ, List.map_append, List.sum_append, ih (by omega)]
    by_cases hS : s.nsyms.toNat ≤ m
    · rw [childrenIn_succ hS]
      simp only [List.map_append, List.map_cons, List.map_nil, List.sum_append, List.sum_cons,
        List.sum_nil, tree.subtreeSize_of_internal hm (tree.internal m hm hS).1]
      omega
    · rw [childrenIn_of_le (by omega), childrenIn_of_le (by omega)]
      simp only [List.map_cons, List.map_nil, List.sum_cons, List.sum_nil,
        State.subtreeSize_of_leaf (tree.leaves m (by omega)).1]
      omega

/-- Each node is the root or the child of exactly one node (R26 (e)). -/
theorem State.TreeOk.children_perm (tree : s.TreeOk) (hr : s.root ≠ NIL) :
    (s.childrenOf s.nsyms.toNat s.nnodes.toNat ++ [s.root.toNat]).Perm
      (List.range s.nnodes.toNat) := by
  have hroot := tree.root_lt hr
  refine List.perm_iff_count.mpr fun j => ?_
  rw [List.count_append, List.count_singleton]
  by_cases hj : j < s.nnodes.toNat
  · rw [tree.one_parent j hj,
      List.count_eq_one_of_mem List.nodup_range (List.mem_range.mpr hj)]
    by_cases heq : j = s.root.toNat
    · simp [heq]
    · simp [heq, Ne.symm heq]
  · have hnot : j ∉ s.childrenOf s.nsyms.toNat s.nnodes.toNat := by
      intro hmem
      obtain ⟨i, hS, hi, hchild⟩ := mem_childrenIn.mp hmem
      obtain ⟨_, _, hleft, hright, _⟩ := tree.internal i hi hS
      omega
    rw [List.count_eq_zero_of_not_mem hnot, List.count_eq_zero_of_not_mem (by simpa using hj)]
    have : s.root.toNat ≠ j := by omega
    simp [this]

theorem State.TreeOk.subtreeSize_root (tree : s.TreeOk) (hr : s.root ≠ NIL) :
    s.subtreeSize s.root.toNat = s.nnodes.toNat := by
  have hsum := tree.sum_subtreeSize _ le_rfl
  have hperm := ((tree.children_perm hr).map s.subtreeSize).sum_eq
  simp only [List.map_append, List.sum_append, List.map_singleton, List.sum_singleton] at hperm
  omega

end

/-! ### The walk that derives the codes -/

theorem readCell_writeCode (codes : Cells (List Bool)) (a b : Symbol) (c : List Bool) :
    readCell [] (writeCode codes a c) b.toNat = if b = a then c else readCell [] codes b.toNat := by
  rw [writeCode, readCell_writeCell]
  exact if_congr BitVec.toNat_inj rfl rfl

/-- Every code in the table leads from the root to a leaf of its symbol. -/
def State.CodesLead (s : State) (codes : Cells (List Bool)) : Prop :=
  ∀ a : Symbol, readCell [] codes a.toNat ≠ [] → ∃ j,
    s.Leads s.root (readCell [] codes a.toNat) j ∧ (s.nodeAt j.toNat).leaf = true ∧
      (s.nodeAt j.toNat).sym = a

/-- A leaf of the symbol `a` lies below a node on the work stack. -/
def State.LeafBelow (s : State) (stack : List (NodeIdx × List Bool)) (a : Symbol) : Prop :=
  ∃ e ∈ stack, ∃ q j, s.Leads e.1 q j ∧ (s.nodeAt j.toNat).leaf = true ∧ (s.nodeAt j.toNat).sym = a

/-- Every entry of the work stack is a node with the path to it. -/
def State.StackLeads (s : State) (stack : List (NodeIdx × List Bool)) : Prop :=
  ∀ e ∈ stack, s.Leads s.root e.2 e.1

section
variable {s : State} {nodes : List Node} {i : NodeIdx} {path : List Bool}
  {stack : List (NodeIdx × List Bool)} {codes : Cells (List Bool)} {a : Symbol}

theorem State.CodesLead.writeCode (h : s.CodesLead codes) (hpath : s.Leads s.root path i)
    (hleaf : (s.nodeAt i.toNat).leaf = true) :
    s.CodesLead (writeCode codes (s.nodeAt i.toNat).sym path) := by
  intro b hb
  rw [readCell_writeCode] at hb ⊢
  split at hb
  · rename_i heq
    rw [if_pos heq]
    exact ⟨i, hpath, hleaf, heq.symm⟩
  · rename_i hne
    rw [if_neg hne]
    exact h b hb

theorem State.StackLeads.push (h : s.StackLeads ((i, path) :: stack))
    (hleaf : (s.nodeAt i.toNat).leaf = false) :
    s.StackLeads (((s.nodeAt i.toNat).left, path ++ [false]) ::
      ((s.nodeAt i.toNat).right, path ++ [true]) :: stack) := by
  have htop : s.Leads s.root path i := h _ List.mem_cons_self
  refine List.forall_mem_cons.mpr ⟨htop.snoc hleaf false, List.forall_mem_cons.mpr
    ⟨htop.snoc hleaf true, fun e he => h e (List.mem_cons_of_mem _ he)⟩⟩

theorem State.StackLeads.pop (h : s.StackLeads ((i, path) :: stack)) : s.StackLeads stack :=
  fun e he => h e (List.mem_cons_of_mem _ he)

/-- Below a leaf there is that leaf alone. -/
theorem State.LeafBelow.of_leaf (h : s.LeafBelow ((i, path) :: stack) a)
    (hleaf : (s.nodeAt i.toNat).leaf = true) :
    (s.nodeAt i.toNat).sym = a ∨ s.LeafBelow stack a := by
  obtain ⟨e, he, q, j, hq, hj⟩ := h
  rcases List.mem_cons.mp he with rfl | he
  · cases q with
    | nil =>
      obtain rfl := State.leads_nil.mp hq
      exact .inl hj.2
    | cons b rest => simp [(State.leads_cons.mp hq).1] at hleaf
  · exact .inr ⟨e, he, q, j, hq, hj⟩

/-- Below an internal node there is what is below its two children. -/
theorem State.LeafBelow.of_internal (h : s.LeafBelow ((i, path) :: stack) a)
    (hleaf : (s.nodeAt i.toNat).leaf = false) :
    s.LeafBelow (((s.nodeAt i.toNat).left, path ++ [false]) ::
      ((s.nodeAt i.toNat).right, path ++ [true]) :: stack) a := by
  obtain ⟨e, he, q, j, hq, hj⟩ := h
  rcases List.mem_cons.mp he with rfl | he
  · cases q with
    | nil =>
      obtain rfl := State.leads_nil.mp hq
      simp [hleaf] at hj
    | cons b rest =>
      have hrest := (State.leads_cons.mp hq).2
      cases b
      · exact ⟨_, List.mem_cons_self, rest, j, hrest, hj⟩
      · exact ⟨_, List.mem_cons_of_mem _ List.mem_cons_self, rest, j, hrest, hj⟩
  · exact ⟨e, List.mem_cons_of_mem _ (List.mem_cons_of_mem _ he), q, j, hq, hj⟩

section
variable (tree : s.TreeOk) (hr : s.root ≠ NIL)
  (hnodes : ∀ k, k < s.nnodes.toNat → arenaAt nodes k = s.nodeAt k)
include tree hr hnodes

theorem State.StackLeads.arenaAt_top (h : s.StackLeads ((i, path) :: stack)) :
    i.toNat < s.nnodes.toNat ∧ arenaAt nodes i.toNat = s.nodeAt i.toNat := by
  have hle : i.toNat + path.length ≤ s.root.toNat :=
    tree.leads_le (tree.root_lt hr) (h _ List.mem_cons_self)
  have hroot := tree.root_lt hr
  exact ⟨by omega, hnodes _ (by omega)⟩

/-- The walk records paths to leaves and nothing else. -/
theorem State.CodesLead.deriveLoop (fuel : Nat) (hstack : s.StackLeads stack)
    (h : s.CodesLead codes) : s.CodesLead (deriveLoop nodes fuel stack codes) := by
  induction fuel generalizing stack codes with
  | zero => exact h
  | succ fuel ih =>
    match stack with
    | [] => exact h
    | (i, path) :: rest =>
      simp only [Machine.deriveLoop, (hstack.arenaAt_top tree hr hnodes).2]
      split
      · rename_i hleaf
        exact ih hstack.pop (h.writeCode (hstack _ List.mem_cons_self) hleaf)
      · rename_i hleaf
        exact ih (hstack.push (Bool.eq_false_of_not_eq_true hleaf)) h

/-- With a pass for every node below the stack, every leaf there gets its code: none of the paths is
empty, since the root is internal. -/
theorem State.StackLeads.deriveLoop_ne_nil (hroot : (s.nodeAt s.root.toNat).leaf = false)
    (fuel : Nat) (hstack : s.StackLeads stack)
    (hfuel : (stack.map fun e => s.subtreeSize e.1.toNat).sum ≤ fuel)
    (h : readCell [] codes a.toNat ≠ [] ∨ s.LeafBelow stack a) :
    readCell [] (deriveLoop nodes fuel stack codes) a.toNat ≠ [] := by
  induction fuel generalizing stack codes with
  | zero =>
    match stack with
    | [] => exact h.elim id fun ⟨_, he, _⟩ => absurd he List.not_mem_nil
    | (i, _) :: _ =>
      have := s.subtreeSize_pos i.toNat
      simp only [List.map_cons, List.sum_cons] at hfuel
      omega
  | succ fuel ih =>
    match stack with
    | [] => exact h.elim id fun ⟨_, he, _⟩ => absurd he List.not_mem_nil
    | (i, path) :: rest =>
      obtain ⟨hi, harena⟩ := hstack.arenaAt_top tree hr hnodes
      simp only [List.map_cons, List.sum_cons] at hfuel
      simp only [Machine.deriveLoop, harena]
      by_cases hleaf : (s.nodeAt i.toNat).leaf = true
      · rw [if_pos hleaf]
        rw [State.subtreeSize_of_leaf hleaf] at hfuel
        have hpath : path ≠ [] := by
          rintro rfl
          obtain rfl := State.leads_nil.mp (hstack _ List.mem_cons_self)
          simp [hroot] at hleaf
        refine ih hstack.pop (by omega) ?_
        rw [readCell_writeCode]
        by_cases heq : a = (s.nodeAt i.toNat).sym
        · exact .inl (by rwa [if_pos heq])
        · rw [if_neg heq]
          exact h.imp_right fun h => (h.of_leaf hleaf).resolve_left (Ne.symm heq)
      · rw [if_neg hleaf]
        have hleaf : (s.nodeAt i.toNat).leaf = false := Bool.eq_false_of_not_eq_true hleaf
        rw [tree.subtreeSize_of_internal hi hleaf] at hfuel
        refine ih (hstack.push hleaf) ?_ (h.imp_right fun h => h.of_internal hleaf)
        simp only [List.map_cons, List.sum_cons]
        omega

end

/-! ### The code table BUILD derives -/

/-- R90: without symbols there is no code. -/
theorem State.TreeOk.codesOk_of_none (tree : s.TreeOk) (hr : s.root = NIL)
    (hcode : ∀ a, s.codeAt a = []) : s.CodesOk where
  coded_iff a := by
    have h0 := tree.root_eq_nil_iff.mp hr
    have hnone : ¬ s.freqAt a ≠ 0 := fun ha => by
      obtain ⟨k, hk, _⟩ := (tree.occurs_iff a).mp ha
      simp [h0] at hk
    simp only [hcode a, ne_eq, not_true_eq_false, false_iff]
    exact hnone
  len_le a := by simp [State.codeLen, hcode a]
  reaches_leaf _ a ha := absurd (hcode a) ha
  through_internal _ a k hk := by simp [State.codeLen, hcode a] at hk
  single_code _ a ha := absurd (hcode a) ha
  prefix_free a ha := absurd (hcode a) ha

/-- R89: with one symbol its code is 0. -/
theorem State.TreeOk.codesOk_of_single (tree : s.TreeOk) (hS : s.nsyms = 1)
    (hcode : ∀ a, s.codeAt a = if a = (s.nodeAt 0).sym then [false] else []) : s.CodesOk := by
  have hone : s.nsyms.toNat = 1 := by simp [hS]
  have hne : ∀ a, s.codeAt a ≠ [] ↔ a = (s.nodeAt 0).sym := fun a => by simp [hcode a]
  constructor
  case coded_iff =>
    intro a
    rw [hne, tree.occurs_iff, hone]
    simp [eq_comm]
  case len_le =>
    intro a
    rw [State.codeLen, hcode a]
    split <;> decide
  case reaches_leaf => intro h; omega
  case through_internal => intro h; omega
  case single_code =>
    intro _ a ha
    rw [hcode a, if_pos ((hne a).mp ha)]
  case prefix_free =>
    intro a ha b hb hab
    exact absurd (((hne a).mp ha).trans ((hne b).mp hb).symm) hab

/-- R28 (a), (b), (d): codes that lead to leaves, one for each symbol that occurs. -/
theorem State.TreeOk.codesOk_of_codesLead (tree : s.TreeOk) (hr : s.root ≠ NIL)
    (hroot : (s.nodeAt s.root.toNat).leaf = false) (hlead : s.CodesLead s.code)
    (hcoded : ∀ a, s.freqAt a ≠ 0 → s.codeAt a ≠ []) : s.CodesOk := by
  have hrlt := tree.root_lt hr
  have hsizes := tree.sizes (mt tree.root_eq_nil_iff.mpr hr)
  have htwo : 2 ≤ s.nsyms.toNat := by
    have := tree.le_of_internal hroot
    omega
  constructor
  case coded_iff =>
    refine fun a => ⟨fun ha => ?_, hcoded a⟩
    obtain ⟨j, hpath, hleaf, hsym⟩ := hlead a ha
    have hle := tree.leads_le hrlt hpath
    exact (tree.occurs_iff a).mpr ⟨j.toNat, (tree.leaf_iff (by omega)).mp hleaf, hsym⟩
  case len_le =>
    intro a
    by_cases ha : s.codeAt a = []
    · simp [State.codeLen, ha]
    · obtain ⟨j, (hpath : s.Leads s.root (s.codeAt a) j), _⟩ := hlead a ha
      have hpos : 0 < s.codeLen a := List.length_pos_iff.mpr ha
      have hlast := tree.leads_le hrlt (hpath.take (s.codeLen a - 1))
      have hS := tree.le_of_internal (hpath.2 (s.codeLen a - 1) (Nat.sub_lt hpos one_pos))
      have hle := tree.nsyms_le
      have hlen : ((s.codeAt a).take (s.codeLen a - 1)).length = s.codeLen a - 1 := by
        rw [List.length_take]
        exact min_eq_left (Nat.sub_le _ _)
      rw [maxCodeLen]
      omega
  case reaches_leaf =>
    intro _ a ha
    obtain ⟨j, hpath, hj⟩ := hlead a ha
    rw [show s.follow s.root (s.codeAt a) = j from hpath.1]
    exact hj
  case through_internal =>
    intro _ a k hk
    obtain ⟨j, hpath, _⟩ := hlead a (List.length_pos_iff.mp (Nat.zero_lt_of_lt hk))
    exact hpath.2 k hk
  case single_code =>
    intro h1
    simp [h1] at htwo
  case prefix_free =>
    intro a ha b hb hab hpre
    obtain ⟨j, hpa, hj, rfl⟩ := hlead a ha
    obtain ⟨k, hpb, _, rfl⟩ := hlead b hb
    exact hab (by rw [hpa.eq_of_prefix hj hpb hpre])

/-- The derivation of R87 to R90 gives the tree the codes of R28. -/
theorem State.TreeOk.codesOk_of_deriveCodes (tree : s.TreeOk)
    (hlen : nodes.length = s.nnodes.toNat)
    (hnodes : ∀ k, k < s.nnodes.toNat → arenaAt nodes k = s.nodeAt k)
    (hcode : s.code = deriveCodes nodes s.root) : s.CodesOk := by
  by_cases hr : s.root = NIL
  · refine tree.codesOk_of_none hr fun a => ?_
    rw [State.codeAt, hcode, deriveCodes, if_pos hr]
    rfl
  have hrlt := tree.root_lt hr
  have hsizes := tree.sizes (mt tree.root_eq_nil_iff.mpr hr)
  rw [deriveCodes, if_neg hr, hnodes _ hrlt] at hcode
  by_cases hroot : (s.nodeAt s.root.toNat).leaf = true
  · have hlt := (tree.leaf_iff hrlt).mp hroot
    have hzero : s.root.toNat = 0 := by omega
    refine tree.codesOk_of_single (BitVec.eq_of_toNat_eq (show s.nsyms.toNat = 1 by omega))
      fun a => ?_
    rw [if_pos hroot, hzero] at hcode
    rw [State.codeAt, hcode, readCell_writeCode]
    rfl
  · rw [if_neg hroot, hlen] at hcode
    have hroot : (s.nodeAt s.root.toNat).leaf = false := Bool.eq_false_of_not_eq_true hroot
    have hstack : s.StackLeads [(s.root, [])] := by simp [State.StackLeads]
    refine tree.codesOk_of_codesLead hr hroot ?_ fun a ha => ?_
    · rw [hcode]
      exact State.CodesLead.deriveLoop tree hr hnodes _ hstack fun a ha => absurd rfl ha
    · obtain ⟨k, hk, hsym⟩ := (tree.occurs_iff a).mp ha
      have hle := tree.nnodes_le
      have hkn := lt_of_lt_of_le hk tree.nsyms_le_nnodes
      have hidx : (BitVec.ofNat 9 k).toNat = k := by rw [BitVec.toNat_ofNat]; omega
      obtain ⟨q, hq⟩ := tree.exists_leads (BitVec.ofNat 9 k) (by rwa [hidx])
      rw [State.codeAt, hcode]
      refine hstack.deriveLoop_ne_nil tree hr hnodes hroot _ ?_
        (.inr ⟨_, List.mem_singleton_self _, q, _, hq, ?_⟩)
      · simp [tree.subtreeSize_root hr]
      · rw [hidx]
        exact ⟨(tree.leaves k hk).1, hsym⟩

theorem State.build_codesOk (s : State) : s.build.CodesOk :=
  s.build_treeOk.codesOk_of_deriveCodes s.build_nnodes_toNat.symm
    (fun _ hk => (s.build_nodeAt (s.build_nnodes_toNat ▸ hk)).symm) s.build_code

/-! ### Every step keeps the codes -/

variable {t : State}

/-- CodesOk reads FREQ, CODE, NODE, NSYMS and ROOT. -/
theorem State.CodesOk.congr (h : s.CodesOk) (hfreq : t.freq = s.freq) (hnode : t.node = s.node)
    (hcode : t.code = s.code) (hnsyms : t.nsyms = s.nsyms) (hroot : t.root = s.root) :
    t.CodesOk := by
  obtain ⟨coded_iff, len_le, reaches_leaf, through_internal, single_code, prefix_free⟩ := h
  cases t
  subst hfreq hnode hcode hnsyms hroot
  exact ⟨coded_iff, len_le, reaches_leaf, through_internal, single_code, prefix_free⟩

theorem State.CodeInv.of_uninit (hp : s.phase = .uninit) (h : ∀ a, s.codeAt a = []) : s.CodeInv :=
  ⟨fun _ => h, fun hb => by simp [hp] at hb⟩

theorem State.CodeInv.of_built (hp : s.phase = .built) (h : s.CodesOk) : s.CodeInv :=
  ⟨fun hu => by simp [hp] at hu, fun _ => h⟩

theorem State.CodeInv.congr (h : s.CodeInv) (hphase : t.phase = s.phase) (hfreq : t.freq = s.freq)
    (hnode : t.node = s.node) (hcode : t.code = s.code) (hnsyms : t.nsyms = s.nsyms)
    (hroot : t.root = s.root) : t.CodeInv :=
  ⟨fun hp a => by rw [State.codeAt_congr hcode]; exact h.1 (hphase ▸ hp) a,
    fun hp => (h.2 (hphase ▸ hp)).congr hfreq hnode hcode hnsyms hroot⟩

theorem State.CodeInv.change {i : Instr} (hc : Change i s t) (h : s.CodeInv) : t.CodeInv := by
  cases hc with
  | clear => exact .of_uninit rfl fun _ => rfl
  | push => exact h.congr rfl rfl rfl rfl rfl rfl
  | emptySymbols => exact h.congr rfl rfl rfl rfl rfl rfl
  | setCount a d hp => exact .of_uninit hp (h.1 hp)
  | count hp => exact .of_uninit hp (h.1 hp)
  | build => exact .of_built rfl s.build_codesOk
  | putByte => exact h.congr rfl rfl rfl rfl rfl rfl
  | emptyStream => exact h.congr rfl rfl rfl rfl rfl rfl
  | appendBit => exact h.congr rfl rfl rfl rfl rfl rfl
  | walk b =>
    rw [s.walkStep_frame b]
    exact h.congr rfl rfl rfl rfl rfl rfl
  | toRoot => exact h.congr rfl rfl rfl rfl rfl rfl

theorem State.codeInv_isInvariant : IsInvariant State.CodeInv where
  reset _ := .of_uninit rfl fun _ => rfl
  change := State.CodeInv.change
  answer _ h := h.congr rfl rfl rfl rfl rfl rfl
  takeEvent _ h := h.congr rfl rfl rfl rfl rfl rfl

/-- Settles O15: BUILD derives the codes, and no other change in BUILT touches what they rest on. -/
theorem codeTableShapeIsKept : Obligations.CodeTableShapeIsKept :=
  ⟨State.codeInv_isInvariant.reset, fun _ _ => State.codeInv_isInvariant.step⟩

end

end Sys2Proof.Machine
end

section
/-! PROOFS. The memories stay in canonical form (20_memory.md R36), and with that every step keeps
the invariant of the whole state (10_state.md R34). -/

namespace Sys2Proof.Machine

/-! ### Tables: canonical form and index range -/

/-- A table in canonical form that lists only cells below `n`. -/
def TableOk {α : Type} [DecidableEq α] (u : α) (n : Nat) (l : Cells α) : Prop :=
  cellsWf u l = true ∧ ∀ c ∈ l, c.1 < n

section
variable {α : Type} [DecidableEq α] {u v : α} {l : Cells α} {i n : Nat}

theorem TableOk.nil : TableOk u n [] := ⟨rfl, fun _ h => absurd h List.not_mem_nil⟩

theorem TableOk.write (h : TableOk u n l) (hi : i < n) : TableOk u n (writeCell u l i v) :=
  ⟨cellsWf_writeCell h.1, writeCell_index_lt h.2 hi⟩

end

theorem TableOk.writeFreq {f : Cells Count} (h : TableOk 0 nsym f) (a : Symbol) (n : Count) :
    TableOk 0 nsym (writeFreq f a n) := h.write a.isLt

theorem TableOk.countSymbols (syms : List Symbol) : TableOk 0 nsym (countSymbols syms) :=
  List.foldlRecOn syms countOne .nil fun _ h a _ => h.writeFreq a _

theorem TableOk.writeCode {t : Cells (List Bool)} (h : TableOk [] nsym t) (a : Symbol)
    (c : List Bool) : TableOk [] nsym (writeCode t a c) := h.write a.isLt

theorem TableOk.deriveLoop (nodes : List Node) (fuel : Nat) (stack : List (NodeIdx × List Bool))
    {codes : Cells (List Bool)} (h : TableOk [] nsym codes) :
    TableOk [] nsym (deriveLoop nodes fuel stack codes) := by
  induction fuel generalizing stack codes with
  | zero => exact h
  | succ fuel ih =>
    match stack with
    | [] => exact h
    | (i, path) :: rest =>
      simp only [Machine.deriveLoop]
      split
      · exact ih _ (h.writeCode _ _)
      · exact ih _ h

theorem TableOk.deriveCodes (nodes : List Node) (root : NodeIdx) :
    TableOk [] nsym (deriveCodes nodes root) := by
  unfold Machine.deriveCodes
  split
  · exact .nil
  · split
    · exact TableOk.nil.writeCode _ _
    · exact TableOk.nil.deriveLoop _ _ _

theorem TableOk.storeNodes (nodes : List Node) (k : Nat) {t : Cells Node}
    (h : TableOk Node.unlisted maxNodes t) (hk : k + nodes.length ≤ maxNodes) :
    TableOk Node.unlisted maxNodes (storeNodes k nodes t) := by
  induction nodes generalizing k t with
  | nil => exact h
  | cons n rest ih =>
    rw [List.length_cons] at hk
    exact ih (k + 1) (h.write (by omega)) (by omega)

/-! ### Every step keeps the canonical form -/

variable {s t : State}

/-- CellsOk reads the five memories. -/
theorem State.CellsOk.of_memories (hfreq : TableOk 0 nsym s.freq)
    (hnode : TableOk Node.unlisted maxNodes s.node) (hcode : TableOk [] nsym s.code)
    (hsymbuf : s.symbuf.wf = true) (hbytebuf : s.bytebuf.wf = true) : s.CellsOk :=
  ⟨hfreq.1, hnode.1, hcode.1, hsymbuf, hbytebuf, hfreq.2, hnode.2, hcode.2⟩

section
variable (h : s.CellsOk)
include h

theorem State.CellsOk.freq_ok : TableOk 0 nsym s.freq := ⟨h.freq_wf, h.freq_lt⟩

theorem State.CellsOk.node_ok : TableOk Node.unlisted maxNodes s.node := ⟨h.node_wf, h.node_lt⟩

theorem State.CellsOk.code_ok : TableOk [] nsym s.code := ⟨h.code_wf, h.code_lt⟩

/-- A change of registers alone. -/
theorem State.CellsOk.congr (hfreq : t.freq = s.freq) (hnode : t.node = s.node)
    (hcode : t.code = s.code) (hsymbuf : t.symbuf = s.symbuf) (hbytebuf : t.bytebuf = s.bytebuf) :
    t.CellsOk :=
  .of_memories (hfreq ▸ h.freq_ok) (hnode ▸ h.node_ok) (hcode ▸ h.code_ok)
    (hsymbuf ▸ h.symbuf_wf) (hbytebuf ▸ h.bytebuf_wf)

theorem State.CellsOk.setFreq {f : Cells Count} (hf : TableOk 0 nsym f) : (s.setFreq f).CellsOk :=
  .of_memories hf h.node_ok h.code_ok h.symbuf_wf h.bytebuf_wf

theorem State.CellsOk.build : s.build.CellsOk :=
  .of_memories h.freq_ok
    (h.node_ok.storeNodes _ 0 ((Nat.zero_add _).trans_le (buildArena_length_le _)))
    (.deriveCodes _ _) h.symbuf_wf h.bytebuf_wf

end

theorem State.CellsOk.change {i : Instr} (hc : Change i s t) (h : s.CellsOk) : t.CellsOk := by
  cases hc with
  | clear => exact .of_memories .nil h.node_ok .nil h.symbuf_wf h.bytebuf_wf
  | push =>
    exact .of_memories h.freq_ok h.node_ok h.code_ok (Memory.wf_write h.symbuf_wf _ _) h.bytebuf_wf
  | emptySymbols => exact h.congr rfl rfl rfl rfl rfl
  | setCount a d => exact h.setFreq (h.freq_ok.writeFreq a d)
  | count => exact h.setFreq (.countSymbols _)
  | build => exact h.build
  | putByte =>
    exact .of_memories h.freq_ok h.node_ok h.code_ok h.symbuf_wf (Memory.wf_write h.bytebuf_wf _ _)
  | emptyStream => exact h.congr rfl rfl rfl rfl rfl
  | appendBit =>
    exact .of_memories h.freq_ok h.node_ok h.code_ok h.symbuf_wf (Memory.wf_write h.bytebuf_wf _ _)
  | walk b =>
    rw [s.walkStep_frame b]
    exact h.congr rfl rfl rfl rfl rfl
  | toRoot => exact h.congr rfl rfl rfl rfl rfl

theorem State.cellsOk_isInvariant : IsInvariant State.CellsOk where
  reset _ := .of_memories .nil .nil .nil rfl rfl
  change := State.CellsOk.change
  answer _ h := h.congr rfl rfl rfl rfl rfl
  takeEvent _ h := h.congr rfl rfl rfl rfl rfl

/-! ### The invariant of the whole state -/

/-- Settles O11: the four parts of the invariant hold after reset. -/
theorem resetSatisfiesTheInvariant : Obligations.ResetSatisfiesTheInvariant := fun p =>
  ⟨State.cellsOk_isInvariant.reset p, State.buffersOk_isInvariant.reset p,
    State.treeInv_isInvariant.reset p, State.codeInv_isInvariant.reset p⟩

/-- Settles O16: every step keeps each of the four parts of the invariant. -/
theorem invariantIsKeptByEveryStep : Obligations.InvariantIsKeptByEveryStep := fun _ _ h hstep =>
  ⟨State.cellsOk_isInvariant.step h.cells hstep, State.buffersOk_isInvariant.step h.buffers hstep,
    State.treeInv_isInvariant.step h.tree hstep, State.codeInv_isInvariant.step h.codes hstep⟩

end Sys2Proof.Machine
end

section
/-! PROOFS. Who changes PHASE and the tree (10_state.md R18, R23), the reset table (R35), and what a
step runs (R14). -/

namespace Sys2Proof.Machine

variable {i : Instr} {s t : State}

/-! ### PHASE and the tree -/

/-- `t` has the phase, the counts, the tree and the codes of `s`. -/
def State.SameTree (s t : State) : Prop :=
  t.phase = s.phase ∧ t.freq = s.freq ∧ t.node = s.node ∧ t.code = s.code ∧ t.root = s.root ∧
    t.nsyms = s.nsyms ∧ t.nnodes = s.nnodes

theorem State.SameTree.refl (s : State) : s.SameTree s := ⟨rfl, rfl, rfl, rfl, rfl, rfl, rfl⟩

theorem Change.sameTree (hc : Change i s t) (hp : s.phase = .built) (hi : i ≠ .clr) :
    s.SameTree t := by
  cases hc with
  | clear h => exact absurd h hi
  | setCount _ _ hu => simp [hp] at hu
  | count hu => simp [hp] at hu
  | build _ hu => simp [hp] at hu
  | walk b =>
    rw [s.walkStep_frame b]
    exact .refl s
  | push | emptySymbols | putByte | emptyStream | appendBit | toRoot => exact .refl s

/-- In BUILT the changes of a command other than CLR keep the tree. -/
theorem Changes.sameTree (hc : Changes i s t) (hp : s.phase = .built) (hi : i ≠ .clr) :
    s.SameTree t := by
  induction hc with
  | refl => exact .refl s
  | tail _ hlast ih =>
    obtain ⟨h1, h2, h3, h4, h5, h6, h7⟩ := ih
    obtain ⟨g1, g2, g3, g4, g5, g6, g7⟩ := hlast.sameTree (h1.trans hp) hi
    exact ⟨g1.trans h1, g2.trans h2, g3.trans h3, g4.trans h4, g5.trans h5, g6.trans h6,
      g7.trans h7⟩

theorem exec_sameTree (h : exec i s = .next t) (hp : s.phase = .built) (hi : i ≠ .clr) :
    s.SameTree t := by
  obtain ⟨u, r, rfl, hu⟩ := exec_eq_next h
  exact hu.sameTree hp hi

/-- A change that leaves UNINIT is BUILD's. -/
theorem Change.phase_uninit (hc : Change i s t) (hp : s.phase = .uninit) (hi : i ≠ .build) :
    t.phase = .uninit := by
  cases hc with
  | clear => rfl
  | build h => exact absurd h hi
  | walk _ hb => simp [hp] at hb
  | toRoot hb => simp [hp] at hb
  | push | emptySymbols | setCount | count | putByte | emptyStream | appendBit => exact hp

theorem Changes.phase_uninit (hc : Changes i s t) (hp : s.phase = .uninit) (hi : i ≠ .build) :
    t.phase = .uninit := by
  induction hc with
  | refl => exact hp
  | tail _ hlast ih => exact hlast.phase_uninit ih hi

theorem execBuild_of_uninit (hp : s.phase = .uninit) :
    exec .build s = respondOk (s.build.nnodes.setWidth 32) s.build := by
  simp [exec, execBuild, hp]

/-- Settles O19: in BUILT no change of a command other than CLR touches the tree. -/
theorem builtTreeIsImmutable : Obligations.BuiltTreeIsImmutable := by
  intro i s t h hp hi
  obtain ⟨hphase, htree⟩ := exec_sameTree h hp hi
  exact ⟨hphase.trans hp, htree⟩

/-- Settles O18: of the changes only BUILD's leaves UNINIT and only CLR's leaves BUILT. -/
theorem onlyBuildAndClrChangePhase : Obligations.OnlyBuildAndClrChangePhase := by
  refine ⟨fun _ => rfl, fun s => ⟨_, rfl, rfl⟩, ?_, ?_,
    fun s hp => ⟨_, execBuild_of_uninit hp, rfl⟩⟩
  · intro i s t h hp ht
    by_cases hi : i = .build
    · subst hi
      rw [execBuild_of_uninit hp] at h
      obtain rfl := Host.Outcome.next.inj h
      exact ⟨rfl, _, rfl⟩
    · obtain ⟨u, r, rfl, hu⟩ := exec_eq_next h
      have hup : u.phase = .uninit := hu.phase_uninit hp hi
      simp [hup] at ht
  · intro i s t h hp ht
    by_contra hi
    have hbuilt := (exec_sameTree h hp hi).1.trans hp
    simp [ht] at hbuilt

/-! ### The reset table -/

/-- The table of R35, from the values of the registers and the two tables. -/
theorem State.IsReset.of_registers (hphase : s.phase = .uninit) (hsymlen : s.symlen = 0)
    (hbitlen : s.bitlen = 0) (hnsyms : s.nsyms = 0) (hnnodes : s.nnodes = 0) (hroot : s.root = NIL)
    (hcur : s.cur = NIL) (hfreq : s.freq = []) (hcode : s.code = []) : s.IsReset where
  phase := hphase
  symlen := hsymlen
  bitlen := hbitlen
  bytelen := by simp [State.bytelen, hbitlen]
  nsyms := hnsyms
  nnodes := hnnodes
  root := hroot
  cur := hcur
  freq a := by simp [State.freqAt, hfreq]
  code a := by simp [State.codeLen, State.codeAt, hcode]
  status := by
    simp [State.readReg, State.statusWord, State.flagBuilt, State.flagEmpty, State.flagSingle,
      State.flagMidwalk, hphase]
  symcap := by
    have := s.params.symCap_le
    simp only [State.readReg, BitVec.toNat_ofNat]
    omega
  bytecap := by
    have := s.params.byteCap_le
    simp only [State.readReg, BitVec.toNat_ofNat]
    omega

theorem State.isReset_resetFor (p : Params) : (State.resetFor p).IsReset :=
  .of_registers rfl rfl rfl rfl rfl rfl rfl rfl rfl

theorem step_of_reset {rest : List HostEvent} (h : s.inputs = .reset :: rest) :
    step s = .next (s.takeEvent rest).hostReset := by
  simp [step, h]

/-- Settles O9: a reset event and CLR give every register and both tables the values of reset. -/
theorem resetAndClrGiveTheResetState : Obligations.ResetAndClrGiveTheResetState :=
  ⟨State.isReset_resetFor _, State.isReset_resetFor,
    fun _ _ h => ⟨_, step_of_reset h, .of_registers rfl rfl rfl rfl rfl rfl rfl rfl rfl, rfl⟩,
    fun _ => ⟨_, rfl, .of_registers rfl rfl rfl rfl rfl rfl rfl rfl rfl⟩⟩

/-! ### What a step runs -/

theorem step_of_command {w : CmdWord} {rest : List HostEvent} (h : s.inputs = .command w :: rest)
    (hd : decode w = .ok i) : step s = exec i (s.takeEvent rest) := by
  simp [step, h, hd]

theorem step_of_illegal {w : CmdWord} {rest : List HostEvent} {e : DecodeError}
    (h : s.inputs = .command w :: rest) (hd : decode w = .error e) :
    step s = answerIllegal (s.takeEvent rest) := by
  simp [step, h, hd]

theorem step_of_idle (h : s.inputs = []) : step s = .next s := by simp [step, h]

theorem tableWord_of_lt {w : Nat} (h : w < 2 ^ 48) : tableWord 48 w = BitVec.ofNat 48 w := by
  rw [tableWord, Nat.mod_eq_of_lt h]

/-- Settles O7: the three kinds of event, and a word placed as the next one. -/
theorem stepRunsTheDecodedCommand : Obligations.StepRunsTheDecodedCommand :=
  ⟨fun _ _ _ _ => step_of_command, fun _ _ => step_of_reset, fun _ => step_of_idle,
    fun s w hw => by rw [State.withFetchWord, State.offerWord_inputs, tableWord_of_lt hw]⟩

end Sys2Proof.Machine
end

section
/-! PROOFS. What the cells that are not valid hold cannot be observed (10_state.md R32): two runs
from states that agree on everything valid answer alike. -/

namespace Sys2Proof.Machine

variable {s t : State}

/-- Both results are one next state, and the two states agree on everything valid. -/
def AnswerAlike (x y : Result) : Prop := ∃ u v, x = .next u ∧ y = .next v ∧ u.SameView v

/-! ### What agreement on the valid cells gives -/

/-- A state's lists of valid symbols agree when the cells below SYMLEN do. -/
theorem State.symbols_eq_iff (hlen : s.symlen = t.symlen) :
    s.symbols = t.symbols ↔ ∀ j, j < s.symlen.toNat → s.symbuf.read j = t.symbuf.read j := by
  simp [State.symbols, hlen, List.map_inj_left]

theorem State.bytes_eq_iff (hlen : s.bitlen = t.bitlen) :
    s.bytes = t.bytes ↔ ∀ j, j < s.bytelen → s.bytebuf.read j = t.bytebuf.read j := by
  simp [State.bytes, State.bytelen_congr hlen, List.map_inj_left]

theorem State.bytes_of_empty (hlen : s.bitlen = 0) : s.bytes = [] := by
  simp [State.bytes, State.bytelen, hlen]

namespace State.SameView

variable (h : s.SameView t)
include h

theorem read_symbuf {j : Nat} (hj : j < s.symlen.toNat) : s.symbuf.read j = t.symbuf.read j :=
  (State.symbols_eq_iff h.symlen).mp h.symbols j hj

theorem read_bytebuf {j : Nat} (hj : j < s.bytelen) : s.bytebuf.read j = t.bytebuf.read j :=
  (State.bytes_eq_iff h.bitlen).mp h.bytes j hj

theorem bytelen : s.bytelen = t.bytelen := State.bytelen_congr h.bitlen

theorem freqAt : s.freqAt = t.freqAt := funext h.freq

theorem readReg (a : Nat) : s.readReg a = t.readReg a := by
  simp [State.readReg, State.statusWord, State.flagBuilt, State.flagEmpty, State.flagSingle,
    State.flagMidwalk, h.phase, h.nsyms, h.root, h.cur, h.symlen, h.bitlen, h.bytelen, h.nnodes,
    h.params]

/-- The stream agrees on every position of a valid byte. -/
theorem streamBits {start n : Nat} (hn : start + n ≤ 8 * s.bytelen) :
    s.streamBits start n = t.streamBits start n := by
  refine List.map_congr_left fun k hk => ?_
  rw [List.mem_range] at hk
  rw [State.streamBit, State.streamBit, h.read_bytebuf (by omega)]

/-! ### The changes keep the agreement -/

theorem answer (r : Response) : (s.answer r).SameView (t.answer r) := { h with rsp := rfl }

theorem takeEvent (rest : List HostEvent) : (s.takeEvent rest).SameView (t.takeEvent rest) :=
  { h with inputs := rfl }

theorem setCur {i j : NodeIdx} (hij : i = j) : (s.setCur i).SameView (t.setCur j) :=
  { h with cur := hij }

theorem emptySymbols : s.emptySymbols.SameView t.emptySymbols :=
  { h with symlen := rfl, symbols := rfl }

theorem emptyStream : s.emptyStream.SameView t.emptyStream :=
  { h with
    bitlen := rfl
    bytes := (State.bytes_of_empty rfl).trans (State.bytes_of_empty rfl).symm }

theorem emptyOutput : s.emptyOutput.SameView t.emptyOutput := h.emptySymbols.setCur h.root

theorem pushSymbol (a : Symbol) : (s.pushSymbol a).SameView (t.pushSymbol a) := by
  have hlen : (s.pushSymbol a).symlen = (t.pushSymbol a).symlen := by simp [h.symlen]
  refine { h with symlen := hlen, symbols := (State.symbols_eq_iff hlen).mpr fun j hj => ?_ }
  rw [State.pushSymbol_symlen, BitVec.toNat_ofNat] at hj
  rw [State.pushSymbol_symbuf, State.pushSymbol_symbuf, Memory.read_write, Memory.read_write,
    ← h.symlen]
  split
  · rfl
  · exact h.read_symbuf (by omega)

theorem putByte (a : OperandA) : (s.putByte a).SameView (t.putByte a) := by
  have hlen : (s.putByte a).bitlen = (t.putByte a).bitlen := by simp [State.putByte, h.bytelen]
  refine { h with bitlen := hlen, bytes := (State.bytes_eq_iff hlen).mpr fun j hj => ?_ }
  simp only [State.bytelen, State.putByte, BitVec.toNat_ofNat] at hj
  simp only [State.putByte, Memory.read_write, ← h.bytelen]
  split
  · rfl
  · exact h.read_bytebuf (by simp only [State.bytelen] at *; omega)

theorem appendBit (b : Bool) : (s.appendBit b).SameView (t.appendBit b) := by
  have hlen : (s.appendBit b).bitlen = (t.appendBit b).bitlen := by simp [h.bitlen]
  refine { h with bitlen := hlen, bytes := (State.bytes_eq_iff hlen).mpr fun j hj => ?_ }
  simp only [State.bytelen, State.appendBit_bitlen, BitVec.toNat_ofNat] at hj
  simp only [State.appendBit_bytebuf, Memory.read_write, ← h.bitlen]
  split
  · split
    · rfl
    · rw [h.read_bytebuf (by simp only [State.bytelen]; omega)]
  · exact h.read_bytebuf (by simp only [State.bytelen]; omega)

omit h in
theorem appendBits (bits : List Bool) (h : s.SameView t) :
    (s.appendBits bits).SameView (t.appendBits bits) := by
  induction bits generalizing s t with
  | nil => exact h
  | cons b rest ih => exact ih (h.appendBit b)

theorem setFreq {f g : Cells Count}
    (hfg : ∀ a : Symbol, readCell 0 f a.toNat = readCell 0 g a.toNat) :
    (s.setFreq f).SameView (t.setFreq g) := { h with freq := hfg }

theorem clear : s.clear.SameView t.clear :=
  { params := h.params, phase := rfl, symlen := rfl, bitlen := rfl, nsyms := rfl, nnodes := rfl
    root := rfl, cur := rfl, freq := fun _ => rfl, code := fun _ => rfl
    node := fun _ hk => absurd hk (Nat.not_lt_zero _), symbols := rfl
    bytes := (State.bytes_of_empty rfl).trans (State.bytes_of_empty rfl).symm
    rsp := h.rsp, inputs := h.inputs }

/-- The new tree and the new codes are functions of the counts (42_tree_builder.md R84). -/
theorem build : s.build.SameView t.build := by
  have hroot : s.build.root = t.build.root := by rw [State.build_root, State.build_root, h.freqAt]
  have hcode : s.build.code = t.build.code := by
    rw [State.build_code, State.build_code, h.freqAt, hroot]
  refine { h with
    phase := rfl
    nsyms := by rw [State.build_nsyms, State.build_nsyms, h.freqAt]
    nnodes := by rw [State.build_nnodes, State.build_nnodes, h.freqAt]
    root := hroot
    cur := hroot
    code := fun a => by rw [State.codeAt_congr hcode]
    node := fun k hk => ?_ }
  rw [State.build_nnodes_toNat] at hk
  rw [State.build_nodeAt s hk, State.build_nodeAt t (h.freqAt ▸ hk), h.freqAt]

end State.SameView

/-! ### Commands on states that agree -/

theorem execFcount_eq (s : State) : execFcount s =
    if s.phase = .built then raise .phase 0 s
    else respondOk 0 (s.setFreq (countSymbols s.symbols)) := by
  unfold execFcount
  split <;> simp [*, State.setFreq]

theorem execFset_eq (a : OperandA) (d : Word32) (s : State) : execFset a d s =
    if s.phase = .built then raise .phase 0 s
    else respondOk 0 (s.setFreq (writeFreq s.freq a d)) := by
  unfold execFset
  split <;> simp [*, State.setFreq]

section
variable {x y x' y' : Result}

theorem State.SameView.respondOk (h : s.SameView t) {d d' : Word32} (hd : d = d') :
    AnswerAlike (respondOk d s) (respondOk d' t) :=
  ⟨_, _, rfl, rfl, hd ▸ h.answer _⟩

theorem State.SameView.raise (h : s.SameView t) (e : ErrorKind) {d d' : Word32} (hd : d = d') :
    AnswerAlike (raise e d s) (raise e d' t) :=
  ⟨_, _, rfl, rfl, hd ▸ h.answer _⟩

theorem AnswerAlike.ite {c c' : Prop} [Decidable c] [Decidable c'] (hc : c ↔ c')
    (hx : c → AnswerAlike x x') (hy : ¬ c → AnswerAlike y y') :
    AnswerAlike (if c then x else y) (if c' then x' else y') := by
  by_cases h : c
  · rw [if_pos h, if_pos (hc.mp h)]
    exact hx h
  · rw [if_neg h, if_neg (mt hc.mpr h)]
    exact hy h

end

theorem State.SameView.encodeFrom (k : Nat) (syms : List Symbol) (h : s.SameView t) :
    AnswerAlike (encodeFrom k syms s) (encodeFrom k syms t) := by
  induction syms generalizing k s t with
  | nil => exact h.respondOk h.bitlen
  | cons a rest ih =>
    have hlen : s.codeLen a = t.codeLen a := congrArg List.length (h.code a)
    refine .ite (by rw [hlen]) (fun _ => h.emptyStream.raise _ rfl) fun _ =>
      .ite (by rw [h.params, h.bitlen, hlen]) (fun _ => h.emptyStream.raise _ rfl) fun _ => ih _ ?_
    rw [h.code a]
    exact h.appendBits _

/-- The walker on two states that agree, one of them on a tree, reads valid nodes alone. -/
theorem State.SameView.walkStep (h : s.SameView t) (tree : s.TreeOk) (b : Bool) :
    ∃ res u v, s.walkStep b = (res, u) ∧ t.walkStep b = (res, v) ∧ u.SameView v := by
  unfold State.walkStep
  rw [← h.root]
  by_cases hr : s.root = NIL
  · rw [if_pos hr, if_pos hr]
    exact ⟨_, _, _, rfl, rfl, h⟩
  rw [if_neg hr, if_neg hr, ← h.node _ (tree.root_lt hr)]
  by_cases hroot : (s.nodeAt s.root.toNat).leaf = true
  · rw [if_pos hroot, if_pos hroot]
    split
    · exact ⟨_, _, _, rfl, rfl, h⟩
    · exact ⟨_, _, _, rfl, rfl, h⟩
  have hinternal : (s.nodeAt s.root.toNat).leaf = false := Bool.eq_false_of_not_eq_true hroot
  have hchild : s.child s.cur b = t.child t.cur b := by
    rw [State.child, State.child, ← h.cur, h.node _ (tree.cur_internal hr hinternal).1]
  rw [if_neg hroot, if_neg hroot]
  dsimp only
  rw [← hchild, ← h.node _ (tree.child_cur_lt hr hinternal b)]
  split
  · exact ⟨_, _, _, rfl, rfl, h.setCur rfl⟩
  · exact ⟨_, _, _, rfl, rfl, h.setCur rfl⟩

theorem State.TreeOk.pushSymbol (tree : s.TreeOk) (a : Symbol) : (s.pushSymbol a).TreeOk :=
  tree.congr rfl rfl rfl rfl rfl tree.cur_ok

theorem State.SameView.decodeFrom (k start : Nat) (bits : List Bool) (h : s.SameView t)
    (tree : s.TreeOk) : AnswerAlike (decodeFrom k start bits s) (decodeFrom k start bits t) := by
  induction bits generalizing k start s t with
  | nil =>
    exact .ite (by rw [h.cur, h.root]) (fun _ => h.emptyOutput.raise _ rfl) fun _ =>
      h.respondOk h.symlen
  | cons b rest ih =>
    obtain ⟨res, u, v, hs, ht, hview⟩ := h.walkStep tree b
    have hwalk : u.TreeOk := by simpa [hs] using tree.walkStep b
    simp only [Machine.decodeFrom, hs, ht]
    cases res with
    | badCode => exact hview.emptyOutput.raise _ rfl
    | noEmit => exact ih _ _ hview hwalk
    | emit sym =>
      exact .ite (by rw [hview.symlen, hview.params]) (fun _ => hview.emptyOutput.raise _ rfl)
        fun _ => ih _ _ (hview.pushSymbol sym) (hwalk.pushSymbol sym)

theorem State.SameView.execDstep (a : OperandA) (h : s.SameView t)
    (tree : s.phase = .built → s.TreeOk) : AnswerAlike (execDstep a s) (execDstep a t) := by
  refine .ite Iff.rfl (fun _ => h.raise _ rfl) fun _ => ?_
  rw [← h.phase]
  split
  · exact h.raise _ rfl
  · rename_i hp
    obtain ⟨res, u, v, hs, ht, hview⟩ := h.walkStep (tree hp) (a = 1)
    rw [hs, ht]
    cases res with
    | badCode => exact hview.raise _ rfl
    | emit sym => exact hview.respondOk rfl
    | noEmit => exact hview.respondOk rfl

/-- Every command answers alike on states that agree, one of them on a tree if it is BUILT. -/
theorem State.SameView.exec (i : Instr) (h : s.SameView t) (tree : s.phase = .built → s.TreeOk) :
    AnswerAlike (exec i s) (exec i t) := by
  cases i with
  | nop => exact h.respondOk rfl
  | clr => exact h.clear.respondOk rfl
  | rdreg a => exact .ite Iff.rfl (fun _ => h.raise _ rfl) fun _ => h.respondOk (h.readReg _)
  | wsym a =>
    exact .ite (by rw [h.symlen, h.params]) (fun _ => h.raise _ h.symlen) fun _ =>
      (h.pushSymbol a).respondOk rfl
  | rsym d =>
    exact .ite (by rw [h.symlen]) (fun _ => h.raise _ h.symlen) fun hd =>
      h.respondOk (by rw [h.read_symbuf (by omega)])
  | clrs => exact h.emptySymbols.respondOk rfl
  | fcount =>
    simp only [Machine.exec, execFcount_eq]
    exact .ite (by rw [h.phase]) (fun _ => h.raise _ rfl) fun _ =>
      (h.setFreq fun _ => by rw [h.symbols]).respondOk rfl
  | fset a d =>
    simp only [Machine.exec, execFset_eq]
    refine .ite (by rw [h.phase]) (fun _ => h.raise _ rfl) fun _ =>
      (h.setFreq fun b => ?_).respondOk rfl
    rw [writeFreq, writeFreq, readCell_writeCell, readCell_writeCell]
    exact if_congr Iff.rfl rfl (h.freq b)
  | fget a => exact h.respondOk (h.freq a)
  | build =>
    simp only [Machine.exec, execBuild, ← h.phase]
    split
    · exact h.raise _ rfl
    · exact h.build.respondOk (by rw [h.build.nnodes])
  | nget a d =>
    exact .ite Iff.rfl (fun _ => h.raise _ rfl) fun _ =>
      .ite (by rw [h.nnodes]) (fun _ => h.raise _ (by rw [h.nnodes])) fun hd =>
        h.respondOk (by rw [h.node _ (by omega)])
  | cget a d =>
    exact .ite Iff.rfl (fun _ => h.raise _ rfl) fun _ =>
      .ite Iff.rfl (fun _ => h.respondOk (by rw [State.codeLen, State.codeLen, h.code])) fun _ =>
        h.respondOk (by rw [h.code])
  | wbyte a =>
    exact .ite (by rw [h.bytelen, h.params]) (fun _ => h.raise _ (by rw [h.bytelen])) fun _ =>
      (h.putByte a).respondOk rfl
  | rbyte d =>
    exact .ite (by rw [h.bytelen]) (fun _ => h.raise _ (by rw [h.bytelen])) fun hd =>
      h.respondOk (by rw [h.read_bytebuf (by omega)])
  | clrb => exact h.emptyStream.respondOk rfl
  | bput a d =>
    exact .ite Iff.rfl (fun _ => h.raise _ rfl) fun _ =>
      .ite (by rw [h.params, h.bitlen]) (fun _ => h.raise _ h.bitlen) fun _ =>
        (h.appendBits _).respondOk rfl
  | bget a d =>
    exact .ite Iff.rfl (fun _ => h.raise _ rfl) fun _ =>
      .ite (by rw [h.bytelen]) (fun _ => h.raise _ (by rw [h.bytelen])) fun hd =>
        h.respondOk (by rw [h.streamBits (by omega)])
  | encode =>
    simp only [Machine.exec, execEncode, ← h.phase]
    split
    · exact h.raise _ rfl
    · rw [h.symbols]
      exact h.emptyStream.encodeFrom _ _
  | decode d =>
    simp only [Machine.exec, execDecode, ← h.phase]
    split
    · exact h.raise _ rfl
    · rename_i hp
      refine .ite (by rw [h.bytelen]) (fun _ => h.raise _ (by rw [h.bytelen])) fun hd => ?_
      rw [h.streamBits (by omega)]
      exact h.emptyOutput.decodeFrom _ _ _ ((tree hp).congr rfl rfl rfl rfl rfl (.inl rfl))
  | dstep a => exact h.execDstep a tree
  | drst =>
    simp only [Machine.exec, execDrst, ← h.phase]
    split
    · exact h.raise _ rfl
    · exact (h.setCur h.root).respondOk rfl

theorem State.SameView.hostReset (h : s.SameView t) : s.hostReset.SameView t.hostReset := by
  rw [State.hostReset, State.hostReset, h.params, h.inputs]
  constructor <;> intros <;> rfl

/-- One step on states that agree. -/
theorem State.SameView.step (h : s.SameView t) (tree : s.TreeInv) :
    AnswerAlike (Machine.step s) (Machine.step t) := by
  obtain ⟨hin, hs⟩ | ⟨rest, hin, hs⟩ | ⟨w, rest, i, hin, hd, hs⟩ | ⟨w, rest, e, hin, hd, hs⟩ :=
    step_cases s <;> rw [hs]
  · rw [step_of_idle (h.inputs ▸ hin)]
    exact ⟨s, t, rfl, rfl, h⟩
  · rw [step_of_reset (h.inputs ▸ hin)]
    exact ⟨_, _, rfl, rfl, (h.takeEvent rest).hostReset⟩
  · rw [step_of_command (h.inputs ▸ hin) hd]
    exact (h.takeEvent rest).exec i (State.treeInv_isInvariant.takeEvent rest tree).2
  · rw [step_of_illegal (h.inputs ▸ hin) hd]
    exact (h.takeEvent rest).raise _ rfl

/-- Settles O17: every step answers alike on two states that agree on everything valid. -/
theorem invalidCellsCannotBeObserved : Obligations.InvalidCellsCannotBeObserved := by
  intro s t s' hs _ hview hstep
  obtain ⟨u, v, hu, hv, huv⟩ := hview.step hs.tree
  obtain rfl : u = s' := Host.Outcome.next.inj (hu.symm.trans hstep)
  exact ⟨v, hv, huv⟩

end Sys2Proof.Machine
end

section
/-! PROOFS. Which parts of the state each command writes, said once for every command (10_state.md
R19, column "written by"; 20_memory.md R37, the W entries). -/

namespace Sys2Proof.Machine

/-- The parts of the state that commands write. NSYMS, NNODES and ROOT have the same writers in R19
and are one part. -/
inductive Part where
  | phase
  | symlen
  | bitlen
  | tree
  | cur
  | freq
  | node
  | code
  | symbuf
  | bytebuf

/-- The parts that a command may write (R19, R37), by command. -/
def writtenParts : Instr → List Part
  | .nop | .rdreg _ | .rsym _ | .fget _ | .nget _ _ | .cget _ _ | .rbyte _ | .bget _ _ => []
  | .clr => [.phase, .symlen, .bitlen, .tree, .cur, .freq, .code]
  | .wsym _ => [.symlen, .symbuf]
  | .clrs => [.symlen]
  | .fcount | .fset _ _ => [.freq]
  | .build => [.phase, .tree, .cur, .node, .code]
  | .wbyte _ | .bput _ _ | .encode => [.bitlen, .bytebuf]
  | .clrb => [.bitlen]
  | .decode _ => [.symlen, .cur, .symbuf]
  | .dstep _ | .drst => [.cur]

/-- `t` is `s` but for the parts in `w` and the response. -/
structure WritesOnly (w : List Part) (s t : State) : Prop where
  params : t.params = s.params
  inputs : t.inputs = s.inputs
  phase : .phase ∉ w → t.phase = s.phase
  symlen : .symlen ∉ w → t.symlen = s.symlen
  bitlen : .bitlen ∉ w → t.bitlen = s.bitlen
  tree : .tree ∉ w → t.nsyms = s.nsyms ∧ t.nnodes = s.nnodes ∧ t.root = s.root
  cur : .cur ∉ w → t.cur = s.cur
  freq : .freq ∉ w → t.freq = s.freq
  node : .node ∉ w → t.node = s.node
  code : .code ∉ w → t.code = s.code
  symbuf : .symbuf ∉ w → t.symbuf = s.symbuf
  bytebuf : .bytebuf ∉ w → t.bytebuf = s.bytebuf

/-- The result `x` is one next state, and it is `s` but for the parts in `w` and the response. -/
def AnswersWriting (w : List Part) (s : State) (x : Result) : Prop :=
  ∃ t, x = .next t ∧ WritesOnly w s t

variable {i : Instr} {s t u : State} {x y : Result} {w : List Part}

theorem WritesOnly.refl (w : List Part) (s : State) : WritesOnly w s s := by
  constructor <;> simp

theorem WritesOnly.respondOk (h : WritesOnly w s u) (d : Word32) :
    AnswersWriting w s (respondOk d u) := ⟨_, rfl, { h with }⟩

theorem WritesOnly.raise (h : WritesOnly w s u) (e : ErrorKind) (info : Word32) :
    AnswersWriting w s (raise e info u) := ⟨_, rfl, { h with }⟩

theorem AnswersWriting.ite {c : Prop} [Decidable c] (hx : AnswersWriting w s x)
    (hy : AnswersWriting w s y) : AnswersWriting w s (if c then x else y) :=
  iteInduction (fun _ => hx) fun _ => hy

theorem WritesOnly.setFreq (s : State) (f : Cells Count) :
    WritesOnly [.freq] s (s.setFreq f) := by
  constructor <;> simp [State.setFreq]

theorem WritesOnly.setCur (s : State) (i : NodeIdx) : WritesOnly [.cur] s (s.setCur i) := by
  constructor <;> simp

/-- A change of BYTEBUF and BITLEN alone, whatever becomes of the response. -/
theorem WritesOnly.stream (s : State) (bytebuf : Memory) (bitlen : Word32) (rsp : Option Response) :
    WritesOnly [.bitlen, .bytebuf] s { s with bytebuf, bitlen, rsp } := by
  constructor <;> simp

theorem execDstep_writes (a : OperandA) (s : State) :
    AnswersWriting [.cur] s (execDstep a s) := by
  have same := WritesOnly.refl [.cur] s
  refine .ite (same.raise _ _) ?_
  split
  · exact same.raise _ _
  · split <;> rename_i hwalk <;> rw [State.eq_setCur_of_walkStep hwalk]
    · exact (WritesOnly.setCur s _).raise _ _
    · exact (WritesOnly.setCur s _).respondOk _
    · exact (WritesOnly.setCur s _).respondOk _

/-- Every command writes its own parts and the response. -/
theorem exec_writes (i : Instr) (s : State) : AnswersWriting (writtenParts i) s (exec i s) := by
  have same := WritesOnly.refl (writtenParts i) s
  cases i with
  | nop => exact same.respondOk _
  | clr => exact WritesOnly.respondOk (u := s.clear) (by constructor <;> simp [writtenParts]) _
  | rdreg a => exact .ite (same.raise _ _) (same.respondOk _)
  | wsym a =>
    exact .ite (same.raise _ _)
      (WritesOnly.respondOk (u := s.pushSymbol a) (by constructor <;> simp [writtenParts]) _)
  | rsym d => exact .ite (same.raise _ _) (same.respondOk _)
  | clrs =>
    exact WritesOnly.respondOk (u := s.emptySymbols) (by constructor <;> simp [writtenParts]) _
  | fcount =>
    simp only [exec, execFcount_eq]
    exact .ite (same.raise _ _) ((WritesOnly.setFreq s _).respondOk _)
  | fset a d =>
    simp only [exec, execFset_eq]
    exact .ite (same.raise _ _) ((WritesOnly.setFreq s _).respondOk _)
  | fget a => exact same.respondOk _
  | build =>
    simp only [exec, execBuild]
    split
    · exact same.raise _ _
    · exact WritesOnly.respondOk (by constructor <;> simp [writtenParts]) _
  | nget a d => exact .ite (same.raise _ _) (.ite (same.raise _ _) (same.respondOk _))
  | cget a d => exact .ite (same.raise _ _) (.ite (same.respondOk _) (same.respondOk _))
  | wbyte a => exact .ite (same.raise _ _) ((WritesOnly.stream s _ _ s.rsp).respondOk _)
  | rbyte d => exact .ite (same.raise _ _) (same.respondOk _)
  | clrb =>
    exact WritesOnly.respondOk (u := s.emptyStream) (by constructor <;> simp [writtenParts]) _
  | bput a d =>
    simp only [exec, execBput]
    rw [State.appendBits_frame]
    exact .ite (same.raise _ _)
      (.ite (same.raise _ _) ((WritesOnly.stream s _ _ s.rsp).respondOk _))
  | bget a d => exact .ite (same.raise _ _) (.ite (same.raise _ _) (same.respondOk _))
  | encode =>
    simp only [exec, execEncode]
    split
    · exact same.raise _ _
    · obtain ⟨t, _, ht, _, hframe, _⟩ := encodeFrom_answers 0 s.symbols s.emptyStream
      exact ⟨t, ht, hframe ▸ WritesOnly.stream s t.bytebuf t.bitlen t.rsp⟩
  | decode d =>
    simp only [exec, execDecode]
    split
    · exact same.raise _ _
    · refine .ite (same.raise _ _) ?_
      obtain ⟨t, _, ht, _, hframe, _⟩ :=
        decodeFrom_answers 0 0 (s.streamBits 0 d.toNat) s.emptyOutput
      refine ⟨t, ht, ?_⟩
      rw [hframe]
      constructor <;> simp [writtenParts]
  | dstep a => exact execDstep_writes a s
  | drst =>
    simp only [exec, execDrst]
    split
    · exact same.raise _ _
    · exact (WritesOnly.setCur s _).respondOk _

theorem exec_writesOnly (h : exec i s = .next t) : WritesOnly (writtenParts i) s t := by
  obtain ⟨u, hu, hw⟩ := exec_writes i s
  obtain rfl : u = t := Host.Outcome.next.inj (hu.symm.trans h)
  exact hw

/-! ### The writers of each part -/

theorem writer_of_freq (h : .freq ∈ writtenParts i) :
    i = .clr ∨ i = .fcount ∨ ∃ a d, i = .fset a d := by
  cases i <;> simp [writtenParts] at h ⊢

theorem writer_of_node (h : .node ∈ writtenParts i) : i = .build := by
  cases i <;> simp [writtenParts] at h ⊢

theorem writer_of_code (h : .code ∈ writtenParts i) : i = .clr ∨ i = .build := by
  cases i <;> simp [writtenParts] at h ⊢

theorem writer_of_symbuf (h : .symbuf ∈ writtenParts i) :
    (∃ a, i = .wsym a) ∨ ∃ d, i = .decode d := by
  cases i <;> simp [writtenParts] at h ⊢

theorem writer_of_bytebuf (h : .bytebuf ∈ writtenParts i) :
    (∃ a, i = .wbyte a) ∨ (∃ a d, i = .bput a d) ∨ i = .encode := by
  cases i <;> simp [writtenParts] at h ⊢

theorem writer_of_symlen (h : .symlen ∈ writtenParts i) :
    (∃ a, i = .wsym a) ∨ i = .clrs ∨ (∃ d, i = .decode d) ∨ i = .clr := by
  cases i <;> simp [writtenParts] at h ⊢

theorem writer_of_bitlen (h : .bitlen ∈ writtenParts i) :
    (∃ a, i = .wbyte a) ∨ (∃ a d, i = .bput a d) ∨ i = .clrb ∨ i = .encode ∨ i = .clr := by
  cases i <;> simp [writtenParts] at h ⊢

theorem writer_of_tree (h : .tree ∈ writtenParts i) : i = .build ∨ i = .clr := by
  cases i <;> simp [writtenParts] at h ⊢

theorem writer_of_cur (h : .cur ∈ writtenParts i) :
    i = .build ∨ (∃ d, i = .decode d) ∨ (∃ a, i = .dstep a) ∨ i = .drst ∨ i = .clr := by
  cases i <;> simp [writtenParts] at h ⊢

/-! ### Reads -/

theorem writtenParts_of_isRead (h : IsRead i = true) : writtenParts i = [] := by
  cases i with
  | rdreg | rsym | fget | nget | cget | rbyte | bget => rfl
  | _ => cases h

theorem WritesOnly.eq_of_nil (h : WritesOnly [] s t) : t = { s with rsp := t.rsp } := by
  obtain ⟨params, inputs, phase, symlen, bitlen, tree, cur, freq, node, code, symbuf, bytebuf⟩ := h
  cases s; cases t
  simp_all

/-- A read does not depend on the response that stands on the port. -/
theorem exec_rsp_of_isRead (h : IsRead i = true) (s : State) (q : Option Response) :
    exec i { s with rsp := q } = exec i s := by
  cases i with
  | rdreg | rsym | fget | nget | cget | rbyte | bget => rfl
  | _ => cases h

end Sys2Proof.Machine
end

section
/-! PROOFS. The statements of spec/20_memory.md. -/

namespace Sys2Proof.Machine

/-- Settles O12: the canonical form and the bounds of the buffers are invariants. -/
theorem cellsStayCanonical : Obligations.CellsStayCanonical := by
  refine ⟨fun _ _ => State.cellsOk_isInvariant.step, fun s t hcells hbuffers hstep => ?_⟩
  have ht : t.BuffersOk := State.buffersOk_isInvariant.step hbuffers hstep
  exact ⟨State.cellsOk_isInvariant.step hcells hstep, ht.symbuf_lt, ht.bytebuf_lt⟩

/-- Settles O20: a part that a command changes is one that it writes, and each part has the listed
writers. -/
theorem memoriesAndRegistersHaveTheirWriters :
    Obligations.MemoriesAndRegistersHaveTheirWriters := by
  intro i s t hexec
  have h := exec_writesOnly hexec
  refine ⟨h.params, h.inputs, writer_of_freq ∘ not_imp_comm.mp h.freq,
    writer_of_node ∘ not_imp_comm.mp h.node, writer_of_code ∘ not_imp_comm.mp h.code,
    writer_of_symbuf ∘ not_imp_comm.mp h.symbuf, writer_of_bytebuf ∘ not_imp_comm.mp h.bytebuf,
    writer_of_symlen ∘ not_imp_comm.mp h.symlen, writer_of_bitlen ∘ not_imp_comm.mp h.bitlen,
    fun hne => writer_of_tree (not_imp_comm.mp h.tree ?_),
    writer_of_cur ∘ not_imp_comm.mp h.cur⟩
  rintro ⟨hnsyms, hnnodes, hroot⟩
  exact hne.elim (· hnsyms) (·.elim (· hnnodes) (· hroot))

/-- Settles O21: a read writes no part, and its answer does not depend on the last response. -/
theorem readsHaveNoSideEffect : Obligations.ReadsHaveNoSideEffect := by
  refine ⟨fun i s hread => ?_, fun s => step_of_idle⟩
  obtain ⟨t, ht, hw⟩ := exec_writes i s
  rw [writtenParts_of_isRead hread] at hw
  have hsame : exec i t = exec i s := by
    rw [hw.eq_of_nil]
    exact exec_rsp_of_isRead hread s _
  exact ⟨t, ht, hw.eq_of_nil, hsame.trans ht⟩

end Sys2Proof.Machine
end

section
/-! PROOFS. The statements of spec/30_encoding.md. They rest on `decode_eq_ok`: to decode a word is
to look its opcode value up in the opcode map (R60) and to test the row's unused fields and legal
values (R61). -/

namespace Sys2Proof.Machine

/-! ### A word by its fields -/

@[simp] theorem opField_and (v w : CmdWord) : opField (v &&& w) = opField v &&& opField w :=
  BitVec.extractLsb'_and

@[simp] theorem aField_and (v w : CmdWord) : aField (v &&& w) = aField v &&& aField w :=
  BitVec.extractLsb'_and

@[simp] theorem dField_and (v w : CmdWord) : dField (v &&& w) = dField v &&& dField w :=
  BitVec.extractLsb'_and

theorem cmdWord_eq_iff {v w : CmdWord} :
    v = w ↔ opField v = opField w ∧ aField v = aField w ∧ dField v = dField w := by
  refine ⟨by rintro rfl; exact ⟨rfl, rfl, rfl⟩, fun ⟨hop, ha, hd⟩ => ?_⟩
  rw [← packFields_fields v, hop, ha, hd, packFields_fields]

/-- The opcode value moved to its place is the word with both operand fields 0. -/
theorem setWidth_shiftLeft_eq_packFields (op : BitVec 8) :
    op.setWidth 48 <<< 40 = packFields op 0 0 := by
  rw [← packFields_and_maskN]
  exact BitVec.and_allOnes

/-! ### The formats -/

variable {row : OpcodeRow} {w : CmdWord} {i j : Instr} {a : OperandA} {d : Word32}

/-- The fields that the row's format does not use are 0 (R57). -/
def OpcodeRow.UnusedZero (row : OpcodeRow) (a : OperandA) (d : Word32) : Prop :=
  a &&& aField row.mask = 0 ∧ d &&& dField row.mask = 0

theorem unusedZero_of_maskN (h : row.mask = maskN) : row.UnusedZero a d ↔ a = 0 ∧ d = 0 := by
  rw [OpcodeRow.UnusedZero, h, show aField maskN = BitVec.allOnes 8 from rfl,
    show dField maskN = BitVec.allOnes 32 from rfl, BitVec.and_allOnes, BitVec.and_allOnes]

theorem unusedZero_of_maskA (h : row.mask = maskA) : row.UnusedZero a d ↔ d = 0 := by
  rw [OpcodeRow.UnusedZero, h, show aField maskA = 0 from rfl,
    show dField maskA = BitVec.allOnes 32 from rfl, BitVec.and_allOnes]
  exact and_iff_right BitVec.and_zero

theorem unusedZero_of_maskD (h : row.mask = maskD) : row.UnusedZero a d ↔ a = 0 := by
  rw [OpcodeRow.UnusedZero, h, show aField maskD = BitVec.allOnes 8 from rfl,
    show dField maskD = 0 from rfl, BitVec.and_allOnes]
  exact and_iff_left BitVec.and_zero

theorem unusedZero_of_maskAD (h : row.mask = maskAD) : row.UnusedZero a d := by
  rw [OpcodeRow.UnusedZero, h]
  exact ⟨BitVec.and_zero, BitVec.and_zero⟩

theorem checkLegal_eq_ok : checkLegal i = .ok j ↔ i.wf = true ∧ i = j := by
  unfold checkLegal
  split <;> simp [*]

/-- A format first tests the fields it does not use (R61). -/
theorem ite_checkLegal_eq_ok {c : Prop} [Decidable c] {e : DecodeError} :
    (if c then checkLegal i else .error e) = .ok j ↔ c ∧ i.wf = true ∧ i = j := by
  rw [← checkLegal_eq_ok]
  split_ifs with hc
  · exact (and_iff_right hc).symm
  · exact iff_of_false nofun (hc ·.1)

theorem formatN_eq_ok : formatN a d i = .ok j ↔ (a = 0 ∧ d = 0) ∧ i.wf = true ∧ i = j :=
  ite_checkLegal_eq_ok

theorem formatA_eq_ok {mk : OperandA → Instr} :
    formatA a d mk = .ok j ↔ d = 0 ∧ (mk a).wf = true ∧ mk a = j :=
  ite_checkLegal_eq_ok

theorem formatD_eq_ok {mk : Word32 → Instr} :
    formatD a d mk = .ok j ↔ a = 0 ∧ (mk d).wf = true ∧ mk d = j :=
  ite_checkLegal_eq_ok

theorem formatAD_eq_ok {mk : OperandA → Word32 → Instr} :
    formatAD a d mk = .ok j ↔ (mk a d).wf = true ∧ mk a d = j :=
  checkLegal_eq_ok

/-! ### The opcode map, row by row -/

theorem opField_mask (h : row ∈ opcodeMap) : opField row.mask = BitVec.allOnes 8 := by
  revert row
  decide

theorem legal_eq_wf (h : row ∈ opcodeMap) : row.legal a d = (row.command a d).wf := by
  revert row
  simp [opcodeMap, Instr.wf]

theorem encode_command (h : row ∈ opcodeMap) (hu : row.UnusedZero a d) :
    encode (row.command a d) = packFields row.op a d := by
  revert row
  simp +contextual [opcodeMap, encode, unusedZero_of_maskN, unusedZero_of_maskA,
    unusedZero_of_maskD]

/-- Where a row has the opcode value, decoding is the two tests of that row (R61). -/
theorem decodeFields_eq_ok (h : row ∈ opcodeMap) : decodeFields row.op a d = .ok i ↔
    row.UnusedZero a d ∧ (row.command a d).wf = true ∧ row.command a d = i := by
  revert row
  simp [opcodeMap, decodeFields, formatN_eq_ok, formatA_eq_ok, formatD_eq_ok, formatAD_eq_ok,
    unusedZero_of_maskN, unusedZero_of_maskA, unusedZero_of_maskD, unusedZero_of_maskAD]

theorem decodeFields_of_undefined {op : BitVec 8} (h : op ∉ opcodeMap.map (·.op)) :
    decodeFields op a d = .error .undefinedOpcode := by
  unfold decodeFields
  split
  case h_22 => rfl
  all_goals exact absurd (by decide) h

/-- R57, R61: a word is an instance of a row exactly when its three fields pass the row's tests. -/
theorem holds_iff (h : row ∈ opcodeMap) :
    row.holds w ↔ opField w = row.op ∧ row.UnusedZero (aField w) (dField w) ∧
      (row.command (aField w) (dField w)).wf = true := by
  rw [OpcodeRow.holds, OpcodeRow.UnusedZero, setWidth_shiftLeft_eq_packFields, cmdWord_eq_iff,
    ← legal_eq_wf h]
  simp only [opField_and, aField_and, dField_and, opField_packFields, aField_packFields,
    dField_packFields, opField_mask h, BitVec.and_allOnes, and_assoc]

/-- A word decodes to a command exactly when it is an instance of a row, and then to that row's
command. -/
theorem decode_eq_ok : decode w = .ok i ↔
    ∃ row ∈ opcodeMap, row.holds w ∧ row.command (aField w) (dField w) = i := by
  constructor
  · intro h
    by_cases hdefined : opField w ∈ opcodeMap.map (·.op)
    · obtain ⟨row, hrow, hop⟩ := List.mem_map.mp hdefined
      rw [decode, ← hop, decodeFields_eq_ok hrow] at h
      obtain ⟨hunused, hwf, hi⟩ := h
      exact ⟨row, hrow, (holds_iff hrow).mpr ⟨hop.symm, hunused, hwf⟩, hi⟩
    · rw [decode, decodeFields_of_undefined hdefined] at h
      cases h
  · rintro ⟨row, hrow, hw, rfl⟩
    obtain ⟨hop, hunused, hwf⟩ := (holds_iff hrow).mp hw
    rw [decode, hop, decodeFields_eq_ok hrow]
    exact ⟨hunused, hwf, rfl⟩

/-! ### Decoding and encoding -/

theorem encodedRow (i : Instr) : Laws.EncodedRow.Statement i := by
  cases i with
  | nop => exact Laws.EncodedRow.nop
  | clr => exact Laws.EncodedRow.clr
  | rdreg a => exact Laws.EncodedRow.rdreg a
  | wsym a => exact Laws.EncodedRow.wsym a
  | rsym d => exact Laws.EncodedRow.rsym d
  | clrs => exact Laws.EncodedRow.clrs
  | fcount => exact Laws.EncodedRow.fcount
  | fset a d => exact Laws.EncodedRow.fset a d
  | fget a => exact Laws.EncodedRow.fget a
  | build => exact Laws.EncodedRow.build
  | nget a d => exact Laws.EncodedRow.nget a d
  | cget a d => exact Laws.EncodedRow.cget a d
  | wbyte a => exact Laws.EncodedRow.wbyte a
  | rbyte d => exact Laws.EncodedRow.rbyte d
  | clrb => exact Laws.EncodedRow.clrb
  | bput a d => exact Laws.EncodedRow.bput a d
  | bget a d => exact Laws.EncodedRow.bget a d
  | encode => exact Laws.EncodedRow.encode
  | decode d => exact Laws.EncodedRow.decode d
  | dstep a => exact Laws.EncodedRow.dstep a
  | drst => exact Laws.EncodedRow.drst

/-- Settles O1: the word of a command is an instance of the command's row. -/
theorem decodeOfEncodeIsTheCommand : Obligations.DecodeOfEncodeIsTheCommand := by
  intro i hwf
  obtain ⟨row, hrow, hmask, hlegal, hcommand⟩ := encodedRow i
  exact decode_eq_ok.mpr ⟨row, hrow, ⟨hmask, hlegal.trans hwf⟩, hcommand⟩

/-- Settles O2: an instance of a row is the word of the row's command, since the fields that the
command does not carry are 0 in it. -/
theorem encodeOfDecodeIsTheWord : Obligations.EncodeOfDecodeIsTheWord := by
  intro w i h
  obtain ⟨row, hrow, hw, rfl⟩ := decode_eq_ok.mp h
  obtain ⟨hop, hunused, hwf⟩ := (holds_iff hrow).mp hw
  exact ⟨hwf, by rw [encode_command hrow hunused, ← hop, packFields_fields]⟩

/-- Settles O3: two rows that a word is an instance of have its opcode value in common. -/
theorem everyWordIsOneRowOrIllegal : Obligations.EveryWordIsOneRowOrIllegal := by
  refine ⟨by decide, fun w => ?_⟩
  cases h : decode w with
  | ok i =>
    obtain ⟨row, hrow, hw, rfl⟩ := decode_eq_ok.mp h
    refine .inl ⟨row, hrow, hw, fun other hother hw' => ?_, rfl⟩
    exact ((holds_iff hother).mp hw').1.symm.trans ((holds_iff hrow).mp hw).1
  | error e =>
    refine .inr ⟨fun row hrow hw => ?_, e, h⟩
    have hok := decode_eq_ok.mpr ⟨row, hrow, hw, rfl⟩
    cases h.symm.trans hok

/-! ### Illegal words -/

theorem isIllegal_iff_ne_ok : IsIllegal w ↔ ∀ i, decode w ≠ .ok i := by
  cases h : decode w <;> simp [IsIllegal, h]

/-- R62's list at a row of the opcode map: what the row's tests refuse. -/
theorem listedIllegal_row (h : row ∈ opcodeMap) :
    listedIllegal row.op.toNat a.toNat d.toNat = true ↔
      ¬ (row.UnusedZero a d ∧ (row.command a d).wf = true) := by
  have ha : a = 0#8 ↔ a.toNat = 0 := BitVec.toNat_inj.symm
  have hd : d = 0#32 ↔ d.toNat = 0 := BitVec.toNat_inj.symm
  have hcount : (1 ≤ a.toNat → 32 < a.toNat) ↔ a.toNat = 0 ∨ 32 < a.toNat := by omega
  revert row
  simp [opcodeMap, listedIllegal, unusedZero_of_maskN, unusedZero_of_maskA, unusedZero_of_maskD,
    unusedZero_of_maskAD, ha, hd, hcount, -not_and, not_and_or, Instr.wf]

/-- R62's list away from the opcode map: every opcode value without a row, whatever the fields. -/
theorem listedIllegal_of_undefined {op : BitVec 8} (h : op ∉ opcodeMap.map (·.op)) (a d : Nat) :
    listedIllegal op.toNat a d = true := by
  have hgaps : ∀ op : BitVec 8, op ∉ opcodeMap.map (·.op) →
      ((0x03 ≤ op.toNat && op.toNat ≤ 0x0F) || (0x16 ≤ op.toNat && op.toNat ≤ 0x1F) ||
        (0x23 ≤ op.toNat && op.toNat ≤ 0x2F) || (0x35 ≤ op.toNat && op.toNat ≤ 0x37) ||
        (0x3C ≤ op.toNat && op.toNat ≤ 0xFF)) = true := by decide
  simp only [listedIllegal, hgaps op h, Bool.true_or]

theorem isIllegal_iff_listed :
    IsIllegal w ↔ listedIllegal (opField w).toNat (aField w).toNat (dField w).toNat = true := by
  rw [isIllegal_iff_ne_ok, decode]
  by_cases hdefined : opField w ∈ opcodeMap.map (·.op)
  · obtain ⟨row, hrow, hop⟩ := List.mem_map.mp hdefined
    rw [← hop, listedIllegal_row hrow]
    simp [decodeFields_eq_ok hrow]
  · simp [decodeFields_of_undefined hdefined, listedIllegal_of_undefined hdefined]

/-- Settles O4: the list is what the tests of the opcode map refuse, and a step on such a word is an
answer. -/
theorem illegalWordsAreListedAndAnswered : Obligations.IllegalWordsAreListedAndAnswered := by
  refine fun w => ⟨isIllegal_iff_listed, ?_⟩
  rintro ⟨e, he⟩ s rest hin
  exact step_of_illegal hin he

/-! ### Responses -/

/-- R55: a step on a word, legal or not, answers once and takes the word off the host's events. -/
theorem step_answers_word {s : State} {rest : List HostEvent} (h : s.inputs = .command w :: rest) :
    Answers (s.takeEvent rest) (step s) := by
  cases hd : decode w with
  | ok i => exact step_of_command h hd ▸ exec_answers i _
  | error e => exact step_of_illegal h hd ▸ .raise _ _ _

/-- Settles O8: a step with no event or on a reset has its next state written out, and a step on a
word answers. -/
theorem everyStepGoesOnAndAnswersOnce : Obligations.EveryStepGoesOnAndAnswersOnce := by
  refine ⟨fun s => ?_, fun s w rest h => ?_⟩
  · match h : s.inputs with
    | [] => exact ⟨s, step_of_idle h⟩
    | .reset :: rest => exact ⟨_, step_of_reset h⟩
    | .command w :: rest =>
      obtain ⟨t, _, ht, _⟩ := step_answers_word h
      exact ⟨t, ht⟩
  · obtain ⟨t, r, ht, hr, _, hinputs⟩ := step_answers_word h
    exact ⟨t, r, ht, hr, hinputs⟩

/-- Settles O5: the response word is the status code appended to the data. -/
theorem responseWordCarriesStatusAndData : Obligations.ResponseWordCarriesStatusAndData :=
  ⟨fun _ => ⟨BitVec.extractLsb'_append_eq_left, BitVec.extractLsb'_append_eq_right⟩,
    rfl, rfl, rfl, rfl, rfl, rfl, rfl, rfl⟩

/-! ### Words written out -/

/-- Settles O6: each word decodes by evaluation. -/
theorem writtenOutWordsDecode : Obligations.WrittenOutWordsDecode :=
  ⟨rfl, rfl, rfl, rfl, rfl, rfl, rfl, rfl, ⟨_, rfl⟩, ⟨_, rfl⟩, ⟨_, rfl⟩⟩

end Sys2Proof.Machine
end

section
/-! PROOFS. The statements of spec/40_control.md, with what they need of illegal words, of the reset
table and of the register table. -/

namespace Sys2Proof.Machine

/-! ### Illegal words of a row -/

section
variable {row : OpcodeRow} {a : OperandA} {d : Word32}

/-- A word with a row's opcode value is illegal exactly when it fails a test of the row (R61). -/
theorem isIllegal_packFields_iff (h : row ∈ opcodeMap) : IsIllegal (packFields row.op a d) ↔
    ¬ (row.UnusedZero a d ∧ (row.command a d).wf = true) := by
  simp [isIllegal_iff_ne_ok, decodeFields_eq_ok h]

theorem isIllegal_of_maskN (h : row ∈ opcodeMap) (hmask : row.mask = maskN)
    (hne : a ≠ 0 ∨ d ≠ 0) : IsIllegal (packFields row.op a d) := by
  refine (isIllegal_packFields_iff h).mpr fun ⟨hunused, _⟩ => ?_
  obtain ⟨ha, hd⟩ := (unusedZero_of_maskN hmask).mp hunused
  exact hne.elim (· ha) (· hd)

theorem isIllegal_of_maskA (h : row ∈ opcodeMap) (hmask : row.mask = maskA)
    (hbad : ¬ (row.command a d).wf = true ∨ d ≠ 0) : IsIllegal (packFields row.op a d) := by
  refine (isIllegal_packFields_iff h).mpr fun ⟨hunused, hwf⟩ => ?_
  exact hbad.elim (· hwf) (· ((unusedZero_of_maskA hmask).mp hunused))

end

/-! ### CLR and the reset state -/

variable {s t : State}

/-- The table of R35 fixes everything that can be observed but the parameters, the response and the
host's events. -/
theorem State.IsReset.sameView (hs : s.IsReset) (ht : t.IsReset) (hparams : s.params = t.params)
    (hrsp : s.rsp = t.rsp) (hinputs : s.inputs = t.inputs) : s.SameView t where
  params := hparams
  phase := hs.phase.trans ht.phase.symm
  symlen := hs.symlen.trans ht.symlen.symm
  bitlen := hs.bitlen.trans ht.bitlen.symm
  nsyms := hs.nsyms.trans ht.nsyms.symm
  nnodes := hs.nnodes.trans ht.nnodes.symm
  root := hs.root.trans ht.root.symm
  cur := hs.cur.trans ht.cur.symm
  freq a := (hs.freq a).trans (ht.freq a).symm
  code a := by
    rw [List.eq_nil_of_length_eq_zero (hs.code a), List.eq_nil_of_length_eq_zero (ht.code a)]
  node k hk := by simp [hs.nnodes] at hk
  symbols := by simp [State.symbols, hs.symlen, ht.symlen]
  bytes := (State.bytes_of_empty hs.bitlen).trans (State.bytes_of_empty ht.bitlen).symm
  rsp := hrsp
  inputs := hinputs

/-- R67: the state after CLR agrees with the state after reset in everything but the response. -/
theorem State.clear_answer_sameView (s : State) (r : Response) :
    (s.clear.answer r).SameView (s.hostReset.answer r) :=
  State.IsReset.sameView (.of_registers rfl rfl rfl rfl rfl rfl rfl rfl rfl)
    (.of_registers rfl rfl rfl rfl rfl rfl rfl rfl rfl) rfl rfl rfl

/-! ### RDREG and the register table -/

/-- Four flags in bits 3 to 0 are a sum of powers of two. -/
theorem flagBits_eq_ofNat (built empty single midwalk : Bool) :
    0#28 ++ BitVec.ofBool midwalk ++ BitVec.ofBool single ++ BitVec.ofBool empty ++
        BitVec.ofBool built =
      BitVec.ofNat 32 ((if built then 1 else 0) + (if empty then 2 else 0) +
        (if single then 4 else 0) + (if midwalk then 8 else 0)) := by
  revert built empty single midwalk
  decide

/-- STATUS as R20 gives it, flag by flag. -/
theorem State.statusWord_eq_ofNat (s : State) : s.statusWord = BitVec.ofNat 32
    ((if s.phase = .built then 1 else 0) +
     (if s.phase = .built ∧ s.nsyms = 0 then 2 else 0) +
     (if s.phase = .built ∧ s.nsyms = 1 then 4 else 0) +
     (if s.phase = .built ∧ s.cur ≠ s.root then 8 else 0)) := by
  rw [State.statusWord, flagBits_eq_ofNat]
  simp only [State.flagBuilt, State.flagEmpty, State.flagSingle, State.flagMidwalk,
    decide_eq_true_eq]

theorem exec_rdreg {a : OperandA} {v : Word32} (ha : a.toNat ≤ 9) (hv : s.readReg a.toNat = v) :
    exec (.rdreg a) s = .next (s.answer ⟨.ok, v⟩) := by
  simp only [exec, execRdreg, if_neg (Nat.not_lt.mpr ha), hv, respondOk]

/-- R8: SYM_CAP fits a register. -/
theorem toNat_ofNat_symCap (p : Params) : (BitVec.ofNat 32 p.symCap).toNat = p.symCap :=
  Nat.mod_eq_of_lt (p.symCap_le.trans_lt (by decide))

/-- R8: BYTE_CAP fits a register. -/
theorem toNat_ofNat_byteCap (p : Params) : (BitVec.ofNat 32 p.byteCap).toNat = p.byteCap :=
  Nat.mod_eq_of_lt (p.byteCap_le.trans_lt (by decide))

/-! ### The statements -/

/-- Settles O25: NOP has a row of format N, and its whole meaning is the response. -/
theorem nopChangesNothing : Obligations.NopChangesNothing :=
  ⟨rfl, fun _ _ => isIllegal_of_maskN (row := opcodeMap[0]) (List.getElem_mem _) rfl,
    fun _ => rfl⟩

/-- Settles O26: the state after CLR has the values of the reset table, and by O18 no other command
leaves BUILT. -/
theorem clrReturnsToTheResetState : Obligations.ClrReturnsToTheResetState := by
  obtain ⟨_, _, _, onlyClrLeavesBuilt, _⟩ := onlyBuildAndClrChangePhase
  refine ⟨rfl, fun _ _ => isIllegal_of_maskN (row := opcodeMap[1]) (List.getElem_mem _) rfl,
    fun s => ?_, onlyClrLeavesBuilt⟩
  exact ⟨s.clear.answer ⟨.ok, 0⟩, rfl, rfl, rfl, rfl, rfl, rfl, rfl, rfl, rfl,
    fun _ => ⟨rfl, rfl⟩, rfl, rfl, rfl, rfl, rfl, s.clear_answer_sameView _⟩

/-- Settles O27: each legal register number selects its row of the table; SYM_CAP and BYTE_CAP fit
the response by R8. -/
theorem rdregReadsTheRegisterTable : Obligations.RdregReadsTheRegisterTable := by
  refine ⟨fun a ha => decodeOfEncodeIsTheCommand (.rdreg a) (decide_eq_true ha),
    fun a d hbad => ?_, fun s => ?_⟩
  · refine isIllegal_of_maskA (row := opcodeMap[2]) (List.getElem_mem _) rfl
      (hbad.imp_left fun ha hwf => ?_)
    exact Nat.not_le.mpr ha (of_decide_eq_true hwf)
  · exact ⟨exec_rdreg (by decide) s.statusWord_eq_ofNat, exec_rdreg (by decide) rfl,
      exec_rdreg (by decide) rfl, exec_rdreg (by decide) rfl, exec_rdreg (by decide) rfl,
      exec_rdreg (by decide) rfl, exec_rdreg (by decide) rfl, exec_rdreg (by decide) rfl,
      exec_rdreg (by decide) rfl, toNat_ofNat_symCap _, exec_rdreg (by decide) rfl,
      toNat_ofNat_byteCap _⟩

end Sys2Proof.Machine
end

section
/-! PROOFS. The statements of spec/41_frequency_model.md, with what they need of illegal words of
format D, of the symbol buffer and of the frequency table. -/

namespace Sys2Proof.Machine

variable {s : State}

/-- Format D in R61: the field `a` is not in use. -/
theorem isIllegal_of_maskD {row : OpcodeRow} {a : OperandA} {d : Word32} (h : row ∈ opcodeMap)
    (hmask : row.mask = maskD) (ha : a ≠ 0) : IsIllegal (packFields row.op a d) :=
  (isIllegal_packFields_iff h).mpr fun ⟨hunused, _⟩ => ha ((unusedZero_of_maskD hmask).mp hunused)

/-! ### The symbol buffer -/

theorem exec_wsym_of_full (a : OperandA) (hfull : s.symlen.toNat = s.params.symCap) :
    exec (.wsym a) s = .next (s.answer ⟨.error .overflow, s.symlen⟩) := if_pos hfull

theorem exec_wsym_of_room (a : OperandA) (room : s.symlen.toNat ≠ s.params.symCap) :
    exec (.wsym a) s = .next ((s.pushSymbol a).answer ⟨.ok, 0⟩) := if_neg room

theorem exec_rsym_of_le {d : Word32} (h : s.symlen.toNat ≤ d.toNat) :
    exec (.rsym d) s = .next (s.answer ⟨.error .range, s.symlen⟩) := if_pos h

theorem exec_rsym_of_lt {d : Word32} (h : d.toNat < s.symlen.toNat) :
    exec (.rsym d) s = .next (s.answer ⟨.ok, (s.symbuf.read d.toNat).setWidth 32⟩) :=
  if_neg (Nat.not_le.mpr h)

/-- Below the capacity SYMLEN does not wrap: SYM_CAP fits 32 bits (R8). -/
theorem State.pushSymbol_symlen_toNat (a : Symbol) (room : s.symlen.toNat < s.params.symCap) :
    (s.pushSymbol a).symlen.toNat = s.symlen.toNat + 1 := by
  have hcap := s.params.symCap_le
  rw [State.pushSymbol_symlen, BitVec.toNat_ofNat]
  exact Nat.mod_eq_of_lt (by omega)

/-- The symbol appended is one valid symbol more, behind those that stood in the buffer. -/
theorem State.pushSymbol_symbols (a : Symbol) (room : s.symlen.toNat < s.params.symCap) :
    (s.pushSymbol a).symbols = s.symbols ++ [a] := by
  have hkept : ∀ j ∈ List.range s.symlen.toNat,
      (s.pushSymbol a).symbuf.read j = s.symbuf.read j := fun j hj =>
    Memory.read_write_other _ _ (List.mem_range.mp hj).ne
  rw [State.symbols, State.pushSymbol_symlen_toNat a room, List.range_succ, List.map_append,
    List.map_congr_left hkept, List.map_singleton, State.pushSymbol_symbuf, Memory.read_write_same,
    State.symbols]

/-! ### The frequency table -/

theorem exec_fcount_of_built (hp : s.phase = .built) :
    exec .fcount s = .next (s.answer ⟨.error .phase, 0⟩) :=
  (execFcount_eq s).trans (if_pos hp)

theorem exec_fcount_of_uninit (hp : s.phase = .uninit) :
    exec .fcount s = .next ((s.setFreq (countSymbols s.symbols)).answer ⟨.ok, 0⟩) :=
  (execFcount_eq s).trans (if_neg (by simp [hp]))

theorem exec_fset_of_built (a : OperandA) (d : Word32) (hp : s.phase = .built) :
    exec (.fset a d) s = .next (s.answer ⟨.error .phase, 0⟩) :=
  (execFset_eq a d s).trans (if_pos hp)

theorem exec_fset_of_uninit (a : OperandA) (d : Word32) (hp : s.phase = .uninit) :
    exec (.fset a d) s = .next ((s.setFreq (writeFreq s.freq a d)).answer ⟨.ok, 0⟩) :=
  (execFset_eq a d s).trans (if_neg (by simp [hp]))

/-- Counting one symbol adds 1 to its own entry and 0 to the others, modulo 2^32. -/
theorem readCell_countOne (f : Cells Count) (a b : Symbol) :
    readCell 0 (countOne f b) a.toNat =
      readCell 0 f a.toNat + BitVec.ofNat 32 (if b = a then 1 else 0) := by
  rw [countOne, writeFreq]
  by_cases h : b = a
  · subst h
    rw [readCell_writeCell_same, if_pos rfl, BitVec.ofNat_add, BitVec.ofNat_toNat,
      BitVec.setWidth_eq]
  · have hcell : a.toNat ≠ b.toNat := fun heq => h (BitVec.eq_of_toNat_eq heq.symm)
    rw [readCell_writeCell_other hcell, if_neg h]
    exact (add_zero _).symm

/-- From any table, counting a list of symbols adds to each entry how often its symbol occurs,
modulo 2^32. -/
theorem readCell_foldl_countOne (syms : List Symbol) (f : Cells Count) (a : Symbol) :
    readCell 0 (syms.foldl countOne f) a.toNat =
      readCell 0 f a.toNat + BitVec.ofNat 32 (syms.count a) := by
  induction syms generalizing f with
  | nil => exact (add_zero _).symm
  | cons b rest ih =>
    rw [List.foldl_cons, ih, readCell_countOne, BitVec.add_assoc, ← BitVec.ofNat_add,
      List.count_cons, Nat.add_comm]
    simp only [beq_iff_eq]

/-- R72: the counts are exact, since a buffer of fewer than 2^32 symbols wraps no entry. -/
theorem readCell_countSymbols (s : State) (a : Symbol) :
    (readCell 0 (countSymbols s.symbols) a.toNat).toNat = s.symbols.count a := by
  have hlt : s.symbols.count a < 2 ^ 32 :=
    calc s.symbols.count a ≤ s.symbols.length := List.count_le_length
      _ = s.symlen.toNat := s.symbols_length
      _ < 2 ^ 32 := s.symlen.isLt
  rw [countSymbols, readCell_foldl_countOne, readCell_nil, zero_add, BitVec.toNat_ofNat,
    Nat.mod_eq_of_lt hlt]

/-! ### The statements -/

/-- Settles O28: with room WSYM is `pushSymbol`, and without room it is the error response alone. -/
theorem wsymAppendsTheSymbol : Obligations.WsymAppendsTheSymbol := by
  refine ⟨fun a => decodeOfEncodeIsTheCommand (.wsym a) rfl,
    fun a d hd => isIllegal_of_maskA (row := opcodeMap[3]) (List.getElem_mem _) rfl (.inr hd),
    fun a s => exec_wsym_of_full a, fun a s room => ?_⟩
  exact ⟨(s.pushSymbol a).answer ⟨.ok, 0⟩, exec_wsym_of_room a room.ne, rfl,
    State.pushSymbol_symlen_toNat a room, Memory.read_write_same _ _ _,
    fun j hj => Memory.read_write_other _ _ hj, State.pushSymbol_symbols a room, rfl⟩

/-- Settles O29: the two clauses are the two branches of RSYM, and either leaves the state as it
was. -/
theorem rsymReadsTheSymbol : Obligations.RsymReadsTheSymbol :=
  ⟨fun d => decodeOfEncodeIsTheCommand (.rsym d) rfl,
    fun _ _ => isIllegal_of_maskD (row := opcodeMap[4]) (List.getElem_mem _) rfl,
    fun _ _ => exec_rsym_of_le, fun _ _ => exec_rsym_of_lt⟩

/-- Settles O30: CLRS has a row of format N, and it is `emptySymbols` with its response. -/
theorem clrsEmptiesTheSymbols : Obligations.ClrsEmptiesTheSymbols :=
  ⟨rfl, fun _ _ => isIllegal_of_maskN (row := opcodeMap[5]) (List.getElem_mem _) rfl,
    fun _ => rfl⟩

/-- Settles O31: the new table counts the valid symbols from an empty table, and no entry wraps. -/
theorem fcountCountsTheSymbols : Obligations.FcountCountsTheSymbols := by
  refine ⟨rfl, fun _ _ => isIllegal_of_maskN (row := opcodeMap[6]) (List.getElem_mem _) rfl,
    fun s => exec_fcount_of_built, fun s hp => ?_⟩
  exact ⟨(s.setFreq (countSymbols s.symbols)).answer ⟨.ok, 0⟩, exec_fcount_of_uninit hp, rfl,
    readCell_countSymbols s, rfl⟩

/-- Settles O32: in UNINIT FSET is one write to FREQ, and different symbols have different cells. -/
theorem fsetWritesOneCount : Obligations.FsetWritesOneCount := by
  refine ⟨fun a d => decodeOfEncodeIsTheCommand (.fset a d) rfl,
    fun a d s => exec_fset_of_built a d, fun a d s hp => ?_⟩
  refine ⟨(s.setFreq (writeFreq s.freq a d)).answer ⟨.ok, 0⟩, exec_fset_of_uninit a d hp, rfl,
    readCell_writeCell_same, fun b hb => ?_, rfl⟩
  exact readCell_writeCell_other fun hcell => hb (BitVec.eq_of_toNat_eq hcell)

/-- Settles O33: FGET has a row of format A, and its whole meaning is the response. -/
theorem fgetReadsTheCount : Obligations.FgetReadsTheCount :=
  ⟨fun a => decodeOfEncodeIsTheCommand (.fget a) rfl,
    fun _ _ hd => isIllegal_of_maskA (row := opcodeMap[8]) (List.getElem_mem _) rfl (.inr hd),
    fun _ _ => rfl⟩

end Sys2Proof.Machine
end

section
/-! PROOFS. The queue gives up its nodes in the order of their keys (42_tree_builder.md R75, R76), so
that each merge takes the two first keys that wait (R78, R79). -/

namespace Sys2Proof.Machine

/-! ### Keys -/

/-- The key of `i` is before the key of `j`: weight first, then index (R75). -/
def NodeBefore (node : Nat → Node) (i j : Nat) : Prop :=
  (node i).wgt.toNat < (node j).wgt.toNat ∨ ((node i).wgt.toNat = (node j).wgt.toNat ∧ i < j)

variable {node other : Nat → Node} {nodes : List Node} {pq pq1 pq2 : List Nat} {i j k l r lo : Nat}

theorem State.keyBefore_eq (s : State) (i j : Nat) :
    s.KeyBefore i j = NodeBefore s.nodeAt i j := rfl

theorem keyBefore_iff : keyBefore nodes i j = true ↔ NodeBefore (arenaAt nodes) i j := by
  simp [keyBefore, NodeBefore]

/-- Two different nodes never have the same key. -/
theorem NodeBefore.total (hij : i ≠ j) : NodeBefore node i j ∨ NodeBefore node j i := by
  unfold NodeBefore
  omega

/-- "Not before" is transitive, since two nodes always compare. -/
theorem NodeBefore.not_trans (hij : ¬ NodeBefore node i j) (hjk : ¬ NodeBefore node j k) :
    ¬ NodeBefore node i k := by
  unfold NodeBefore at *
  omega

theorem NodeBefore.congr (h : NodeBefore node i j) (hi : node i = other i) (hj : node j = other j) :
    NodeBefore other i j := by
  rwa [NodeBefore, ← hi, ← hj]

/-! ### The first key in the queue -/

/-- One step of extractMin's scan keeps an index that neither of the two is before. -/
theorem not_before_scanned (m x : Nat) :
    ¬ NodeBefore (arenaAt nodes) m (if keyBefore nodes x m then x else m) ∧
      ¬ NodeBefore (arenaAt nodes) x (if keyBefore nodes x m then x else m) := by
  by_cases hx : keyBefore nodes x m
  · rw [if_pos hx]
    rw [keyBefore_iff] at hx
    unfold NodeBefore at *
    omega
  · rw [if_neg hx]
    rw [keyBefore_iff] at hx
    unfold NodeBefore at *
    omega

/-- Nothing the scan meets is before the index it ends with. -/
theorem foldl_keyBefore_first (m : Nat) (pq : List Nat) : ∀ j ∈ m :: pq,
    ¬ NodeBefore (arenaAt nodes) j
      (pq.foldl (fun m j => if keyBefore nodes j m then j else m) m) := by
  induction pq generalizing m with
  | nil =>
    intro j hj
    obtain rfl := List.mem_singleton.mp hj
    simp [NodeBefore]
  | cons x rest ih =>
    obtain ⟨hm, hx⟩ := not_before_scanned (nodes := nodes) m x
    have hscan := ih (if keyBefore nodes x m then x else m)
    intro j hj
    rw [List.foldl_cons]
    rcases List.mem_cons.mp hj with rfl | hj
    · exact NodeBefore.not_trans hm (hscan _ List.mem_cons_self)
    · rcases List.mem_cons.mp hj with rfl | hj
      · exact NodeBefore.not_trans hx (hscan _ List.mem_cons_self)
      · exact hscan j (List.mem_cons_of_mem _ hj)

/-- R76: the extracted index has the first key. -/
theorem extractMin_first (h : extractMin nodes pq = some (k, pq1)) (hj : j ∈ pq) (hne : j ≠ k) :
    NodeBefore (arenaAt nodes) k j := by
  cases pq with
  | nil => exact absurd hj List.not_mem_nil
  | cons i rest =>
    simp only [extractMin, Option.some.injEq, Prod.mk.injEq] at h
    obtain ⟨rfl, _⟩ := h
    exact (NodeBefore.total hne).resolve_left (foldl_keyBefore_first i rest j hj)

/-- Settles O34: a queue that is not empty gives up its first key. -/
theorem extractMinTakesTheFirstKey : Obligations.ExtractMinTakesTheFirstKey := by
  refine fun nodes => ⟨rfl, fun pq hpq _ => ?_⟩
  obtain ⟨⟨m, rest⟩, hm⟩ := Option.ne_none_iff_exists'.mp fun h => hpq (extractMin_none.mp h)
  refine ⟨m, by rw [hm, extractMin_erase hm], ?_, fun j => extractMin_first hm⟩
  exact (extractMin_perm hm).symm.subset List.mem_cons_self

/-! ### The two first keys that wait -/

/-- The nodes below `i` that no internal node below `i` has taken as a child, the internal nodes
starting at `lo` (R78). -/
def waitingIn (node : Nat → Node) (lo i : Nat) : List Nat :=
  (List.range i).filter (fun j => !(childrenIn node lo i).contains j)

theorem State.waitingAt_eq (s : State) (i : Nat) :
    s.waitingAt i = waitingIn s.nodeAt s.nsyms.toNat i := rfl

theorem mem_waitingIn : j ∈ waitingIn node lo i ↔ j < i ∧ j ∉ childrenIn node lo i := by
  simp [waitingIn]

theorem waitingIn_congr (h : ∀ j, j < i → node j = other j) :
    waitingIn node lo i = waitingIn other lo i := by
  rw [waitingIn, waitingIn, childrenIn_congr h]

/-- Node `i` has as children the two nodes with the first keys of those that wait when it is made
(R78, R79). -/
def TakesFirstKeys (node : Nat → Node) (lo i : Nat) : Prop :=
  (node i).left.toNat ∈ waitingIn node lo i ∧ (node i).right.toNat ∈ waitingIn node lo i ∧
    NodeBefore node (node i).left.toNat (node i).right.toNat ∧
    ∀ j ∈ waitingIn node lo i, j ≠ (node i).left.toNat → j ≠ (node i).right.toNat →
      NodeBefore node (node i).right.toNat j

/-- Nodes made after `i` do not matter to it. -/
theorem TakesFirstKeys.congr (h : TakesFirstKeys node lo i)
    (hsame : ∀ j, j ≤ i → node j = other j) :
    TakesFirstKeys other lo i := by
  obtain ⟨hleft, hright, hlr, hrest⟩ := h
  have hwaits : waitingIn node lo i = waitingIn other lo i :=
    waitingIn_congr fun j hj => hsame j hj.le
  have hold : ∀ j ∈ waitingIn node lo i, node j = other j := fun j hj =>
    hsame j (mem_waitingIn.mp hj).1.le
  unfold TakesFirstKeys
  rw [← hwaits, ← hsame i le_rfl]
  exact ⟨hleft, hright, hlr.congr (hold _ hleft) (hold _ hright), fun j hj hjl hjr =>
    (hrest j hj hjl hjr).congr (hold _ hright) (hold j hj)⟩

section
variable {freq : Symbol → Count}

/-- What waits is what the queue holds. -/
theorem Growing.mem_waitingIn (h : Growing freq nodes pq) :
    j ∈ waitingIn (arenaAt nodes) (occurring freq).length nodes.length ↔ j ∈ pq := by
  have hone : j ∈ childrenIn (arenaAt nodes) (occurring freq).length nodes.length → j ∉ pq :=
    fun hc hq => (List.nodup_append.mp (h.parents.nodup_iff.mpr List.nodup_range)).2.2 j hc j hq rfl
  have hall := h.parents.mem_iff (a := j)
  rw [List.mem_append, List.mem_range] at hall
  rw [Machine.mem_waitingIn, ← hall]
  tauto

/-- A merge takes the two first keys of the queue. -/
theorem Growing.merge_takesFirstKeys (h : Growing freq nodes pq)
    (hl : extractMin nodes pq = some (l, pq1)) (hr : extractMin nodes pq1 = some (r, pq2)) :
    TakesFirstKeys (arenaAt (nodes ++ [mergedNode nodes l r])) (occurring freq).length
      nodes.length := by
  have hold : ∀ j, j < nodes.length →
      arenaAt nodes j = arenaAt (nodes ++ [mergedNode nodes l r]) j := fun _ hj =>
    (arenaAt_append_left _ hj).symm
  have hbefore : ∀ {i j}, i ∈ pq → j ∈ pq → NodeBefore (arenaAt nodes) i j →
      NodeBefore (arenaAt (nodes ++ [mergedNode nodes l r])) i j := fun hi hj hij =>
    hij.congr (hold _ (h.lt_of_waits hi)) (hold _ (h.lt_of_waits hj))
  have hperm := extractMin_perm hl
  have hlq : l ∈ pq := hperm.symm.subset List.mem_cons_self
  have hr1 : r ∈ pq1 := (extractMin_perm hr).symm.subset List.mem_cons_self
  have hrq : r ∈ pq := hperm.symm.subset (List.mem_cons_of_mem _ hr1)
  obtain ⟨_, _, hlr, _⟩ := h.extracted hl hr
  unfold TakesFirstKeys
  rw [arenaAt_append_new, h.merged_left hl hr, h.merged_right hl hr, ← waitingIn_congr hold]
  simp only [h.mem_waitingIn]
  refine ⟨hlq, hrq, hbefore hlq hrq (extractMin_first hl hrq hlr.symm), fun j hj hjl hjr => ?_⟩
  have hj1 : j ∈ pq1 := (List.mem_cons.mp (hperm.subset hj)).resolve_left hjl
  exact hbefore hrq hj (extractMin_first hr hj1 hjr)

/-- The whole arena: each internal node was merged from the two first keys. -/
def MergedInOrder (freq : Symbol → Count) (nodes : List Node) : Prop :=
  ∀ i, (occurring freq).length ≤ i → i < nodes.length →
    TakesFirstKeys (arenaAt nodes) (occurring freq).length i

theorem MergedInOrder.merge (horder : MergedInOrder freq nodes) (h : Growing freq nodes pq)
    (hl : extractMin nodes pq = some (l, pq1)) (hr : extractMin nodes pq1 = some (r, pq2)) :
    MergedInOrder freq (nodes ++ [mergedNode nodes l r]) := by
  intro i hS hi
  rw [List.length_append, List.length_singleton, Nat.lt_succ_iff_lt_or_eq] at hi
  rcases hi with hi | rfl
  · exact (horder i hS hi).congr fun j hj => (arenaAt_append_left _ (hj.trans_lt hi)).symm
  · exact h.merge_takesFirstKeys hl hr

theorem MergedInOrder.mergeLoop (fuel : Nat) (horder : MergedInOrder freq nodes)
    (h : Growing freq nodes pq) : MergedInOrder freq (mergeLoop fuel nodes pq).1 := by
  induction fuel generalizing nodes pq with
  | zero => exact horder
  | succ fuel ih =>
    simp only [Machine.mergeLoop]
    split
    · exact horder
    · rename_i l pq1 hl
      split
      · exact horder
      · rename_i r pq2 hr
        exact ih (horder.merge h hl hr) (h.merge hl hr)

theorem mergedInOrder_buildArena (freq : Symbol → Count) :
    MergedInOrder freq (buildArena freq).1 :=
  MergedInOrder.mergeLoop _ (fun i hS hi => by rw [seedLeaves_length] at hi; omega)
    (growing_seedLeaves freq)

end

end Sys2Proof.Machine
end

section
/-! PROOFS. The statements of spec/42_tree_builder.md about BUILD and NGET. -/

namespace Sys2Proof.Machine

variable {s : State}

/-! ### BUILD -/

theorem exec_build_of_uninit (hp : s.phase = .uninit) :
    exec .build s = .next (s.build.answer ⟨.ok, s.build.nnodes.setWidth 32⟩) :=
  execBuild_of_uninit hp

/-- The NODE entries past the new tree keep what they hold. -/
theorem State.build_nodeAt_of_le (s : State) {k : Nat} (hk : s.build.nnodes.toNat ≤ k) :
    s.build.nodeAt k = s.nodeAt k := by
  rw [State.build_nnodes_toNat] at hk
  rw [State.nodeAt, State.build_node, readCell_storeNodes, if_neg (by omega)]
  rfl

/-- Settles O35: the shape is `State.build_treeOk`, and `State.build` names the fields it writes. -/
theorem buildMakesTheTree : Obligations.BuildMakesTheTree := by
  refine ⟨rfl, fun s hp => ⟨_, exec_build_of_uninit hp, rfl, rfl, rfl, ?_, ?_, rfl⟩⟩
  · exact s.build_treeOk.congr rfl rfl rfl rfl rfl (.inl rfl)
  · exact fun k => s.build_nodeAt_of_le

/-- Settles O36: the entries of the new tree are the nodes of the arena, merged in the order of their
keys. -/
theorem mergesTakeTheTwoLowestKeys : Obligations.MergesTakeTheTwoLowestKeys := by
  intro s t hp h i hS hi
  obtain rfl := Host.Outcome.next.inj ((exec_build_of_uninit hp).symm.trans h)
  have hfirst : TakesFirstKeys s.build.nodeAt s.build.nsyms.toNat i := by
    rw [State.answer_nsyms] at hS
    rw [State.answer_nnodes, State.build_nnodes_toNat] at hi
    rw [State.build_nsyms_toNat] at hS ⊢
    exact (mergedInOrder_buildArena s.freqAt i hS hi).congr fun j hj =>
      (State.build_nodeAt s (hj.trans_lt hi)).symm
  simp only [State.waitingAt_eq, State.keyBefore_eq]
  exact hfirst

/-- Settles O37: arena, root and codes are made from the counts and from nothing else. -/
theorem buildDependsOnTheCountsAlone : Obligations.BuildDependsOnTheCountsAlone := by
  intro s t hs ht hfreq
  replace hfreq : s.freqAt = t.freqAt := funext hfreq
  have hroot : s.build.root = t.build.root := by rw [State.build_root, State.build_root, hfreq]
  have hcode : s.build.code = t.build.code := by
    rw [State.build_code, State.build_code, hfreq, hroot]
  refine ⟨_, _, exec_build_of_uninit hs, exec_build_of_uninit ht, ?_, ?_, hroot, fun k hk => ?_,
    congrFun (State.codeAt_congr hcode)⟩
  · simp only [State.answer_nnodes, State.build_nnodes, hfreq]
  · simp only [State.answer_nsyms, State.build_nsyms, hfreq]
  · replace hk : k < (buildArena s.freqAt).1.length := s.build_nnodes_toNat ▸ hk
    exact (State.build_nodeAt s hk).trans <| hfreq ▸ (State.build_nodeAt t (hfreq ▸ hk)).symm

/-- After BUILD a symbol that does not occur has no code. -/
theorem State.build_codeLen_of_zero {a : Symbol} (ha : s.freqAt a = 0) : s.build.codeLen a = 0 :=
  List.length_eq_zero_iff.mpr (by_contra fun hne => (s.build_codesOk.coded_iff a).mp hne ha)

theorem occurring_eq_nil {freq : Symbol → Count} (h : ∀ a, freq a = 0) : occurring freq = [] :=
  List.eq_nil_iff_forall_not_mem.mpr fun a ha => mem_occurring.mp ha (h a)

theorem occurring_eq_singleton {freq : Symbol → Count} {x : Symbol} (hx : freq x ≠ 0)
    (h : ∀ a, a ≠ x → freq a = 0) : occurring freq = [x] := by
  have hnodup : (occurring freq).Nodup :=
    occurring_ascending.imp fun hlt heq => hlt.ne (congrArg BitVec.toNat heq)
  refine List.perm_singleton.mp
    ((List.perm_ext_iff_of_nodup hnodup (List.nodup_singleton x)).mpr fun a => ?_)
  rw [mem_occurring, List.mem_singleton]
  exact ⟨fun ha => by_contra fun hne => ha (h a hne), fun ha => ha ▸ hx⟩

/-- R82: with one symbol the tree is one node, the root. -/
theorem State.TreeOk.registers_of_single (h : s.TreeOk) (hS : s.nsyms = 1) :
    s.nnodes = 1 ∧ s.root = 0 := by
  obtain ⟨hsize, hroot⟩ := h.sizes (by rw [hS]; decide)
  rw [hS] at hsize hroot
  exact ⟨BitVec.eq_of_toNat_eq (Nat.succ.inj hsize),
    BitVec.eq_of_toNat_eq (Nat.add_right_cancel hroot)⟩

/-- Settles O38: the number of symbols fixes the size of the tree, and R28 its codes. -/
theorem buildOfNoneAndOfOneSymbol : Obligations.BuildOfNoneAndOfOneSymbol := by
  constructor
  · intro s hp h
    have hocc := occurring_eq_nil h
    have hnsyms : s.build.nsyms = 0 := by rw [State.build_nsyms, seedLeaves_length, hocc]; rfl
    obtain ⟨hnnodes, hroot⟩ := s.build_treeOk.empty_tree hnsyms
    refine ⟨_, exec_build_of_uninit hp, ?_, rfl, hnnodes, hnsyms, hroot, fun a =>
      State.build_codeLen_of_zero (h a)⟩
    rw [State.answer_rsp, hnnodes]
    rfl
  · intro s x hp hx h
    have hocc := occurring_eq_singleton hx h
    have hnsyms : s.build.nsyms = 1 := by rw [State.build_nsyms, seedLeaves_length, hocc]; rfl
    obtain ⟨hnnodes, hroot⟩ := s.build_treeOk.registers_of_single hnsyms
    have hleaf := s.build_leaf (k := 0) (by simp [hocc])
    simp only [hocc, List.getElem_cons_zero] at hleaf
    refine ⟨_, exec_build_of_uninit hp, ?_, rfl, hnnodes, hnsyms, hroot, hleaf, ?_,
      fun a ha => State.build_codeLen_of_zero (h a ha)⟩
    · rw [State.answer_rsp, hnnodes]
      rfl
    · exact s.build_codesOk.single_code hnsyms x ((s.build_codesOk.coded_iff x).mpr hx)

/-! ### NGET -/

/-- Operands outside the legal values of their row make the word illegal, whatever the format. -/
theorem isIllegal_of_not_wf {row : OpcodeRow} {a : OperandA} {d : Word32} (h : row ∈ opcodeMap)
    (hbad : ¬ (row.command a d).wf = true) : IsIllegal (packFields row.op a d) :=
  (isIllegal_packFields_iff h).mpr fun ⟨_, hwf⟩ => hbad hwf

theorem exec_nget_of_le {a : OperandA} {d : Word32} (ha : a.toNat ≤ 2)
    (hd : s.nnodes.toNat ≤ d.toNat) :
    exec (.nget a d) s = .next (s.answer ⟨.error .range, s.nnodes.setWidth 32⟩) :=
  (if_neg (Nat.not_lt.mpr ha)).trans (if_pos hd)

theorem exec_nget_of_lt {a : OperandA} {d : Word32} (ha : a.toNat ≤ 2)
    (hd : d.toNat < s.nnodes.toNat) :
    exec (.nget a d) s = .next (s.answer ⟨.ok, (s.nodeAt d.toNat).fieldGroup a.toNat⟩) :=
  (if_neg (Nat.not_lt.mpr ha)).trans (if_neg (Nat.not_le.mpr hd))

theorem toNat_append_eq_add {m n : Nat} (x : BitVec m) (y : BitVec n) :
    (x ++ y).toNat = x.toNat * 2 ^ n + y.toNat := by
  rw [BitVec.toNat_append, ← Nat.shiftLeft_add_eq_or_of_lt y.isLt, Nat.shiftLeft_eq]

theorem Node.linkWord_toNat (n : Node) : n.linkWord.toNat =
    n.leaf.toNat * 2 ^ 31 + n.sym.toNat * 2 ^ 18 + n.left.toNat * 2 ^ 9 + n.right.toNat := by
  simp only [Node.linkWord, toNat_append_eq_add, BitVec.toNat_ofBool, BitVec.toNat_ofNat]
  omega

/-- The fields of the link word by their bits (R86). -/
theorem Node.linkWord_fields (n : Node) : n.linkWord.getLsbD 31 = n.leaf ∧
    n.linkWord.extractLsb' 26 5 = 0 ∧ n.linkWord.extractLsb' 18 8 = n.sym ∧
    n.linkWord.extractLsb' 9 9 = n.left ∧ n.linkWord.extractLsb' 0 9 = n.right := by
  have hword := n.linkWord_toNat
  have hleaf := n.leaf.toNat_le
  have hsym := n.sym.isLt
  have hleft := n.left.isLt
  have hright := n.right.isLt
  refine ⟨?_, ?_, ?_, ?_, BitVec.extractLsb'_append_eq_right⟩
  · simp only [Node.linkWord, BitVec.getLsbD_append]
    simp
  all_goals
    refine BitVec.eq_of_toNat_eq ?_
    rw [BitVec.extractLsb'_toNat, hword, Nat.shiftRight_eq_div_pow]
  · change _ = 0
    omega
  · omega
  · omega

/-- A leaf has no children, so the low 18 bits of its link word are 1 (R77). -/
theorem Node.linkWord_leaf {n : Node} (hleaf : n.leaf = true) (hleft : n.left = NIL)
    (hright : n.right = NIL) : n.linkWord.toNat = 0x80000000 + n.sym.toNat * 2 ^ 18 + 0x3FFFF := by
  rw [Node.linkWord_toNat, hleaf, hleft, hright]
  simp [NIL]

theorem Node.fieldGroup_wgt (n : Node) : (n.fieldGroup 1).toNat = n.wgt.toNat % 2 ^ 32 ∧
    (n.fieldGroup 2).toNat = n.wgt.toNat / 2 ^ 32 := by
  have hwgt := n.wgt.isLt
  simp only [Node.fieldGroup, BitVec.toNat_setWidth, BitVec.extractLsb'_toNat,
    Nat.shiftRight_eq_div_pow]
  omega

/-- Settles O39: a valid node is answered by its field group, whose bits are its fields. -/
theorem ngetReadsTheNode : Obligations.NgetReadsTheNode := by
  refine ⟨fun a d ha => decodeOfEncodeIsTheCommand (.nget a d) (decide_eq_true ha),
    fun a d ha => isIllegal_of_not_wf (row := opcodeMap[10]) (List.getElem_mem _) fun hwf =>
      Nat.not_le.mpr ha (of_decide_eq_true hwf),
    fun a d s => exec_nget_of_le, fun d s hd => ?_⟩
  obtain ⟨hleaf, hzero, hsym, hleft, hright⟩ := (s.nodeAt d.toNat).linkWord_fields
  obtain ⟨hlow, hhigh⟩ := (s.nodeAt d.toNat).fieldGroup_wgt
  refine ⟨_, _, _, exec_nget_of_lt (by decide) hd, exec_nget_of_lt (by decide) hd,
    exec_nget_of_lt (by decide) hd, hleaf, hzero, hsym, hleft, hright, hlow, hhigh,
    fun tree hS => ?_⟩
  obtain ⟨isLeaf, leftNil, rightNil, _, _⟩ := tree.leaves d.toNat hS
  exact Node.linkWord_leaf isLeaf leftNil rightNil

end Sys2Proof.Machine
end

section
/-! PROOFS. The statements of spec/43_code_table.md, with the bits of a bit string's value. -/

namespace Sys2Proof.Machine

/-! ### The value of a bit string (spec/20_memory.md R42) -/

@[simp] theorem bitsValue_append_singleton (bits : List Bool) (b : Bool) :
    bitsValue (bits ++ [b]) = Nat.bit b (bitsValue bits) := by
  simp [bitsValue, Nat.bit_val]

/-- The last bit of the string is bit 0 of its value. -/
theorem testBit_bitsValue (bits : List Bool) (i : Nat) :
    (bitsValue bits).testBit i = bits.reverse.getD i false := by
  induction bits using List.reverseRecOn generalizing i with
  | nil => simp [bitsValue]
  | append_singleton bits b ih =>
    rw [bitsValue_append_singleton, List.reverse_append]
    cases i with
    | zero => simp
    | succ i => simpa [Nat.testBit_bit_succ] using ih i

/-- Bit `k` of a string of `n` bits, counted from the earliest, is bit `n - 1 - k` of a word wide
enough to hold the string. -/
theorem getLsbD_bitsValue {w n k : Nat} (f : Nat → Bool) (hn : n ≤ w) (hk : k < n) :
    (BitVec.ofNat w (bitsValue ((List.range n).map f))).getLsbD (n - 1 - k) = f k := by
  have hlt : n - 1 - k < n := by omega
  have hidx : n - 1 - (n - 1 - k) = k := by omega
  rw [BitVec.getLsbD_ofNat, testBit_bitsValue]
  simp [hlt, hidx, hlt.trans_le hn]

/-! ### The commands -/

/-- Settles O40: BUILD leaves `State.build`, whose codes are those of its tree
(`State.build_codesOk`), and answers. -/
theorem buildDerivesTheCodes : Obligations.BuildDerivesTheCodes := fun s hp =>
  ⟨_, exec_build_of_uninit hp, s.build_codesOk.congr rfl rfl rfl rfl rfl⟩

theorem exec_cget_of_chunk {a : OperandA} {d : Word32} (s : State) (hpos : 1 ≤ d.toNat)
    (hd : d.toNat ≤ 8) :
    exec (.cget a d) s = .next (s.answer ⟨.ok, codeChunk (s.codeAt a) (d.toNat - 1)⟩) :=
  (if_neg (Nat.not_lt.mpr hd)).trans (if_neg (Nat.ne_of_gt hpos))

/-- Settles O41: a chunk of the code is the value of its 32 bits. -/
theorem cgetReadsTheCode : Obligations.CgetReadsTheCode :=
  ⟨fun a d hd => decodeOfEncodeIsTheCommand (.cget a d) (decide_eq_true hd),
    fun a d hd => isIllegal_of_not_wf (row := opcodeMap[11]) (List.getElem_mem _) fun hwf =>
      Nat.not_le.mpr hd (of_decide_eq_true hwf),
    fun _ _ => rfl,
    fun _ _ s hpos hd => ⟨_, exec_cget_of_chunk s hpos hd, fun _ hk =>
      getLsbD_bitsValue _ le_rfl hk⟩⟩

end Sys2Proof.Machine
end

section
/-! PROOFS. The bits of packed bytes and of the stream (spec/44_bitstream_codec.md R94 to R96, R98,
R100): `pack` and `unpack` place bit `k` of byte `j` at position `8·j + k`, and appending to a padded
stream concatenates its valid bits. -/

namespace Sys2Proof.Machine

/-! ### pack and unpack -/

/-- Byte lists of one length are equal when they agree bit by bit, most significant bit first. -/
theorem byteList_ext {x y : List Byte} (hlen : x.length = y.length)
    (h : ∀ j k, j < x.length → k < 8 →
      (x.getD j 0).getLsbD (7 - k) = (y.getD j 0).getLsbD (7 - k)) : x = y := by
  refine List.ext_getElem hlen fun j hx hy => BitVec.eq_of_getLsbD_eq fun i hi => ?_
  have hbit := h j (7 - i) hx (by omega)
  rwa [List.getD_eq_getElem _ _ hx, List.getD_eq_getElem _ _ hy,
    show 7 - (7 - i) = i by omega] at hbit

@[simp] theorem pack_length (q : List Bool) : (pack q).length = (q.length + 7) / 8 := by
  simp [pack]

/-- R94: bit `k` of byte `j`, counted from the most significant, is bit `8·j + k` of the sequence. -/
theorem getLsbD_pack {q : List Bool} {j k : Nat} (hj : j < (q.length + 7) / 8) (hk : k < 8) :
    ((pack q).getD j 0).getLsbD (7 - k) = q.getD (8 * j + k) false := by
  rw [List.getD_eq_getElem _ _ (by simpa using hj)]
  simp only [pack, List.getElem_map, List.getElem_range]
  exact getLsbD_bitsValue _ le_rfl hk

@[simp] theorem unpack_nil : unpack [] = [] := rfl

theorem unpack_cons (b : Byte) (bytes : List Byte) :
    unpack (b :: bytes) = (List.range 8).map (fun k => b.getLsbD (7 - k)) ++ unpack bytes := rfl

@[simp] theorem unpack_length (bytes : List Byte) : (unpack bytes).length = 8 * bytes.length := by
  induction bytes with
  | nil => rfl
  | cons b rest ih =>
    rw [unpack_cons, List.length_append, ih]
    simp
    omega

/-- R95: bit `8·j + k` of the unpacked bytes is bit `k` of byte `j`, counted from the most
significant; past the last byte both sides are 0. -/
theorem getD_unpack (bytes : List Byte) (j : Nat) {k : Nat} (hk : k < 8) :
    (unpack bytes).getD (8 * j + k) false = (bytes.getD j 0).getLsbD (7 - k) := by
  induction bytes generalizing j with
  | nil => simp
  | cons b rest ih =>
    rw [unpack_cons]
    cases j with
    | zero =>
      rw [List.getD_append _ _ _ _ (by simpa using hk)]
      simp [hk]
    | succ j =>
      rw [List.getD_append_right _ _ _ _ (by simp; omega), List.getD_cons_succ, ← ih j]
      congr 1
      simp
      omega

/-- R96: unpacking gives the sequence back, filled up with zeros to a whole number of bytes. -/
theorem unpack_pack (q : List Bool) :
    unpack (pack q) = q ++ List.replicate ((8 - q.length % 8) % 8) false := by
  have hlen : (unpack (pack q)).length =
      (q ++ List.replicate ((8 - q.length % 8) % 8) false).length := by
    simp
    omega
  refine List.ext_getElem hlen fun i hi hi' => ?_
  rw [unpack_length, pack_length] at hi
  have hbit : (unpack (pack q)).getD i false = q.getD i false := by
    rw [← Nat.div_add_mod i 8, getD_unpack _ _ (Nat.mod_lt i (by decide)),
      getLsbD_pack (by omega) (Nat.mod_lt i (by decide))]
  rw [← List.getD_eq_getElem _ false, hbit, ← List.getD_eq_getElem _ false]
  by_cases hq : i < q.length
  · rw [List.getD_append _ _ _ _ hq]
  · rw [List.getD_append_right _ _ _ _ (Nat.le_of_not_lt hq),
      List.getD_eq_default _ _ (Nat.le_of_not_lt hq)]
    simp

/-- R96: packing gives the bytes back. -/
theorem pack_unpack (bytes : List Byte) : pack (unpack bytes) = bytes := by
  have hlen : (pack (unpack bytes)).length = bytes.length := by
    simp
    omega
  refine byteList_ext hlen fun j k hj hk => ?_
  rw [getLsbD_pack (by simpa using hj) hk, getD_unpack _ _ hk]

/-! ### The stream and its valid bits -/

variable {s : State}

/-- Bit `8·j + k` of the stream is bit `k` of byte `j`, counted from the most significant (R98). -/
theorem State.streamBit_eq (s : State) (j : Nat) {k : Nat} (hk : k < 8) :
    s.streamBit (8 * j + k) = (s.bytebuf.read j).getLsbD (7 - k) := by
  rw [State.streamBit, show (8 * j + k) / 8 = j by omega, show (8 * j + k) % 8 = k by omega]

theorem State.bytes_getD (s : State) {j : Nat} (hj : j < s.bytelen) :
    s.bytes.getD j 0 = s.bytebuf.read j := by
  simp [State.bytes, hj]

theorem State.validBits_eq (s : State) :
    s.validBits = (List.range s.bitlen.toNat).map s.streamBit := by
  simp [State.validBits, State.streamBits]

theorem State.validBits_getD (s : State) {i : Nat} (hi : i < s.bitlen.toNat) :
    s.validBits.getD i false = s.streamBit i := by
  simp [State.validBits_eq, hi]

/-- With zeros in the pad positions (R31) the valid bits give every bit of the valid bytes. -/
theorem State.BuffersOk.validBits_getD (h : s.BuffersOk) {i : Nat} (hi : i < 8 * s.bytelen) :
    s.validBits.getD i false = s.streamBit i := by
  by_cases hvalid : i < s.bitlen.toNat
  · exact s.validBits_getD hvalid
  · rw [h.pad_zero i hi (Nat.le_of_not_lt hvalid), List.getD_eq_default]
    rw [s.validBits_length]
    exact Nat.le_of_not_lt hvalid

/-- R98: the buffer holds the packed form of the valid bits. -/
theorem State.BuffersOk.bytes_eq_pack (h : s.BuffersOk) : s.bytes = pack s.validBits := by
  have hlen : s.bytes.length = (pack s.validBits).length := by
    rw [pack_length, s.validBits_length, s.bytes_length, State.bytelen]
  refine byteList_ext hlen fun j k hj hk => ?_
  rw [s.bytes_length] at hj
  rw [getLsbD_pack (by rwa [s.validBits_length]) hk, s.bytes_getD hj,
    h.validBits_getD (by omega), s.streamBit_eq j hk]

/-! ### Appending bits -/

/-- Adding a bit where a byte holds 0 sets that bit and no other. -/
theorem getLsbD_add_bit {c : Byte} {m k : Nat} (b : Bool) (hc : c.getLsbD m = false) (hm : m < 8) :
    (c + BitVec.ofNat 8 (b.toNat * 2 ^ m)).getLsbD k = if k = m then b else c.getLsbD k := by
  cases b with
  | false =>
    rw [show c + BitVec.ofNat 8 (false.toNat * 2 ^ m) = c by simp]
    split
    next hk => rw [hk, hc]
    next => rfl
  | true =>
    have hbit : BitVec.ofNat 8 (true.toNat * 2 ^ m) = BitVec.twoPow 8 m :=
      BitVec.eq_of_toNat_eq (by simp)
    rw [hbit, BitVec.add_eq_or_of_and_eq_zero _ _ (by simp [BitVec.and_twoPow, hc]),
      BitVec.getLsbD_or, BitVec.getLsbD_twoPow]
    by_cases hk : k = m
    · simp [hk, hm]
    · simp [hk, Ne.symm hk]

/-- AppendBit places its bit after the valid bits and keeps them: the position it writes holds 0,
by the padding (R31) or because it starts a byte. -/
theorem State.BuffersOk.appendBit_streamBit (h : s.BuffersOk) (b : Bool) {i : Nat}
    (hi : i ≤ s.bitlen.toNat) :
    (s.appendBit b).streamBit i = if i = s.bitlen.toNat then b else s.streamBit i := by
  simp only [State.streamBit, State.appendBit_bytebuf, Memory.read_write]
  by_cases hcell : i / 8 = s.bitlen.toNat / 8
  · have hclear : (if s.bitlen.toNat % 8 = 0 then 0
        else s.bytebuf.read (s.bitlen.toNat / 8)).getLsbD (7 - s.bitlen.toNat % 8) = false := by
      split
      · exact BitVec.getLsbD_zero
      · exact h.pad_zero s.bitlen.toNat (by simp only [State.bytelen]; omega) le_rfl
    rw [if_pos hcell, getLsbD_add_bit b hclear (by omega)]
    by_cases hlast : i = s.bitlen.toNat
    · rw [if_pos (by rw [hlast]), if_pos hlast]
    · rw [if_neg (by omega), if_neg hlast, if_neg (by omega), hcell]
  · rw [if_neg hcell, if_neg (fun hlast => hcell (by rw [hlast]))]

theorem State.BuffersOk.appendBit_validBits (h : s.BuffersOk) (b : Bool)
    (room : s.bitlen.toNat < 8 * s.params.byteCap) :
    (s.appendBit b).validBits = s.validBits ++ [b] := by
  have hcap := s.params.byteCap_le
  have hlen : (s.appendBit b).bitlen.toNat = s.bitlen.toNat + 1 :=
    s.appendBits_bitlen [b] (by simp only [List.length_singleton]; omega)
  have hkept : ∀ i ∈ List.range s.bitlen.toNat, (s.appendBit b).streamBit i = s.streamBit i := by
    intro i hi
    have hlt := List.mem_range.mp hi
    rw [h.appendBit_streamBit b hlt.le, if_neg hlt.ne]
  rw [State.validBits_eq, hlen, List.range_succ, List.map_append, List.map_congr_left hkept,
    List.map_singleton, h.appendBit_streamBit b le_rfl, if_pos rfl, State.validBits_eq]

/-- R100: bits that fit are appended in order to the valid bits. -/
theorem State.BuffersOk.appendBits_validBits (h : s.BuffersOk) (bits : List Bool)
    (room : s.bitlen.toNat + bits.length ≤ 8 * s.params.byteCap) :
    (s.appendBits bits).validBits = s.validBits ++ bits := by
  induction bits generalizing s with
  | nil => simp
  | cons b rest ih =>
    have hcap := s.params.byteCap_le
    rw [List.length_cons] at room
    have hlen : (s.appendBit b).bitlen.toNat = s.bitlen.toNat + 1 :=
      s.appendBits_bitlen [b] (by simp only [List.length_singleton]; omega)
    have hroom : s.bitlen.toNat < 8 * s.params.byteCap := by omega
    rw [State.appendBits_cons,
      ih (h.appendBit b hroom) (by rw [hlen, State.appendBit_params]; omega),
      h.appendBit_validBits b hroom, List.append_assoc, List.singleton_append]

end Sys2Proof.Machine
end

section
/-! PROOFS. The statements of spec/44_bitstream_codec.md. -/

namespace Sys2Proof.Machine

variable {s : State} {a : OperandA} {d : Word32}

/-- Settles O42: both functions bit by bit, and the two directions of the law. -/
theorem packAndUnpackObeyTheirLaw : Obligations.PackAndUnpackObeyTheirLaw :=
  ⟨fun q => ⟨pack_length q, fun _ _ hj hk => getLsbD_pack hj hk⟩,
    fun bytes => ⟨unpack_length bytes, fun j _ _ hk => getD_unpack bytes j hk⟩,
    unpack_pack, pack_unpack⟩

/-- Settles O48: bit `i` is bit `i mod 8` of byte `i div 8`, and the bits that are not valid are
padding. -/
theorem bufferHoldsThePackedValidBits : Obligations.BufferHoldsThePackedValidBits := by
  refine ⟨fun s => ⟨by rw [unpack_length, s.bytes_length], fun i hi => ?_⟩,
    fun s h => ⟨h.bytes_eq_pack, fun i hpad hi => h.pad_zero i hi hpad⟩⟩
  have hk : i % 8 < 8 := Nat.mod_lt i (by decide)
  rw [← Nat.div_add_mod i 8, s.streamBit_eq _ hk, getD_unpack _ _ hk, s.bytes_getD (by omega)]

/-! ### Whole bytes -/

theorem exec_wbyte_of_full (a : OperandA) (hfull : s.bytelen = s.params.byteCap) :
    exec (.wbyte a) s = .next (s.answer ⟨.error .overflow, BitVec.ofNat 32 s.bytelen⟩) :=
  if_pos hfull

/-- Below the capacity BITLEN does not wrap: 8·BYTE_CAP fits 32 bits (R8). -/
theorem State.putByte_bitlen_toNat (a : OperandA) (room : s.bytelen < s.params.byteCap) :
    (s.putByte a).bitlen.toNat = 8 * (s.bytelen + 1) := by
  have hcap := s.params.byteCap_le
  exact Nat.mod_eq_of_lt (by omega)

theorem State.putByte_read_other (a : OperandA) {j : Nat} (hj : j ≠ s.bytelen) :
    (s.putByte a).bytebuf.read j = s.bytebuf.read j :=
  Memory.read_write_other _ _ hj

/-- The byte appended is one valid byte more, behind those that stood in the buffer. -/
theorem State.putByte_bytes (a : OperandA) (room : s.bytelen < s.params.byteCap) :
    (s.putByte a).bytes = s.bytes ++ [a] := by
  have hlen : (s.putByte a).bytelen = s.bytelen + 1 := by
    rw [State.bytelen, State.putByte_bitlen_toNat a room]
    omega
  have hkept : ∀ j ∈ List.range s.bytelen, (s.putByte a).bytebuf.read j = s.bytebuf.read j :=
    fun j hj => State.putByte_read_other a (List.mem_range.mp hj).ne
  have hlast : (s.putByte a).bytebuf.read s.bytelen = a := Memory.read_write_same _ _ _
  rw [State.bytes, hlen, List.range_succ, List.map_append, List.map_congr_left hkept,
    List.map_singleton, hlast, State.bytes]

/-- Settles O43: with room WBYTE is `putByte`; the pad positions lie in a byte it does not write. -/
theorem wbyteAppendsTheByte : Obligations.WbyteAppendsTheByte := by
  refine ⟨fun a => decodeOfEncodeIsTheCommand (.wbyte a) rfl,
    fun a d hd => isIllegal_of_maskA (row := opcodeMap[12]) (List.getElem_mem _) rfl (.inr hd),
    fun a s => exec_wbyte_of_full a, fun a s room => ?_⟩
  refine ⟨(s.putByte a).answer ⟨.ok, 0⟩, execWbyte_of_room a room.ne, rfl,
    State.putByte_bitlen_toNat a room, Memory.read_write_same _ _ _,
    fun j hj => State.putByte_read_other a hj, State.putByte_bytes a room,
    fun h i hpad hi => ?_, rfl⟩
  have hcell : i / 8 ≠ s.bytelen := by omega
  rw [State.streamBit, State.answer_bytebuf, State.putByte_read_other a hcell]
  exact h.pad_zero i hi hpad

theorem exec_rbyte_of_le (h : s.bytelen ≤ d.toNat) :
    exec (.rbyte d) s = .next (s.answer ⟨.error .range, BitVec.ofNat 32 s.bytelen⟩) := if_pos h

theorem exec_rbyte_of_lt (h : d.toNat < s.bytelen) :
    exec (.rbyte d) s = .next (s.answer ⟨.ok, (s.bytebuf.read d.toNat).setWidth 32⟩) :=
  if_neg (Nat.not_le.mpr h)

/-- Settles O44: the two clauses are the two branches of RBYTE, and either leaves the state as it
was. -/
theorem rbyteReadsTheByte : Obligations.RbyteReadsTheByte :=
  ⟨fun d => decodeOfEncodeIsTheCommand (.rbyte d) rfl,
    fun _ _ => isIllegal_of_maskD (row := opcodeMap[13]) (List.getElem_mem _) rfl,
    fun _ _ => exec_rbyte_of_le, fun _ _ => exec_rbyte_of_lt⟩

/-- Settles O45: CLRB has a row of format N, and it is `emptyStream` with its response. -/
theorem clrbEmptiesTheStream : Obligations.ClrbEmptiesTheStream :=
  ⟨rfl, fun _ _ => isIllegal_of_maskN (row := opcodeMap[14]) (List.getElem_mem _) rfl,
    fun s => ⟨s.emptyStream.answer ⟨.ok, 0⟩, rfl, rfl, by simp [State.bytelen]⟩⟩

/-! ### Single bits -/

/-- The bit counts that BPUT and BGET do not refuse are the legal ones of their rows (R60). -/
theorem bitCount_legal_iff :
    ¬ (a.toNat = 0 ∨ 32 < a.toNat) ↔ 1 ≤ a.toNat ∧ a.toNat ≤ 32 := by omega

@[simp] theorem operandBits_length (n : Nat) (d : Word32) : (operandBits n d).length = n := by
  simp [operandBits]

theorem operandBits_getD {n k : Nat} (d : Word32) (hk : k < n) :
    (operandBits n d).getD k false = d.getLsbD (n - 1 - k) := by
  simp [operandBits, hk]

/-- Operand bits are the low bits alone. -/
theorem operandBits_congr {n : Nat} {d e : Word32} (h : ∀ k, k < n → e.getLsbD k = d.getLsbD k) :
    operandBits n e = operandBits n d :=
  List.map_congr_left fun k hk => h _ (by have := List.mem_range.mp hk; omega)

theorem exec_bput_of_full (ha : 1 ≤ a.toNat ∧ a.toNat ≤ 32)
    (hfull : 8 * s.params.byteCap < s.bitlen.toNat + a.toNat) :
    exec (.bput a d) s = .next (s.answer ⟨.error .overflow, s.bitlen⟩) :=
  (if_neg (bitCount_legal_iff.mpr ha)).trans (if_pos hfull)

theorem exec_bput_of_room (ha : 1 ≤ a.toNat ∧ a.toNat ≤ 32)
    (room : s.bitlen.toNat + a.toNat ≤ 8 * s.params.byteCap) :
    exec (.bput a d) s = .next ((s.appendBits (operandBits a.toNat d)).answer ⟨.ok, 0⟩) :=
  (if_neg (bitCount_legal_iff.mpr ha)).trans (if_neg (Nat.not_lt.mpr room))

/-- Appending keeps the valid bits and places the new ones behind them. -/
theorem State.BuffersOk.appendBits_streamBit (h : s.BuffersOk) (bits : List Bool)
    (room : s.bitlen.toNat + bits.length ≤ 8 * s.params.byteCap) :
    (∀ i, i < s.bitlen.toNat → (s.appendBits bits).streamBit i = s.streamBit i) ∧
      ∀ k, k < bits.length →
        (s.appendBits bits).streamBit (s.bitlen.toNat + k) = bits.getD k false := by
  have hcap := s.params.byteCap_le
  have hlen := s.appendBits_bitlen bits (by omega)
  have hbits := h.appendBits_validBits bits room
  constructor
  · intro i hi
    rw [← State.validBits_getD _ (by omega), hbits,
      List.getD_append _ _ _ _ (by rwa [s.validBits_length]), s.validBits_getD hi]
  · intro k hk
    rw [← State.validBits_getD _ (by omega), hbits,
      List.getD_append_right _ _ _ _ (by rw [s.validBits_length]; omega), s.validBits_length,
      Nat.add_sub_cancel_left]

/-- Settles O46: with room BPUT is `appendBits` of its operand bits. -/
theorem bputAppendsTheBits : Obligations.BputAppendsTheBits := by
  refine ⟨fun a d h1 h32 => decodeOfEncodeIsTheCommand (.bput a d) (decide_eq_true ⟨h1, h32⟩),
    fun a d ha => isIllegal_of_not_wf (row := opcodeMap[15]) (List.getElem_mem _) fun hwf =>
      bitCount_legal_iff.mpr (of_decide_eq_true hwf) ha,
    fun a d s h1 h32 => exec_bput_of_full ⟨h1, h32⟩, fun a d s h1 h32 h room => ?_⟩
  have hroom : s.bitlen.toNat + (operandBits a.toNat d).length ≤ 8 * s.params.byteCap := by
    rwa [operandBits_length]
  have hcap := s.params.byteCap_le
  have hfit : s.bitlen.toNat + (operandBits a.toNat d).length < 2 ^ 32 := by omega
  have hlen := s.appendBits_bitlen _ hfit
  obtain ⟨hkept, hnew⟩ := h.appendBits_streamBit _ hroom
  refine ⟨_, exec_bput_of_room ⟨h1, h32⟩ room, rfl, ?_, hkept, fun k hk => ?_, ?_, fun d' hd' => ?_,
    ?_⟩
  · rw [State.answer_bitlen, hlen, operandBits_length]
  · exact (hnew k (by rwa [operandBits_length])).trans (operandBits_getD d hk)
  · rintro j (hbefore | hafter)
    · exact s.appendBits_bytes_before _ j hbefore hfit
    · rw [State.bytelen, State.answer_bitlen, hlen] at hafter
      exact s.appendBits_bytes_after _ j hafter hfit
  · rw [exec_bput_of_room ⟨h1, h32⟩ room, exec_bput_of_room ⟨h1, h32⟩ room, operandBits_congr hd']
  · rw [s.appendBits_frame]
    rfl

theorem exec_bget_of_lt (ha : 1 ≤ a.toNat ∧ a.toNat ≤ 32)
    (hd : 8 * s.bytelen < d.toNat + a.toNat) :
    exec (.bget a d) s = .next (s.answer ⟨.error .range, BitVec.ofNat 32 (8 * s.bytelen)⟩) :=
  (if_neg (bitCount_legal_iff.mpr ha)).trans (if_pos hd)

theorem exec_bget_of_le (ha : 1 ≤ a.toNat ∧ a.toNat ≤ 32)
    (hd : d.toNat + a.toNat ≤ 8 * s.bytelen) :
    exec (.bget a d) s =
      .next (s.answer ⟨.ok, BitVec.ofNat 32 (bitsValue (s.streamBits d.toNat a.toNat))⟩) :=
  (if_neg (bitCount_legal_iff.mpr ha)).trans (if_neg (Nat.not_lt.mpr hd))

/-- The value of a bit string has no bit at or above the string's length. -/
theorem getLsbD_bitsValue_of_length_le (w : Nat) {bits : List Bool} {k : Nat}
    (hk : bits.length ≤ k) : (BitVec.ofNat w (bitsValue bits)).getLsbD k = false := by
  rw [BitVec.getLsbD_ofNat, testBit_bitsValue, List.getD_eq_default _ _ (by simpa using hk),
    Bool.and_false]

/-- Settles O47: a BGET in range answers the value of its stream bits. -/
theorem bgetReadsTheBits : Obligations.BgetReadsTheBits :=
  ⟨fun a d h1 h32 => decodeOfEncodeIsTheCommand (.bget a d) (decide_eq_true ⟨h1, h32⟩),
    fun a d ha => isIllegal_of_not_wf (row := opcodeMap[16]) (List.getElem_mem _) fun hwf =>
      bitCount_legal_iff.mpr (of_decide_eq_true hwf) ha,
    fun a d s h1 h32 => exec_bget_of_lt ⟨h1, h32⟩,
    fun a d s h1 h32 hd => ⟨_, exec_bget_of_le ⟨h1, h32⟩ hd,
      fun _ hk => getLsbD_bitsValue _ h32 hk,
      fun _ hk => getLsbD_bitsValue_of_length_le 32 (by simpa [State.streamBits] using hk)⟩⟩

end Sys2Proof.Machine
end

section
/-! PROOFS. The decode walker and the loop of DECODE (spec/45_coder.md R109, R112): what they do on
a path, on a code and on the codes of a text. -/

namespace Sys2Proof.Machine

variable {s t : State} {a : Symbol} {b : Bool} {j : NodeIdx} {p : List Bool}

/-! ### One step of the walker (R109) -/

theorem State.walkStep_of_badCode
    (h : s.root = NIL ∨ ((s.nodeAt s.root.toNat).leaf = true ∧ b = true)) :
    s.walkStep b = (.badCode, s) := by
  rcases h with hr | ⟨hroot, hb⟩
  · simp [State.walkStep, hr]
  · simp [State.walkStep, hroot, hb]

theorem State.walkStep_of_single (hr : s.root ≠ NIL) (hroot : (s.nodeAt s.root.toNat).leaf = true) :
    s.walkStep false = (.emit (s.nodeAt s.root.toNat).sym, s) := by
  simp [State.walkStep, hr, hroot]

section
variable (hr : s.root ≠ NIL) (hroot : (s.nodeAt s.root.toNat).leaf = false)
include hr hroot

theorem State.walkStep_to_leaf (hnext : (s.nodeAt (s.child s.cur b).toNat).leaf = true) :
    s.walkStep b = (.emit (s.nodeAt (s.child s.cur b).toNat).sym, s.setCur s.root) := by
  simp [State.walkStep, hr, hroot, hnext]

theorem State.walkStep_to_internal (hnext : (s.nodeAt (s.child s.cur b).toNat).leaf = false) :
    s.walkStep b = (.noEmit, s.setCur (s.child s.cur b)) := by
  simp [State.walkStep, hr, hroot, hnext]

end

theorem State.setCur_root_of_cur (hcur : s.cur = s.root) : s.setCur s.root = s := by
  rw [← hcur]
  rfl

/-- Without an internal root the walker never leaves its node. -/
theorem State.walkStep_of_flat (h : s.root = NIL ∨ (s.nodeAt s.root.toNat).leaf = true) (b : Bool) :
    (s.walkStep b).2 = s := by
  obtain ⟨hw, _⟩ | ⟨hw, _⟩ | ⟨_, hr, hroot, _⟩ | ⟨_, hr, hroot, _⟩ := s.walkStep_cases b
  · rw [hw]
  · rw [hw]
  · exact absurd (h.resolve_left hr) (by simp [hroot])
  · exact absurd (h.resolve_left hr) (by simp [hroot])

/-! ### One turn of DECODE's loop (R112) -/

section
variable {i start : Nat} {bits : List Bool}

theorem decodeFrom_of_badCode (h : s.walkStep b = (.badCode, t)) :
    decodeFrom i start (b :: bits) s = raise .badcode (BitVec.ofNat 32 i) t.emptyOutput := by
  simp [decodeFrom, h]

theorem decodeFrom_of_noEmit (h : s.walkStep b = (.noEmit, t)) :
    decodeFrom i start (b :: bits) s = decodeFrom (i + 1) start bits t := by
  simp [decodeFrom, h]

theorem decodeFrom_of_emit (h : s.walkStep b = (.emit a, t)) :
    decodeFrom i start (b :: bits) s =
      if t.symlen.toNat = t.params.symCap then
        raise .overflow (BitVec.ofNat 32 i) t.emptyOutput
      else decodeFrom (i + 1) (i + 1) bits (t.pushSymbol a) := by
  simp [decodeFrom, h]

theorem decodeFrom_nil_of_midwalk (h : s.cur ≠ s.root) :
    decodeFrom i start [] s = raise .trunc (BitVec.ofNat 32 start) s.emptyOutput := if_pos h

theorem decodeFrom_nil_of_root (h : s.cur = s.root) :
    decodeFrom i start [] s = respondOk s.symlen s := if_neg (not_not_intro h)

/-- Without an internal root no code is cut off (R115). -/
theorem decodeFrom_ne_trunc (hflat : s.root = NIL ∨ (s.nodeAt s.root.toNat).leaf = true)
    (hcur : s.cur = s.root) (h : decodeFrom i start bits s = .next t) (info : Word32) :
    t.rsp ≠ some ⟨.error .trunc, info⟩ := by
  induction bits generalizing i start s with
  | nil =>
    rw [decodeFrom_nil_of_root hcur] at h
    obtain rfl := Host.Outcome.next.inj h
    simp
  | cons b rest ih =>
    obtain ⟨res, hw⟩ : ∃ res, s.walkStep b = (res, s) :=
      ⟨_, Prod.ext rfl (State.walkStep_of_flat hflat b)⟩
    cases res with
    | badCode =>
      rw [decodeFrom_of_badCode hw] at h
      obtain rfl := Host.Outcome.next.inj h
      simp
    | noEmit => exact ih hflat hcur (decodeFrom_of_noEmit hw ▸ h)
    | emit a =>
      rw [decodeFrom_of_emit hw] at h
      split at h
      · obtain rfl := Host.Outcome.next.inj h
        simp
      · exact ih (s := s.pushSymbol a) hflat hcur h

/-! ### Walking a path -/

/-- A path that ends at an internal node starts at one. -/
theorem State.Leads.internal_start {k : NodeIdx} (h : s.Leads k p j)
    (hj : (s.nodeAt j.toNat).leaf = false) : (s.nodeAt k.toNat).leaf = false := by
  cases p with
  | nil => rwa [State.leads_nil.mp h]
  | cons b rest => exact (State.leads_cons.mp h).1

/-- A path ends with one branch from an internal node. -/
theorem State.Leads.of_snoc {k : NodeIdx} (h : s.Leads k (p ++ [b]) j) :
    s.Leads k p (s.follow k p) ∧ (s.nodeAt (s.follow k p).toNat).leaf = false ∧
      s.child (s.follow k p) b = j := by
  have hpath := h.take p.length
  have hint := h.2 p.length (by simp)
  rw [List.take_left'] at hpath hint
  · exact ⟨hpath, hint, by simpa [State.follow] using h.1⟩
  · rfl
  · rfl

/-- The bits of a path to an internal node move the walker along it and emit nothing. -/
theorem decodeFrom_of_leads (hr : s.root ≠ NIL) (hroot : (s.nodeAt s.root.toNat).leaf = false)
    (hpath : s.Leads s.cur p j) (hj : (s.nodeAt j.toNat).leaf = false) :
    decodeFrom i start (p ++ bits) s = decodeFrom (i + p.length) start bits (s.setCur j) := by
  induction p generalizing i s with
  | nil =>
    obtain rfl := State.leads_nil.mp hpath
    rfl
  | cons b rest ih =>
    have hrest := (State.leads_cons.mp hpath).2
    have hwalk := State.walkStep_to_internal hr hroot (hrest.internal_start hj)
    rw [List.cons_append, decodeFrom_of_noEmit hwalk,
      ih (s := s.setCur (s.child s.cur b)) hr hroot hrest hj, List.length_cons, Nat.add_right_comm,
      Nat.add_assoc]
    rfl

end

/-! ### Walking a code -/

theorem State.Inv.treeOk (h : s.Inv) (hp : s.phase = .built) : s.TreeOk := h.tree.2 hp

theorem State.Inv.codesOk (h : s.Inv) (hp : s.phase = .built) : s.CodesOk := h.codes.2 hp

theorem State.TreeOk.root_leaf_iff (tree : s.TreeOk) (hr : s.root ≠ NIL) :
    (s.nodeAt s.root.toNat).leaf = true ↔ s.nsyms = 1 := by
  have hsizes := tree.sizes (mt tree.root_eq_nil_iff.mpr hr)
  rw [tree.leaf_iff (tree.root_lt hr)]
  refine ⟨fun h => BitVec.eq_of_toNat_eq (show s.nsyms.toNat = 1 by omega), fun h => ?_⟩
  have hone : s.nsyms.toNat = 1 := congrArg BitVec.toNat h
  omega

theorem State.TreeOk.two_le_of_internal (tree : s.TreeOk) (hr : s.root ≠ NIL)
    (hroot : (s.nodeAt s.root.toNat).leaf = false) : 2 ≤ s.nsyms.toNat := by
  have := tree.sizes (mt tree.root_eq_nil_iff.mpr hr)
  have := tree.le_of_internal hroot
  omega

section
variable (tree : s.TreeOk) (codes : s.CodesOk)
include tree codes

/-- With the empty tree no symbol has a code (R90). -/
theorem State.CodesOk.root_ne_nil (ha : s.codeAt a ≠ []) : s.root ≠ NIL := by
  intro hr
  obtain ⟨k, hk, _⟩ := (tree.occurs_iff a).mp ((codes.coded_iff a).mp ha)
  simp [tree.root_eq_nil_iff.mp hr] at hk

/-- With a single leaf the symbol with a code is the leaf's (R89). -/
theorem State.CodesOk.sym_of_single (hS : s.nsyms = 1) (ha : s.codeAt a ≠ []) :
    (s.nodeAt s.root.toNat).sym = a := by
  obtain ⟨k, hk, hsym⟩ := (tree.occurs_iff a).mp ((codes.coded_iff a).mp ha)
  rw [hS] at hk
  obtain rfl : k = 0 := Nat.lt_one_iff.mp hk
  rwa [(tree.registers_of_single hS).2]

omit tree in
/-- R28 (b): a code is a path from ROOT to the leaf of its symbol. -/
theorem State.CodesOk.leads (hS : 2 ≤ s.nsyms.toNat) (a : Symbol) :
    s.Leads s.root (s.codeAt a) (s.follow s.root (s.codeAt a)) :=
  ⟨rfl, codes.through_internal hS a⟩

/-- From ROOT, all bits of a code but the last emit nothing; then the last bit emits the symbol of
the code and returns to ROOT. -/
theorem State.CodesOk.walks (ha : s.codeAt a ≠ []) (hcur : s.cur = s.root) :
    ∃ p b j, s.codeAt a = p ++ [b] ∧ (s.setCur j).walkStep b = (.emit a, s) ∧
      ∀ i start bits, decodeFrom i start (p ++ bits) s =
        decodeFrom (i + p.length) start bits (s.setCur j) := by
  have hr := codes.root_ne_nil tree ha
  by_cases hroot : (s.nodeAt s.root.toNat).leaf = true
  · have hS := (tree.root_leaf_iff hr).mp hroot
    refine ⟨[], false, s.root, codes.single_code hS a ha, ?_, fun i start bits => ?_⟩
    · rw [State.setCur_root_of_cur hcur, State.walkStep_of_single hr hroot,
        codes.sym_of_single tree hS ha]
    · rw [State.setCur_root_of_cur hcur]
      rfl
  · have hroot : (s.nodeAt s.root.toNat).leaf = false := Bool.eq_false_of_not_eq_true hroot
    have hS := tree.two_le_of_internal hr hroot
    obtain ⟨hleaf, hsym⟩ := codes.reaches_leaf hS a ha
    obtain ⟨p, b, hcode⟩ : ∃ p b, s.codeAt a = p ++ [b] :=
      ⟨_, _, (List.dropLast_append_getLast ha).symm⟩
    obtain ⟨hpath, hint, hlast⟩ := (hcode ▸ codes.leads hS a).of_snoc
    refine ⟨p, b, s.follow s.root p, hcode, ?_, fun i start bits =>
      decodeFrom_of_leads hr hroot (hcur.symm ▸ hpath) hint⟩
    rw [hcode, ← hlast] at hleaf hsym
    rw [State.walkStep_to_leaf (s := s.setCur (s.follow s.root p)) hr hroot hleaf]
    exact Prod.ext (congrArg WalkResult.emit hsym) (State.setCur_root_of_cur hcur)

/-- R112: the bits of one code append its symbol, or are E_OVERFLOW at their last position. -/
theorem State.CodesOk.decodeFrom_code (ha : s.codeAt a ≠ []) (hcur : s.cur = s.root)
    (i start : Nat) (bits : List Bool) :
    decodeFrom i start (s.codeAt a ++ bits) s =
      if s.symlen.toNat = s.params.symCap then
        raise .overflow (BitVec.ofNat 32 (i + (s.codeAt a).length - 1)) s.emptyOutput
      else
        decodeFrom (i + (s.codeAt a).length) (i + (s.codeAt a).length) bits (s.pushSymbol a) := by
  obtain ⟨p, b, j, hcode, hlast, hwalk⟩ := codes.walks tree ha hcur
  rw [hcode, List.append_assoc, List.singleton_append, hwalk, decodeFrom_of_emit hlast,
    List.length_append, List.length_singleton]
  rfl

/-- R115: bits that end inside a code leave the walker below ROOT. -/
theorem State.CodesOk.decodeFrom_part {part : List Bool} (hcur : s.cur = s.root) (hne : part ≠ [])
    (hpre : part <+: s.codeAt a) (hpart : part ≠ s.codeAt a) (i start : Nat) :
    decodeFrom i start part s = raise .trunc (BitVec.ofNat 32 start) s.emptyOutput := by
  have ha : s.codeAt a ≠ [] := fun h0 => hne (List.prefix_nil.mp (h0 ▸ hpre))
  have hr := codes.root_ne_nil tree ha
  have hpos := List.length_pos_iff.mpr hne
  have hlt : part.length < (s.codeAt a).length :=
    lt_of_le_of_ne hpre.length_le (mt hpre.eq_of_length hpart)
  have hroot : (s.nodeAt s.root.toNat).leaf = false := by
    by_contra hleaf
    have hS := (tree.root_leaf_iff hr).mp (Bool.eq_true_of_not_eq_false hleaf)
    rw [codes.single_code hS a ha, List.length_singleton] at hlt
    omega
  have hS := tree.two_le_of_internal hr hroot
  have hpath := (codes.leads hS a).take part.length
  have hint := codes.through_internal hS a part.length hlt
  rw [← List.prefix_iff_eq_take.mp hpre] at hpath hint
  have hbelow : s.follow s.root part ≠ s.root := by
    intro heq
    have hle := tree.leads_le (tree.root_lt hr) hpath
    rw [heq] at hle
    omega
  rw [← List.append_nil part, decodeFrom_of_leads hr hroot (by rwa [hcur]) hint]
  exact decodeFrom_nil_of_midwalk hbelow

end

/-! ### Appending symbols -/

/-- Each symbol of a text appended to SYMBUF, in order. -/
def State.pushSymbols (s : State) (text : List Symbol) : State := text.foldl State.pushSymbol s

@[simp] theorem State.pushSymbols_nil (s : State) : s.pushSymbols [] = s := rfl

@[simp] theorem State.pushSymbols_cons (s : State) (a : Symbol) (text : List Symbol) :
    s.pushSymbols (a :: text) = (s.pushSymbol a).pushSymbols text := rfl

/-- Appending symbols changes SYMBUF and SYMLEN and nothing else. -/
theorem State.pushSymbols_frame (s : State) (text : List Symbol) :
    s.pushSymbols text =
      { s with
        symbuf := (s.pushSymbols text).symbuf
        symlen := (s.pushSymbols text).symlen } := by
  induction text generalizing s with
  | nil => rfl
  | cons a rest ih => exact ih (s.pushSymbol a)

@[simp] theorem State.pushSymbols_params (s : State) (text : List Symbol) :
    (s.pushSymbols text).params = s.params := by
  rw [s.pushSymbols_frame text]

@[simp] theorem State.pushSymbols_cur (s : State) (text : List Symbol) :
    (s.pushSymbols text).cur = s.cur := by
  rw [s.pushSymbols_frame text]

@[simp] theorem State.pushSymbols_root (s : State) (text : List Symbol) :
    (s.pushSymbols text).root = s.root := by
  rw [s.pushSymbols_frame text]

@[simp] theorem State.pushSymbols_nsyms (s : State) (text : List Symbol) :
    (s.pushSymbols text).nsyms = s.nsyms := by
  rw [s.pushSymbols_frame text]

@[simp] theorem State.pushSymbols_code (s : State) (text : List Symbol) :
    (s.pushSymbols text).code = s.code := by
  rw [s.pushSymbols_frame text]

theorem State.TreeOk.pushSymbols (tree : s.TreeOk) (text : List Symbol) :
    (s.pushSymbols text).TreeOk := by
  rw [s.pushSymbols_frame text]
  exact tree.congr rfl rfl rfl rfl rfl tree.cur_ok

theorem State.CodesOk.pushSymbols (codes : s.CodesOk) (text : List Symbol) :
    (s.pushSymbols text).CodesOk := by
  rw [s.pushSymbols_frame text]
  exact codes.congr rfl rfl rfl rfl rfl

section
variable {text : List Symbol}

theorem State.pushSymbols_symbols (room : s.symlen.toNat + text.length ≤ s.params.symCap) :
    (s.pushSymbols text).symbols = s.symbols ++ text := by
  induction text generalizing s with
  | nil => simp
  | cons a rest ih =>
    rw [List.length_cons] at room
    have hroom : s.symlen.toNat < s.params.symCap := by omega
    rw [State.pushSymbols_cons, ih, State.pushSymbol_symbols a hroom, List.append_assoc,
      List.singleton_append]
    rw [State.pushSymbol_symlen_toNat a hroom, State.pushSymbol_params]
    omega

theorem State.pushSymbols_symlen (room : s.symlen.toNat + text.length ≤ s.params.symCap) :
    (s.pushSymbols text).symlen.toNat = s.symlen.toNat + text.length := by
  rw [← State.symbols_length, State.pushSymbols_symbols room, List.length_append,
    State.symbols_length]

/-- The cells past the appended symbols keep what they hold. -/
theorem State.pushSymbols_read_after (room : s.symlen.toNat + text.length ≤ s.params.symCap)
    {k : Nat} (hk : s.symlen.toNat + text.length ≤ k) :
    (s.pushSymbols text).symbuf.read k = s.symbuf.read k := by
  induction text generalizing s with
  | nil => rfl
  | cons a rest ih =>
    rw [List.length_cons] at room hk
    have hlen := State.pushSymbol_symlen_toNat a (show s.symlen.toNat < s.params.symCap by omega)
    rw [State.pushSymbols_cons, ih (by rw [hlen, State.pushSymbol_params]; omega)
      (by rw [hlen]; omega)]
    exact Memory.read_write_other _ _ (by omega)

@[simp] theorem State.codesOf_nil (s : State) : s.codesOf [] = [] := rfl

@[simp] theorem State.codesOf_cons (s : State) (a : Symbol) (text : List Symbol) :
    s.codesOf (a :: text) = s.codeAt a ++ s.codesOf text := rfl

@[simp] theorem State.codesOf_append (s : State) (text rest : List Symbol) :
    s.codesOf (text ++ rest) = s.codesOf text ++ s.codesOf rest := List.flatMap_append

theorem State.codesOf_congr (hcode : s.code = t.code) : s.codesOf text = t.codesOf text := by
  rw [State.codesOf, State.codesOf, State.codeAt_congr hcode]

theorem State.CodesOk.pushSymbol (codes : s.CodesOk) (a : Symbol) : (s.pushSymbol a).CodesOk :=
  codes.congr rfl rfl rfl rfl rfl

/-- R112: the codes of a text that fits SYMBUF append the text, and the walker is at ROOT again. -/
theorem State.CodesOk.decodeFrom_codes (codes : s.CodesOk) (tree : s.TreeOk)
    (hcur : s.cur = s.root) (hcoded : ∀ a ∈ text, s.codeAt a ≠ [])
    (room : s.symlen.toNat + text.length ≤ s.params.symCap) (i : Nat) (bits : List Bool) :
    decodeFrom i i (s.codesOf text ++ bits) s =
      decodeFrom (i + (s.codesOf text).length) (i + (s.codesOf text).length) bits
        (s.pushSymbols text) := by
  induction text generalizing i s with
  | nil => rfl
  | cons a rest ih =>
    obtain ⟨ha, hrest⟩ := List.forall_mem_cons.mp hcoded
    rw [List.length_cons] at room
    have hroom : s.symlen.toNat < s.params.symCap := by omega
    have hlen := State.pushSymbol_symlen_toNat a hroom
    have htail := ih (codes.pushSymbol a) (tree.pushSymbol a) hcur hrest
      (by rw [hlen, State.pushSymbol_params]; omega) (i + (s.codeAt a).length)
    rw [State.codesOf_congr (show (s.pushSymbol a).code = s.code from rfl)] at htail
    rw [State.codesOf_cons, List.append_assoc, codes.decodeFrom_code tree ha hcur,
      if_neg hroom.ne, htail, List.length_append, Nat.add_assoc, State.pushSymbols_cons]

end

end Sys2Proof.Machine
end

section
/-! PROOFS. The statements of spec/45_coder.md about DECODE. -/

namespace Sys2Proof.Machine

variable {s t : State} {d : Word32} {text : List Symbol} {bits : List Bool}

/-! ### DECODE -/

theorem exec_decode_of_uninit (d : Word32) (hp : s.phase = .uninit) :
    exec (.decode d) s = .next (s.answer ⟨.error .phase, 0⟩) := by
  simp [exec, execDecode, hp, raise]

theorem exec_decode_of_lt (hp : s.phase = .built) (hd : 8 * s.bytelen < d.toNat) :
    exec (.decode d) s = .next (s.answer ⟨.error .range, BitVec.ofNat 32 (8 * s.bytelen)⟩) := by
  simp [exec, execDecode, hp, hd, raise]

theorem exec_decode_of_le (hp : s.phase = .built) (hd : d.toNat ≤ 8 * s.bytelen) :
    exec (.decode d) s = decodeFrom 0 0 (s.streamBits 0 d.toNat) s.emptyOutput := by
  simp [exec, execDecode, hp, Nat.not_lt.mpr hd]

/-- DECODE writes SYMBUF, SYMLEN and CUR alone. -/
theorem exec_decode_frame (h : exec (.decode d) s = .next t) :
    t = { s with symbuf := t.symbuf, symlen := t.symlen, cur := t.cur, rsp := t.rsp } := by
  obtain ⟨params, inputs, phase, _, bitlen, tree, _, freq, node, code, _, bytebuf⟩ :=
    exec_writesOnly h
  cases s; cases t
  simp_all [writtenParts]

theorem State.TreeOk.emptyOutput (tree : s.TreeOk) : s.emptyOutput.TreeOk :=
  tree.congr rfl rfl rfl rfl rfl (.inl rfl)

theorem State.CodesOk.emptyOutput (codes : s.CodesOk) : s.emptyOutput.CodesOk :=
  codes.congr rfl rfl rfl rfl rfl

/-- SYMBUF is emptied before the text comes in. -/
theorem State.emptyOutput_room (room : text.length ≤ s.params.symCap) :
    s.emptyOutput.symlen.toNat + text.length ≤ s.emptyOutput.params.symCap :=
  (Nat.zero_add _).trans_le room

/-- DECODE on the codes of a text that fits SYMBUF and further bits goes on with the further bits,
when it has appended the text. -/
theorem State.Inv.exec_decode_codes (h : s.Inv) (hp : s.phase = .built)
    (hcoded : ∀ a ∈ text, s.codeAt a ≠ []) (room : text.length ≤ s.params.symCap)
    (hd : d.toNat ≤ 8 * s.bytelen) (hbits : s.streamBits 0 d.toNat = s.codesOf text ++ bits) :
    exec (.decode d) s =
      decodeFrom (s.codesOf text).length (s.codesOf text).length bits
        (s.emptyOutput.pushSymbols text) := by
  have hwalk := (h.codesOk hp).emptyOutput.decodeFrom_codes (h.treeOk hp).emptyOutput rfl hcoded
    (State.emptyOutput_room room) 0 bits
  rw [Nat.zero_add] at hwalk
  rw [exec_decode_of_le hp hd, hbits]
  exact hwalk

/-- Settles O54: after the text no bit is left, and the walker is at ROOT. -/
theorem decodeReadsTheCodesBack : Obligations.DecodeReadsTheCodesBack := by
  intro s d text h hp hcoded room hd hbits
  have hfit := State.emptyOutput_room room
  have hexec := h.exec_decode_codes hp hcoded room hd (hbits.trans (List.append_nil _).symm)
  rw [decodeFrom_nil_of_root (by simp [State.emptyOutput])] at hexec
  refine ⟨_, hexec, rfl, (State.pushSymbols_symlen hfit).trans (Nat.zero_add _),
    State.pushSymbols_symbols hfit, by simp [State.emptyOutput], fun j hj => ?_,
    exec_decode_frame hexec⟩
  exact State.pushSymbols_read_after hfit ((Nat.zero_add _).trans_le hj)

theorem State.TreeOk.flat_of_le_one (tree : s.TreeOk) (hS : s.nsyms.toNat ≤ 1) :
    s.root = NIL ∨ (s.nodeAt s.root.toNat).leaf = true := by
  by_cases hr : s.root = NIL
  · exact .inl hr
  · refine .inr (Bool.eq_true_of_not_eq_false fun hroot => ?_)
    have := tree.two_le_of_internal hr hroot
    omega

/-- Settles O55: the part of a code that is left moves the walker below ROOT; and with at most one
symbol the walker stays where it is. -/
theorem decodeReportsATruncatedStream : Obligations.DecodeReportsATruncatedStream := by
  constructor
  · intro s d text x part h hp hcoded room hne hpre hpart hd hbits
    have hcode : (s.emptyOutput.pushSymbols text).codeAt = s.codeAt :=
      State.codeAt_congr (State.pushSymbols_code _ _)
    have hexec := h.exec_decode_codes hp hcoded room hd hbits
    rw [((h.codesOk hp).emptyOutput.pushSymbols text).decodeFrom_part
      ((h.treeOk hp).emptyOutput.pushSymbols text) (by simp [State.emptyOutput]) hne
      (hcode ▸ hpre) (hcode ▸ hpart)] at hexec
    refine ⟨_, hexec, rfl, rfl, State.pushSymbols_root _ _, fun j hj => ?_,
      exec_decode_frame hexec⟩
    exact State.pushSymbols_read_after (State.emptyOutput_room room) ((Nat.zero_add _).trans_le hj)
  · intro s t d info h hp hS hexec
    by_cases hd : d.toNat ≤ 8 * s.bytelen
    · rw [exec_decode_of_le hp hd] at hexec
      have hflat := (h.treeOk hp).flat_of_le_one hS
      exact decodeFrom_ne_trunc (s := s.emptyOutput) hflat rfl hexec info
    · rw [exec_decode_of_lt hp (Nat.lt_of_not_le hd)] at hexec
      obtain rfl := Host.Outcome.next.inj hexec
      simp

/-! ### DECODE on the empty tree and on a single leaf -/

theorem State.streamBits_succ (s : State) (k n : Nat) :
    s.streamBits k (n + 1) = s.streamBit k :: s.streamBits (k + 1) n := by
  simp [State.streamBits, List.range_succ_eq_map, Nat.add_comm 1, Nat.add_assoc]

theorem State.streamBits_add (s : State) (k m n : Nat) :
    s.streamBits k (m + n) = s.streamBits k m ++ s.streamBits (k + m) n := by
  simp [State.streamBits, List.range_add, Nat.add_assoc]

theorem State.CodesOk.codeAt_of_single (codes : s.CodesOk) (tree : s.TreeOk) (hS : s.nsyms = 1) :
    s.codeAt (s.nodeAt s.root.toNat).sym = [false] := by
  refine codes.single_code hS _ ((codes.coded_iff _).mpr ((tree.occurs_iff _).mpr ⟨0, ?_, ?_⟩))
  · rw [hS]
    decide
  · rw [(tree.registers_of_single hS).2]
    rfl

/-- With a single leaf, the codes of the symbol repeated are as many zeros. -/
theorem State.codesOf_replicate {x : Symbol} (hx : s.codeAt x = [false]) (n : Nat) :
    s.codesOf (List.replicate n x) = List.replicate n false := by
  induction n with
  | zero => rfl
  | succ n ih =>
    rw [List.replicate_succ, State.codesOf_cons, hx, ih, List.replicate_succ]
    rfl

theorem State.streamBits_of_zeros {n : Nat} (h : ∀ i, i < n → s.streamBit i = false) :
    s.streamBits 0 n = List.replicate n false := by
  refine List.eq_replicate_iff.mpr ⟨by simp [State.streamBits], fun b hb => ?_⟩
  obtain ⟨k, hk, rfl⟩ := List.mem_map.mp hb
  rw [Nat.zero_add]
  exact h k (List.mem_range.mp hk)

/-- Settles O56: no bit is left at once; the empty tree fails on every bit; zeros are the codes of
the single leaf's symbol, and a one fails there. -/
theorem decodeOfEmptyAndSingleLeafTrees : Obligations.DecodeOfEmptyAndSingleLeafTrees := by
  refine ⟨fun s hp => (exec_decode_of_le hp (Nat.zero_le _)).trans (decodeFrom_nil_of_root rfl),
    fun s d h hp hS hne hd => ?_, fun s d h hp hS hd hcap hzero => ?_,
    fun s d i h hp hS hd hi hcap hzero hone => ?_⟩
  · have hr := (h.treeOk hp).root_eq_nil_iff.mpr hS
    obtain ⟨n, hn⟩ := Nat.exists_eq_succ_of_ne_zero fun h0 => hne (BitVec.eq_of_toNat_eq h0)
    rw [exec_decode_of_le hp hd, hn, State.streamBits_succ,
      decodeFrom_of_badCode (State.walkStep_of_badCode (s := s.emptyOutput) (.inl hr))]
    rfl
  · have hx := (h.codesOk hp).codeAt_of_single (h.treeOk hp) hS
    obtain ⟨t, hexec, hrsp, hlen, hsymbols, _⟩ := decodeReadsTheCodesBack s d
      (List.replicate d.toNat (s.nodeAt s.root.toNat).sym) h hp
      (fun a ha => by simp [List.eq_of_mem_replicate ha, hx]) (by rwa [List.length_replicate]) hd
      (by rw [State.codesOf_replicate hx, State.streamBits_of_zeros hzero])
    rw [List.length_replicate] at hlen
    exact ⟨t, hexec, hrsp.trans (by rw [BitVec.eq_of_toNat_eq hlen]), hsymbols⟩
  · have hx := (h.codesOk hp).codeAt_of_single (h.treeOk hp) hS
    obtain ⟨n, hn⟩ : ∃ n, d.toNat = i + (n + 1) := ⟨d.toNat - (i + 1), by omega⟩
    have hbits : s.streamBits 0 d.toNat =
        s.codesOf (List.replicate i (s.nodeAt s.root.toNat).sym) ++
          true :: s.streamBits (i + 1) n := by
      rw [hn, State.streamBits_add, State.streamBits_of_zeros hzero, Nat.zero_add,
        State.streamBits_succ, hone, State.codesOf_replicate hx]
    have hexec := h.exec_decode_codes hp
      (fun a ha => by simp [List.eq_of_mem_replicate ha, hx]) (by rwa [List.length_replicate]) hd
      hbits
    have hflat := ((h.treeOk hp).emptyOutput.pushSymbols (List.replicate i
      (s.nodeAt s.root.toNat).sym)).flat_of_le_one (by simp [State.emptyOutput, hS])
    rw [decodeFrom_of_badCode (State.walkStep_of_badCode (hflat.imp_right (⟨·, rfl⟩))),
      State.codesOf_replicate hx, List.length_replicate] at hexec
    exact ⟨_, hexec, rfl, rfl, State.pushSymbols_root _ _⟩

/-- Settles O57: the text without its last symbol fills SYMBUF, and the last bit of the last code
emits one symbol more. -/
theorem decodeReportsAFullSymbolBuffer : Obligations.DecodeReportsAFullSymbolBuffer := by
  intro s d text rest h hp hcoded hlen hd hbits
  obtain ⟨init, last, rfl⟩ : ∃ init last, text = init ++ [last] :=
    ⟨_, _, (List.dropLast_append_getLast (List.ne_nil_of_length_eq_add_one hlen)).symm⟩
  obtain ⟨hinit, hlast⟩ := List.forall_mem_append.mp hcoded
  have hfull : init.length = s.params.symCap := by simpa using hlen
  rw [State.codesOf_append, List.append_assoc, State.codesOf_cons, State.codesOf_nil,
    List.append_nil] at hbits
  have hexec := h.exec_decode_codes hp hinit hfull.le hd hbits
  have hcode : (s.emptyOutput.pushSymbols init).codeAt = s.codeAt :=
    State.codeAt_congr (State.pushSymbols_code _ _)
  have hsymlen := State.pushSymbols_symlen (State.emptyOutput_room hfull.le)
  have hover := ((h.codesOk hp).emptyOutput.pushSymbols init).decodeFrom_code
    ((h.treeOk hp).emptyOutput.pushSymbols init) (hcode ▸ hlast last (List.mem_singleton_self _))
    (by simp [State.emptyOutput]) (s.codesOf init).length (s.codesOf init).length rest
  rw [if_pos (hsymlen.trans (by simp [State.emptyOutput, hfull])), hcode] at hover
  refine ⟨_, hexec.trans hover, ?_, rfl, State.pushSymbols_root _ _,
    exec_decode_frame (hexec.trans hover)⟩
  simp

end Sys2Proof.Machine
end

section
/-! PROOFS. The loop of ENCODE (spec/45_coder.md R106): what it does on symbols whose codes fit, and
what the bits it appends leave in BYTEBUF. -/

namespace Sys2Proof.Machine

variable {s t : State} {a : Symbol} {k : Nat} {bits : List Bool} {before after : List Symbol}

/-! ### The loop (R106) -/

theorem State.codeLen_eq_zero_iff (s : State) (a : Symbol) : s.codeLen a = 0 ↔ s.codeAt a = [] :=
  List.length_eq_zero_iff

@[simp] theorem State.appendBits_codeAt (s : State) (bits : List Bool) :
    (s.appendBits bits).codeAt = s.codeAt :=
  State.codeAt_congr (by rw [s.appendBits_frame bits])

theorem encodeFrom_of_uncoded (ha : s.codeAt a = []) :
    encodeFrom k (a :: after) s = raise .unksym (BitVec.ofNat 32 k) s.emptyStream :=
  if_pos ((s.codeLen_eq_zero_iff a).mpr ha)

theorem encodeFrom_of_full (ha : s.codeAt a ≠ [])
    (hfull : 8 * s.params.byteCap < s.bitlen.toNat + (s.codeAt a).length) :
    encodeFrom k (a :: after) s = raise .overflow (BitVec.ofNat 32 k) s.emptyStream :=
  (if_neg (mt (s.codeLen_eq_zero_iff a).mp ha)).trans (if_pos hfull)

theorem encodeFrom_of_room (ha : s.codeAt a ≠ [])
    (room : s.bitlen.toNat + (s.codeAt a).length ≤ 8 * s.params.byteCap) :
    encodeFrom k (a :: after) s = encodeFrom (k + 1) after (s.appendBits (s.codeAt a)) :=
  (if_neg (mt (s.codeLen_eq_zero_iff a).mp ha)).trans (if_neg (Nat.not_lt.mpr room))

theorem State.appendBits_bitlen_of_room
    (room : s.bitlen.toNat + bits.length ≤ 8 * s.params.byteCap) :
    (s.appendBits bits).bitlen.toNat = s.bitlen.toNat + bits.length := by
  have hcap := s.params.byteCap_le
  exact s.appendBits_bitlen bits (by omega)

/-- Symbols with codes that fit append their codes. -/
theorem encodeFrom_codes (hcoded : ∀ a ∈ before, s.codeAt a ≠ [])
    (room : s.bitlen.toNat + (s.codesOf before).length ≤ 8 * s.params.byteCap) :
    encodeFrom k (before ++ after) s =
      encodeFrom (k + before.length) after (s.appendBits (s.codesOf before)) := by
  induction before generalizing k s with
  | nil => rfl
  | cons a rest ih =>
    obtain ⟨ha, hrest⟩ := List.forall_mem_cons.mp hcoded
    rw [State.codesOf_cons, List.length_append] at room
    have hroom : s.bitlen.toNat + (s.codeAt a).length ≤ 8 * s.params.byteCap := by omega
    have hcodes : (s.appendBits (s.codeAt a)).codesOf rest = s.codesOf rest := by
      rw [State.codesOf, State.appendBits_codeAt, State.codesOf]
    rw [List.cons_append, encodeFrom_of_room ha hroom, ih (by rwa [State.appendBits_codeAt]),
      hcodes, State.codesOf_cons, State.appendBits_append, List.length_cons, Nat.add_assoc,
      Nat.add_comm 1]
    rw [hcodes, State.appendBits_bitlen_of_room hroom, State.appendBits_params]
    omega

/-- ENCODE's loop answers OK only when every symbol has a code and the codes fit. -/
theorem encodeFrom_ok {syms : List Symbol} {n : Word32} (h : encodeFrom k syms s = .next t)
    (hrsp : t.rsp = some ⟨.ok, n⟩) (hle : s.bitlen.toNat ≤ 8 * s.params.byteCap) :
    (∀ a ∈ syms, s.codeAt a ≠ []) ∧
      s.bitlen.toNat + (s.codesOf syms).length ≤ 8 * s.params.byteCap := by
  induction syms generalizing k s with
  | nil => exact ⟨fun a ha => absurd ha List.not_mem_nil, hle⟩
  | cons a rest ih =>
    by_cases ha : s.codeAt a = []
    · rw [encodeFrom_of_uncoded ha] at h
      obtain rfl := Host.Outcome.next.inj h
      simp at hrsp
    by_cases hroom : s.bitlen.toNat + (s.codeAt a).length ≤ 8 * s.params.byteCap
    · have hlen := State.appendBits_bitlen_of_room hroom
      rw [encodeFrom_of_room ha hroom] at h
      obtain ⟨hcoded, hfit⟩ := ih h (by rwa [hlen, State.appendBits_params])
      rw [State.appendBits_codeAt] at hcoded
      rw [hlen, State.appendBits_params, State.codesOf, State.appendBits_codeAt] at hfit
      refine ⟨List.forall_mem_cons.mpr ⟨ha, hcoded⟩, ?_⟩
      rwa [State.codesOf_cons, List.length_append, ← Nat.add_assoc]
    · rw [encodeFrom_of_full ha (Nat.lt_of_not_le hroom)] at h
      obtain rfl := Host.Outcome.next.inj h
      simp at hrsp

/-! ### The appended bits -/

/-- `s` with both buffers as reset leaves them. -/
def State.freshBuffers (s : State) : State :=
  { s with symlen := 0, symbuf := [], bitlen := 0, bytebuf := [] }

theorem State.buffersOk_freshBuffers (s : State) : s.freshBuffers.BuffersOk :=
  (State.buffersOk_resetFor s.params).congr rfl rfl rfl rfl rfl

theorem State.freshBuffers_sameView (s : State) :
    s.emptyStream.emptySymbols.SameView s.freshBuffers :=
  { params := rfl, phase := rfl, symlen := rfl, bitlen := rfl, nsyms := rfl, nnodes := rfl
    root := rfl, cur := rfl, freq := fun _ => rfl, code := fun _ => rfl, node := fun _ _ => rfl
    symbols := rfl, bytes := (State.bytes_of_empty rfl).trans (State.bytes_of_empty rfl).symm
    rsp := rfl, inputs := rfl }

theorem State.appendBits_emptySymbols (s : State) (bits : List Bool) :
    s.emptySymbols.appendBits bits = (s.appendBits bits).emptySymbols := by
  induction bits generalizing s with
  | nil => rfl
  | cons b rest ih => exact ih (s.appendBit b)

/-- Bits appended to the empty stream are packed, whatever the buffers hold (R98, R106). -/
theorem State.emptyStream_appendBits_bytes (room : bits.length ≤ 8 * s.params.byteCap) :
    (s.emptyStream.appendBits bits).bytes = pack bits := by
  have hfit : s.freshBuffers.bitlen.toNat + bits.length ≤ 8 * s.freshBuffers.params.byteCap :=
    (Nat.zero_add _).trans_le room
  have hok : (s.freshBuffers.appendBits bits).BuffersOk :=
    State.buffersOk_isInvariant.changes (Changes.appendBits (i := .encode) bits _ hfit)
      s.buffersOk_freshBuffers
  calc (s.emptyStream.appendBits bits).bytes
      = (s.emptyStream.emptySymbols.appendBits bits).bytes := by
        rw [State.appendBits_emptySymbols]; rfl
    _ = (s.freshBuffers.appendBits bits).bytes := (s.freshBuffers_sameView.appendBits bits).bytes
    _ = pack (s.freshBuffers.appendBits bits).validBits := hok.bytes_eq_pack
    _ = pack bits := by
        rw [s.buffersOk_freshBuffers.appendBits_validBits bits hfit]; rfl

theorem State.emptyStream_room (room : bits.length ≤ 8 * s.params.byteCap) :
    s.emptyStream.bitlen.toNat + bits.length ≤ 8 * s.emptyStream.params.byteCap :=
  (Nat.zero_add _).trans_le room

theorem State.emptyStream_appendBits_bitlen (room : bits.length ≤ 8 * s.params.byteCap) :
    (s.emptyStream.appendBits bits).bitlen.toNat = bits.length :=
  (State.appendBits_bitlen_of_room (State.emptyStream_room room)).trans (Nat.zero_add _)

/-- The bytes past the appended ones keep what they hold. -/
theorem State.emptyStream_appendBits_read (room : bits.length ≤ 8 * s.params.byteCap) {j : Nat}
    (hj : (bits.length + 7) / 8 ≤ j) :
    (s.emptyStream.appendBits bits).bytebuf.read j = s.bytebuf.read j := by
  have hcap := s.params.byteCap_le
  have hzero : s.emptyStream.bitlen.toNat = 0 := rfl
  exact s.emptyStream.appendBits_bytes_after bits j (by rwa [hzero, Nat.zero_add])
    (by rw [hzero]; omega)

end Sys2Proof.Machine
end

section
/-! PROOFS. The statements of spec/45_coder.md about ENCODE, DSTEP and DRST, and about the words and
the tests of DECODE. -/

namespace Sys2Proof.Machine

variable {s t : State} {a : OperandA} {x : Symbol} {before after : List Symbol}

/-! ### ENCODE -/

theorem exec_encode_of_uninit (hp : s.phase = .uninit) :
    exec .encode s = .next (s.answer ⟨.error .phase, 0⟩) := by
  simp [exec, execEncode, hp, raise]

theorem exec_encode_of_built (hp : s.phase = .built) :
    exec .encode s = encodeFrom 0 s.symbols s.emptyStream := by
  simp [exec, execEncode, hp]

/-- ENCODE writes BYTEBUF and BITLEN alone. -/
theorem exec_encode_frame (h : exec .encode s = .next t) :
    t = { s with bytebuf := t.bytebuf, bitlen := t.bitlen, rsp := t.rsp } := by
  obtain ⟨params, inputs, phase, symlen, _, tree, cur, freq, node, code, symbuf, _⟩ :=
    exec_writesOnly h
  cases s; cases t
  simp_all [writtenParts]

/-- ENCODE on a text that begins with symbols whose codes fit goes on with the others, when it has
appended the codes. -/
theorem exec_encode_codes (hp : s.phase = .built) (hsyms : s.symbols = before ++ after)
    (hcoded : ∀ b ∈ before, s.codeAt b ≠ [])
    (room : (s.codesOf before).length ≤ 8 * s.params.byteCap) :
    exec .encode s =
      encodeFrom before.length after (s.emptyStream.appendBits (s.codesOf before)) := by
  have hloop := encodeFrom_codes (s := s.emptyStream) (after := after) (k := 0) hcoded
    (State.emptyStream_room room)
  rw [Nat.zero_add] at hloop
  rw [exec_encode_of_built hp, hsyms]
  exact hloop

theorem exec_encode_of_fit (hp : s.phase = .built) (hcoded : ∀ b ∈ s.symbols, s.codeAt b ≠ [])
    (room : (s.codesOf s.symbols).length ≤ 8 * s.params.byteCap) :
    exec .encode s =
      respondOk (s.emptyStream.appendBits (s.codesOf s.symbols)).bitlen
        (s.emptyStream.appendBits (s.codesOf s.symbols)) :=
  exec_encode_codes hp (List.append_nil _).symm hcoded room

/-- Settles O49: the loop appends the codes that fit; it ends there, or the next symbol stops it. -/
theorem encodePacksTheCodes : Obligations.EncodePacksTheCodes := by
  refine ⟨rfl, fun s => exec_encode_of_uninit, fun s hp hcoded room => ?_,
    fun s before a after hp hsyms hcoded room hstop => ?_⟩
  · have hexec := exec_encode_of_fit hp hcoded room
    have hlen := State.emptyStream_appendBits_bitlen room
    refine ⟨_, hexec, rfl, hlen, State.emptyStream_appendBits_bytes room, fun j hj => ?_,
      exec_encode_frame hexec⟩
    rw [State.bytelen, State.answer_bitlen, hlen] at hj
    exact State.emptyStream_appendBits_read room hj
  · have hexec := exec_encode_codes hp hsyms hcoded room
    have hlen := State.emptyStream_appendBits_bitlen room
    have hcode : (s.emptyStream.appendBits (s.codesOf before)).codeAt = s.codeAt :=
      State.appendBits_codeAt _ _
    have hread := fun j => State.emptyStream_appendBits_read (j := j) room
    by_cases ha : s.codeAt a = []
    · have herr := hexec.trans (encodeFrom_of_uncoded (hcode ▸ ha))
      exact ⟨_, herr, by rw [if_pos ha]; rfl, rfl, hread, exec_encode_frame herr⟩
    · have hfull : 8 * s.params.byteCap <
          (s.codesOf before).length + (s.codeAt a).length := hstop.resolve_left ha
      have herr := hexec.trans (encodeFrom_of_full (hcode ▸ ha)
        (by rwa [hlen, hcode, State.appendBits_params]))
      exact ⟨_, herr, by rw [if_neg ha]; rfl, rfl, hread, exec_encode_frame herr⟩

/-- Settles O50: without symbols the loop does not run; without nodes no symbol has a code. -/
theorem encodeOfEmptyTextOrEmptyTree : Obligations.EncodeOfEmptyTextOrEmptyTree := by
  constructor
  · intro s hp hlen
    have hsyms : s.symbols = [] := by simp [State.symbols, hlen]
    have hexec := exec_encode_of_built hp
    rw [hsyms] at hexec
    exact ⟨_, hexec, rfl, rfl, by simp [State.bytelen], rfl⟩
  · intro s h hp hS hne
    obtain ⟨a, rest, hsyms⟩ : ∃ a rest, s.symbols = a :: rest := by
      refine List.exists_cons_of_length_pos ?_
      rw [s.symbols_length]
      exact Nat.pos_of_ne_zero fun h0 => hne (BitVec.eq_of_toNat_eq h0)
    have hr := (h.treeOk hp).root_eq_nil_iff.mpr hS
    have ha : s.codeAt a = [] := by
      by_contra ha
      exact (h.codesOk hp).root_ne_nil (h.treeOk hp) ha hr
    have hexec := exec_encode_of_built hp
    rw [hsyms, encodeFrom_of_uncoded (s := s.emptyStream) ha] at hexec
    exact ⟨_, hexec, rfl, rfl, rfl⟩

/-! ### DSTEP -/

section
variable (ha : a.toNat ≤ 1) (hp : s.phase = .built)
include ha hp

theorem exec_dstep_of_badCode (h : s.walkStep (a = 1) = (.badCode, t)) :
    exec (.dstep a) s = .next (t.answer ⟨.error .badcode, 0⟩) := by
  simp only [exec, execDstep, if_neg (Nat.not_lt.mpr ha), hp, h, raise]

theorem exec_dstep_of_noEmit (h : s.walkStep (a = 1) = (.noEmit, t)) :
    exec (.dstep a) s = .next (t.answer ⟨.ok, 0⟩) := by
  simp only [exec, execDstep, if_neg (Nat.not_lt.mpr ha), hp, h, respondOk]

/-- R110: an emitted symbol is answered with bit 8 set. -/
theorem exec_dstep_of_emit (h : s.walkStep (a = 1) = (.emit x, t)) :
    ∃ v : Word32, exec (.dstep a) s = .next (t.answer ⟨.ok, v⟩) ∧ v.toNat = 0x100 + x.toNat := by
  refine ⟨0x100 + x.setWidth 32,
    by simp only [exec, execDstep, if_neg (Nat.not_lt.mpr ha), hp, h, respondOk], ?_⟩
  have hx : (x.setWidth 32).toNat = x.toNat := BitVec.toNat_setWidth_of_le (by decide)
  have hlt := x.isLt
  rw [BitVec.toNat_add, hx]
  exact Nat.mod_eq_of_lt (by rw [show (0x100 : Word32).toNat = 0x100 from rfl]; omega)

end

/-- The bit operand of DSTEP selects the child (R109). -/
theorem State.child_eq_ite (s : State) (i : NodeIdx) (ha : a.toNat ≤ 1) :
    s.child i (a = 1) = if a = 0 then (s.nodeAt i.toNat).left else (s.nodeAt i.toNat).right := by
  obtain h0 | h1 : a.toNat = 0 ∨ a.toNat = 1 := by omega
  · obtain rfl : a = 0 := BitVec.eq_of_toNat_eq h0
    rfl
  · obtain rfl : a = 1 := BitVec.eq_of_toNat_eq h1
    rfl

/-- Settles O51: DSTEP answers what one step of the walker gives, case by case. -/
theorem dstepWalksOneBit : Obligations.DstepWalksOneBit := by
  refine ⟨fun a ha => decodeOfEncodeIsTheCommand (.dstep a) (decide_eq_true ha),
    fun a d hbad => isIllegal_of_maskA (row := opcodeMap[19]) (List.getElem_mem _) rfl
      (hbad.imp_left fun ha hwf => Nat.not_le.mpr ha (of_decide_eq_true hwf)),
    fun a s ha hp => by simp [exec, execDstep, Nat.not_lt.mpr ha, hp, raise],
    fun a s ha hp => ⟨fun hbad => ?_, fun hr hroot h0 => ?_, fun hr hroot next hnext => ?_⟩⟩
  · exact exec_dstep_of_badCode ha hp
      (State.walkStep_of_badCode (hbad.imp_right (And.imp_right decide_eq_true)))
  · subst h0
    exact exec_dstep_of_emit ha hp (State.walkStep_of_single hr hroot)
  · rw [← State.child_eq_ite s s.cur ha] at hnext
    subst hnext
    exact ⟨fun hleaf => exec_dstep_of_emit ha hp (State.walkStep_to_leaf hr hroot hleaf),
      fun hint => exec_dstep_of_noEmit ha hp (State.walkStep_to_internal hr hroot hint)⟩

/-! ### DRST, and the tests of DECODE -/

theorem exec_drst_of_uninit (hp : s.phase = .uninit) :
    exec .drst s = .next (s.answer ⟨.error .phase, 0⟩) := by
  simp [exec, execDrst, hp, raise]

theorem exec_drst_of_built (hp : s.phase = .built) :
    exec .drst s = .next ((s.setCur s.root).answer ⟨.ok, 0⟩) := by
  simp [exec, execDrst, hp, respondOk]

/-- Settles O52: DRST has a row of format N, and in BUILT it is `setCur` with its response. -/
theorem drstReturnsToTheRoot : Obligations.DrstReturnsToTheRoot :=
  ⟨rfl, fun _ _ => isIllegal_of_maskN (row := opcodeMap[20]) (List.getElem_mem _) rfl,
    fun _ => exec_drst_of_uninit, fun _ => exec_drst_of_built⟩

/-- Settles O53: DECODE has a row of format D, and its two tests come before its loop. -/
theorem decodeTestsPhaseThenRange : Obligations.DecodeTestsPhaseThenRange :=
  ⟨fun d => decodeOfEncodeIsTheCommand (.decode d) rfl,
    fun _ _ => isIllegal_of_maskD (row := opcodeMap[18]) (List.getElem_mem _) rfl,
    fun d _ => exec_decode_of_uninit d, fun _ _ => exec_decode_of_lt⟩

end Sys2Proof.Machine
end

section
/-! PROOFS. The round-trip law (spec/45_coder.md R117): what ENCODE answers OK for is decoded again,
by the same instance and by every instance with the same codes and the same bytes. -/

namespace Sys2Proof.Machine

variable {i : Instr} {s t v : State} {p : Params} {n : Word32} {text : List Symbol}

/-! ### ENCODE and DECODE -/

/-- R106 read backwards: an OK of ENCODE means that every symbol has a code, and that the valid bits
are the codes. -/
theorem State.BuffersOk.exec_encode_ok (h : s.BuffersOk) (hexec : exec .encode s = .next t)
    (hrsp : t.rsp = some ⟨.ok, n⟩) :
    s.phase = .built ∧ (∀ a ∈ s.symbols, s.codeAt a ≠ []) ∧ n = t.bitlen ∧
      t.validBits = s.codesOf s.symbols := by
  cases hp : s.phase with
  | uninit =>
    obtain rfl := Host.Outcome.next.inj ((exec_encode_of_uninit hp).symm.trans hexec)
    simp at hrsp
  | built =>
    obtain ⟨hcoded, hfit⟩ :=
      encodeFrom_ok ((exec_encode_of_built hp).symm.trans hexec) hrsp (Nat.zero_le _)
    have room : (s.codesOf s.symbols).length ≤ 8 * s.params.byteCap :=
      (Nat.zero_add _).symm.trans_le hfit
    obtain rfl := Host.Outcome.next.inj ((exec_encode_of_fit hp hcoded room).symm.trans hexec)
    refine ⟨rfl, hcoded, by simpa [eq_comm] using hrsp, ?_⟩
    exact h.emptyStream.appendBits_validBits _ (State.emptyStream_room room)

/-- The valid bytes give every stream bit they hold. -/
theorem State.streamBits_of_bytes (hbytes : s.bytes = t.bytes) {m : Nat}
    (hm : m ≤ 8 * s.bytelen) : s.streamBits 0 m = t.streamBits 0 m := by
  have hlen : s.bytelen = t.bytelen := by
    rw [← s.bytes_length, hbytes, t.bytes_length]
  refine List.map_congr_left fun k hk => ?_
  have hk := List.mem_range.mp hk
  rw [State.streamBit, State.streamBit, ← s.bytes_getD (by omega), ← t.bytes_getD (by omega),
    hbytes]

/-- An instance with the codes that a text was encoded with, and with the bytes that ENCODE left in
`t`, decodes the text. -/
theorem State.Inv.decodes_encoded (hv : v.Inv) (hp : v.phase = .built) (hcode : v.code = s.code)
    (hbytes : v.bytes = t.bytes) (hcoded : ∀ a ∈ text, s.codeAt a ≠ [])
    (room : text.length ≤ v.params.symCap) (hbits : t.validBits = s.codesOf text) :
    ∃ u, exec (.decode t.bitlen) v = .next u ∧
      u.rsp = some ⟨.ok, BitVec.ofNat 32 text.length⟩ ∧ u.symbols = text := by
  have hd : t.bitlen.toNat ≤ 8 * v.bytelen := by
    rw [← v.bytes_length, hbytes, t.bytes_length]
    exact t.bitlen_le_bytelen
  have hstream : v.streamBits 0 t.bitlen.toNat = v.codesOf text := by
    rw [State.streamBits_of_bytes hbytes hd, State.codesOf_congr hcode]
    exact hbits
  obtain ⟨u, hexec, hrsp, hlen, hsymbols, _⟩ := decodeReadsTheCodesBack v t.bitlen text hv hp
    (State.codeAt_congr hcode ▸ hcoded) room hd hstream
  refine ⟨u, hexec, ?_, hsymbols⟩
  rw [hrsp, ← hlen, BitVec.ofNat_toNat, BitVec.setWidth_eq]

/-! ### The invariant along a run -/

theorem IsInvariant.exec {P : State → Prop} (h : IsInvariant P) (hs : P s)
    (hexec : exec i s = .next t) : P t := by
  obtain ⟨u, r, rfl, hu⟩ := exec_eq_next hexec
  exact h.answer r (h.changes hu hs)

theorem runAll_cons {rest : List Instr} (h : exec i s = .next t) :
    runAll (i :: rest) s = runAll rest t := by
  simp only [runAll, h]

theorem runAll_append {is js : List Instr} (h : runAll is s = .next t) :
    runAll (is ++ js) s = runAll js t := by
  induction is generalizing s with
  | nil =>
    obtain rfl := Host.Outcome.next.inj h
    rfl
  | cons i rest ih =>
    obtain ⟨u, _, hexec, _⟩ := exec_answers i s
    rw [List.cons_append, runAll_cons hexec]
    exact ih ((runAll_cons hexec).symm.trans h)

theorem IsInvariant.runAll {P : State → Prop} (h : IsInvariant P) {is : List Instr} (hs : P s)
    (hrun : runAll is s = .next t) : P t := by
  induction is generalizing s with
  | nil =>
    obtain rfl := Host.Outcome.next.inj hrun
    exact hs
  | cons i rest ih =>
    obtain ⟨u, _, hexec, _⟩ := exec_answers i s
    exact ih (h.exec hs hexec) ((runAll_cons hexec).symm.trans hrun)

/-- R34: the invariant of the whole state is one in the sense of `IsInvariant`. -/
theorem State.inv_isInvariant : IsInvariant State.Inv where
  reset := resetSatisfiesTheInvariant
  change hc h := ⟨h.cells.change hc, h.buffers.change hc, h.tree.change hc, h.codes.change hc⟩
  answer r h := ⟨State.cellsOk_isInvariant.answer r h.cells,
    State.buffersOk_isInvariant.answer r h.buffers, State.treeInv_isInvariant.answer r h.tree,
    State.codeInv_isInvariant.answer r h.codes⟩
  takeEvent rest h := ⟨State.cellsOk_isInvariant.takeEvent rest h.cells,
    State.buffersOk_isInvariant.takeEvent rest h.buffers,
    State.treeInv_isInvariant.takeEvent rest h.tree,
    State.codeInv_isInvariant.takeEvent rest h.codes⟩

/-- Settles O58: the same instance has kept the codes and holds the bytes. -/
theorem decodeUndoesEncode : Obligations.DecodeUndoesEncode := by
  intro s t n h hexec hrsp
  obtain ⟨hp, hcoded, rfl, hbits⟩ := h.buffers.exec_encode_ok hexec hrsp
  obtain ⟨htp, _, _, hcode, _⟩ := exec_sameTree hexec hp (by decide)
  have hparams := (exec_answers .encode s).params_eq hexec
  have room : s.symbols.length ≤ t.params.symCap := by
    rw [s.symbols_length, hparams]
    exact h.buffers.symlen_le
  obtain ⟨u, hdec, hursp, hsymbols⟩ := (State.inv_isInvariant.exec h hexec).decodes_encoded
    (htp.trans hp) hcode rfl hcoded room hbits
  rw [s.symbols_length, BitVec.ofNat_toNat, BitVec.setWidth_eq] at hursp
  exact ⟨u, hdec, hursp, hsymbols⟩

/-! ### Runs of one command over a list of operands -/

/-- A run of one command per operand keeps a predicate of the operands that are done. -/
theorem runAll_map {α : Type} {f : α → Instr} {P : List α → State → Prop} {operands : List α}
    (hstep : ∀ done x s, done.length < operands.length → P done s →
      ∃ t, exec (f x) s = .next t ∧ P (done ++ [x]) t) (h : P [] s) :
    ∃ t, runAll (operands.map f) s = .next t ∧ P operands t := by
  suffices hrun : ∀ rest done s, operands = done ++ rest → P done s →
      ∃ t, runAll (rest.map f) s = .next t ∧ P operands t from hrun operands [] s rfl h
  intro rest
  induction rest with
  | nil =>
    rintro done s rfl hs
    exact ⟨s, rfl, by rwa [List.append_nil]⟩
  | cons x rest ih =>
    intro done s hsplit hs
    obtain ⟨t, hexec, ht⟩ := hstep done x s (by simp [hsplit]) hs
    rw [List.map_cons, runAll_cons hexec]
    exact ih (done ++ [x]) t (by rw [hsplit, List.append_assoc, List.singleton_append]) ht

/-- An instance in UNINIT whose SYMBUF holds the symbols `done`. -/
def Loading (p : Params) (done : List Symbol) (s : State) : Prop :=
  s.params = p ∧ s.phase = .uninit ∧ s.symbols = done

theorem Loading.wsym {done : List Symbol} (h : Loading p done s) (a : Symbol)
    (room : done.length < p.symCap) :
    ∃ t, exec (.wsym a) s = .next t ∧ Loading p (done ++ [a]) t := by
  obtain ⟨rfl, hp, rfl⟩ := h
  rw [s.symbols_length] at room
  exact ⟨_, exec_wsym_of_room a room.ne, rfl, hp, State.pushSymbol_symbols a room⟩

/-- An instance in UNINIT with an empty stream whose counts are those of `freq` for the symbols
`done`. -/
def Counting (p : Params) (freq : Symbol → Count) (done : List Symbol) (s : State) : Prop :=
  s.params = p ∧ s.phase = .uninit ∧ s.bitlen = 0 ∧ ∀ a ∈ done, s.freqAt a = freq a

theorem Counting.fset {freq : Symbol → Count} {done : List Symbol} (h : Counting p freq done s)
    (a : Symbol) :
    ∃ t, exec (.fset a (freq a)) s = .next t ∧ Counting p freq (done ++ [a]) t := by
  obtain ⟨hparams, hp, hbitlen, hfreq⟩ := h
  refine ⟨_, exec_fset_of_uninit a (freq a) hp, hparams, hp, hbitlen, fun b hb => ?_⟩
  change readCell 0 (writeCell 0 s.freq a.toNat (freq a)) b.toNat = freq b
  by_cases hba : b = a
  · rw [hba, readCell_writeCell_same]
  · have hcell : b.toNat ≠ a.toNat := fun heq => hba (BitVec.eq_of_toNat_eq heq)
    rw [readCell_writeCell_other hcell]
    exact hfreq b (by simpa [hba] using hb)

/-- An instance in BUILT with the code table `code` whose BYTEBUF holds the bytes `done`. -/
def Receiving (p : Params) (code : Cells (List Bool)) (done : List Byte) (s : State) : Prop :=
  s.params = p ∧ s.phase = .built ∧ s.code = code ∧ s.bytes = done

theorem Receiving.wbyte {code : Cells (List Bool)} {done : List Byte} (h : Receiving p code done s)
    (a : Byte) (room : done.length < p.byteCap) :
    ∃ t, exec (.wbyte a) s = .next t ∧ Receiving p code (done ++ [a]) t := by
  obtain ⟨rfl, hp, hcode, rfl⟩ := h
  rw [s.bytes_length] at room
  exact ⟨_, execWbyte_of_room a room.ne, rfl, hp, hcode, State.putByte_bytes a room⟩

/-! ### The two instances of the law -/

/-- The code table that BUILD derives from the counts (R84). -/
def codeTableOf (freq : Symbol → Count) : Cells (List Bool) :=
  deriveCodes (buildArena freq).1 (selectRoot (buildArena freq).1 (buildArena freq).2)

theorem State.build_code_eq (s : State) : s.build.code = codeTableOf s.freqAt := rfl

/-- From reset: load a text, count and build. Every symbol of the text has a code. -/
theorem runAll_text (room : text.length ≤ p.symCap) :
    ∃ s, runAll (text.map .wsym ++ [.fcount, .build]) (State.resetFor p) = .next s ∧
      s.params = p ∧ s.phase = .built ∧ s.symbols = text ∧ s.code = codeTableOf s.freqAt ∧
      ∀ a ∈ text, s.codeAt a ≠ [] := by
  obtain ⟨s, hload, hparams, hp, hsymbols⟩ :=
    runAll_map (f := .wsym) (P := Loading p) (operands := text) (s := State.resetFor p)
      (fun _ a _ hlt hs => hs.wsym a (hlt.trans_le room)) ⟨rfl, rfl, rfl⟩
  have hcount := exec_fcount_of_uninit hp
  generalize hu : (s.setFreq (countSymbols s.symbols)).answer ⟨.ok, 0⟩ = u at hcount
  have hup : u.phase = .uninit := hu ▸ hp
  refine ⟨_, (runAll_append hload).trans ((runAll_cons hcount).trans
    (runAll_cons (exec_build_of_uninit hup))), ?_, rfl, ?_, rfl, fun a ha => ?_⟩
  · exact hu ▸ hparams
  · exact hu ▸ hsymbols
  · have hfreq : (u.freqAt a).toNat = text.count a := by
      rw [← hsymbols, ← readCell_countSymbols, ← hu]
      rfl
    refine (u.build_codesOk.coded_iff a).mpr fun hzero : u.freqAt a = 0 => ?_
    have hpos := List.count_pos_iff.mpr ha
    rw [← hfreq, hzero] at hpos
    exact absurd hpos (by decide)

/-- From reset: set every count, build and write the bytes. -/
theorem runAll_bytes (freq : Symbol → Count) {bytes : List Byte} (room : bytes.length ≤ p.byteCap) :
    ∃ s, runAll (allSymbols.map (fun a => .fset a (freq a)) ++ [.build] ++ bytes.map .wbyte)
        (State.resetFor p) = .next s ∧ Receiving p (codeTableOf freq) bytes s := by
  obtain ⟨s, hset, hparams, hp, hbitlen, hfreq⟩ :=
    runAll_map (f := fun a => .fset a (freq a)) (P := Counting p freq) (operands := allSymbols)
      (s := State.resetFor p) (fun _ a _ _ hs => hs.fset a)
      ⟨rfl, rfl, rfl, fun a ha => absurd ha List.not_mem_nil⟩
  have hcode : s.build.code = codeTableOf freq := by
    rw [State.build_code_eq, funext fun a => hfreq a (mem_allSymbols a)]
  have hbuilt := (runAll_append hset).trans (runAll_cons (rest := []) (exec_build_of_uninit hp))
  obtain ⟨t, hwrite, ht⟩ :=
    runAll_map (f := .wbyte) (P := Receiving p (codeTableOf freq)) (operands := bytes)
      (s := s.build.answer ⟨.ok, s.build.nnodes.setWidth 32⟩)
      (fun _ a _ hlt hs => hs.wbyte a (hlt.trans_le room))
      ⟨hparams, rfl, hcode, State.bytes_of_empty hbitlen⟩
  exact ⟨t, (runAll_append hbuilt).trans hwrite, ht⟩

/-- Settles O59: ENCODE keeps the counts, so both instances have the codes of the text's counts and
the bytes of its stream. -/
theorem roundTripFromReset : Obligations.RoundTripFromReset := by
  intro p text room
  obtain ⟨s, hrun, rfl, hp, rfl, hcode, hcoded⟩ := runAll_text room
  have hs := State.inv_isInvariant.runAll (resetSatisfiesTheInvariant _) hrun
  obtain ⟨t, _, hexec, _, hparams, _⟩ := exec_answers .encode s
  refine ⟨s, t, hrun, hexec, fun hfit => ?_, fun n hrsp => ?_⟩
  · obtain rfl := Host.Outcome.next.inj ((exec_encode_of_fit hp hcoded hfit).symm.trans hexec)
    exact ⟨_, rfl⟩
  obtain ⟨_, _, rfl, hbits⟩ := hs.buffers.exec_encode_ok hexec hrsp
  obtain ⟨htp, hfreq, _, htcode, _⟩ := exec_sameTree hexec hp (by decide)
  refine ⟨?_, fun hempty => ?_, fun q hq hbytes => ?_⟩
  · exact (State.inv_isInvariant.exec hs hexec).decodes_encoded (htp.trans hp) htcode rfl hcoded
      (hparams.symm ▸ room) hbits
  · have hlen := congrArg List.length hbits
    rw [hempty, t.validBits_length] at hlen
    have hzero : t.bitlen = 0 := BitVec.eq_of_toNat_eq hlen
    exact ⟨hzero, State.bytes_of_empty hzero⟩
  · obtain ⟨v, hvrun, hvparams, hvp, hvcode, hvbytes⟩ :=
      runAll_bytes (p := q) t.freqAt (bytes := t.bytes) (by rwa [t.bytes_length])
    have hv := State.inv_isInvariant.runAll (resetSatisfiesTheInvariant q) hvrun
    rw [State.freqAt_congr hfreq, ← hcode] at hvcode
    obtain ⟨u, hdec, hursp, husymbols⟩ :=
      hv.decodes_encoded hvp hvcode hvbytes hcoded (hvparams.symm ▸ hq) hbits
    exact ⟨u, (runAll_append hvrun).trans (runAll_cons hdec), hursp, husymbols⟩

end Sys2Proof.Machine
end

section
/-! PROOFS. The statements of spec/60_exceptions.md: which errors a command raises, and what they
leave. -/

namespace Sys2Proof.Machine

variable {i : Instr} {s t : State} {e : ErrorKind} {info : Word32} {kinds : List ErrorKind}
  {x y : Result} {d : Word32}

/-! ### Operands outside the legal values (R62) -/

/-- The meanings with a restricted operand refuse what their row of R60 does not allow; every other
command is well formed. -/
theorem exec_of_not_wf (s : State) (h : i.wf = false) :
    exec i s = .next (s.answer ⟨.error .illegal, 0⟩) := by
  cases i with
  | rdreg | nget | cget | dstep => exact if_pos (Nat.lt_of_not_le (of_decide_eq_false h))
  | bput | bget => exact if_pos (not_not.mp (mt bitCount_legal_iff.mp (of_decide_eq_false h)))
  | _ => cases h

/-! ### Errors that change only the response (R123, last row) -/

/-- An error that is answered at once changes only the response. -/
theorem eq_of_answer_error {e' : ErrorKind} {info' : Word32}
    (h : (.next (s.answer ⟨.error e, info⟩) : Result) = .next t)
    (hrsp : t.rsp = some ⟨.error e', info'⟩) : e' = e ∧ t = { s with rsp := t.rsp } := by
  obtain rfl := Host.Outcome.next.inj h
  obtain ⟨rfl, -⟩ : e = e' ∧ info = info' := by simpa using hrsp
  exact ⟨rfl, rfl⟩

/-- An error among the answers of `x` has one of the kinds given, and its state is `s` but for the
response. -/
def RaisesOnly (kinds : List ErrorKind) (s : State) (x : Result) : Prop :=
  ∀ t e info, x = .next t → t.rsp = some ⟨.error e, info⟩ →
    e ∈ kinds ∧ t = { s with rsp := t.rsp }

theorem RaisesOnly.respondOk (d : Word32) (u : State) : RaisesOnly kinds s (respondOk d u) := by
  rintro t e info h hrsp
  obtain rfl := Host.Outcome.next.inj h
  simp at hrsp

theorem RaisesOnly.raise (he : e ∈ kinds) (info : Word32) (s : State) :
    RaisesOnly kinds s (raise e info s) := by
  rintro t e' info' h hrsp
  obtain ⟨rfl, hsame⟩ := eq_of_answer_error h hrsp
  exact ⟨he, hsame⟩

theorem RaisesOnly.ite {c : Prop} [Decidable c] (hx : RaisesOnly kinds s x)
    (hy : RaisesOnly kinds s y) : RaisesOnly kinds s (if c then x else y) :=
  iteInduction (fun _ => hx) fun _ => hy

/-- A test that does not hold raises nothing. -/
theorem RaisesOnly.ite_neg {c : Prop} [Decidable c] (hc : ¬ c) (hy : RaisesOnly kinds s y) :
    RaisesOnly kinds s (if c then x else y) :=
  iteInduction (fun h => absurd h hc) fun _ => hy

/-- A walker that fails has not moved (R109). -/
theorem State.eq_of_walkStep_badCode {b : Bool} (h : s.walkStep b = (.badCode, t)) : t = s := by
  obtain ⟨hw, _⟩ | ⟨hw, _⟩ | ⟨hw, _⟩ | ⟨hw, _⟩ := s.walkStep_cases b
  · exact congrArg Prod.snd (h.symm.trans hw)
  all_goals cases congrArg Prod.fst (h.symm.trans hw)

theorem exec_dstep_raisesOnly {a : OperandA} (ha : a.toNat ≤ 1) (s : State) :
    RaisesOnly [.phase, .badcode] s (exec (.dstep a) s) := by
  refine .ite_neg (Nat.not_lt.mpr ha) ?_
  split
  · exact .raise (by simp) _ _
  · split
    · rename_i hwalk
      rw [State.eq_of_walkStep_badCode hwalk]
      exact .raise (by simp) _ _
    · exact .respondOk _ _
    · exact .respondOk _ _

/-- R120: with legal operands every command but ENCODE and DECODE raises the errors of its row, and
raises them before it changes anything. -/
theorem exec_raisesOnly (hwf : i.wf = true) (hencode : i ≠ .encode)
    (hdecode : ¬ ∃ d, i = .decode d) (s : State) : RaisesOnly (errorsOf i) s (exec i s) := by
  cases i with
  | nop | clr | clrs | fget | clrb => exact .respondOk _ _
  | wsym | rsym | wbyte | rbyte =>
    exact .ite (.raise (by simp [errorsOf]) _ _) (.respondOk _ _)
  | fcount | fset | build | drst =>
    simp only [exec, execFcount, execFset, execBuild, execDrst]
    split
    · exact .raise (by simp [errorsOf]) _ _
    · exact .respondOk _ _
  | rdreg => exact .ite_neg (Nat.not_lt.mpr (of_decide_eq_true hwf)) (.respondOk _ _)
  | cget =>
    exact .ite_neg (Nat.not_lt.mpr (of_decide_eq_true hwf)) (.ite (.respondOk _ _) (.respondOk _ _))
  | nget =>
    exact .ite_neg (Nat.not_lt.mpr (of_decide_eq_true hwf))
      (.ite (.raise (by simp [errorsOf]) _ _) (.respondOk _ _))
  | bput | bget =>
    exact .ite_neg (bitCount_legal_iff.mpr (of_decide_eq_true hwf))
      (.ite (.raise (by simp [errorsOf]) _ _) (.respondOk _ _))
  | dstep a => exact exec_dstep_raisesOnly (of_decide_eq_true hwf) s
  | encode => exact absurd rfl hencode
  | decode d => exact absurd ⟨d, rfl⟩ hdecode

/-- R123, last row: legal operands or not, an error of a command other than ENCODE and DECODE leaves
everything but the response. -/
theorem eq_of_exec_error (hencode : i ≠ .encode) (hdecode : ¬ ∃ d, i = .decode d)
    (h : exec i s = .next t) (hrsp : t.rsp = some ⟨.error e, info⟩) :
    t = { s with rsp := t.rsp } := by
  cases hwf : i.wf with
  | false => exact (eq_of_answer_error ((exec_of_not_wf s hwf).symm.trans h) hrsp).2
  | true => exact (exec_raisesOnly hwf hencode hdecode s t e info h hrsp).2

/-! ### Errors of ENCODE and DECODE (R123, first two rows) -/

theorem State.phase_cases (s : State) : s.phase = .uninit ∨ s.phase = .built := by
  cases s.phase <;> simp

/-- ENCODE fails before it starts and changes nothing, or fails while it runs and empties the
stream. -/
theorem exec_encode_error (h : exec .encode s = .next t)
    (hrsp : t.rsp = some ⟨.error e, info⟩) :
    (e = .phase ∧ t = { s with rsp := t.rsp }) ∨
      ((e = .overflow ∨ e = .unksym) ∧ t.bitlen = 0) := by
  obtain hp | hp := s.phase_cases
  · exact .inl (eq_of_answer_error ((exec_encode_of_uninit hp).symm.trans h) hrsp)
  · obtain ⟨u, r, hu, hr, _, hcase⟩ := encodeFrom_answers 0 s.symbols s.emptyStream
    obtain rfl := Host.Outcome.next.inj (hu.symm.trans ((exec_encode_of_built hp).symm.trans h))
    obtain rfl := Option.some.inj (hr.symm.trans hrsp)
    obtain hok | ⟨hempty, hkind⟩ := hcase
    · simp at hok
    · exact .inr ⟨by simpa [or_comm] using hkind, hempty⟩

/-- DECODE fails before it starts and changes nothing, or fails while it runs, empties the output and
returns the walker to the root. -/
theorem exec_decode_error (h : exec (.decode d) s = .next t)
    (hrsp : t.rsp = some ⟨.error e, info⟩) :
    ((e = .phase ∨ e = .range) ∧ t = { s with rsp := t.rsp }) ∨
      ((e = .overflow ∨ e = .badcode ∨ e = .trunc) ∧ t.symlen = 0 ∧ t.cur = s.root) := by
  obtain hp | hp := s.phase_cases
  · obtain ⟨he, hsame⟩ := eq_of_answer_error ((exec_decode_of_uninit d hp).symm.trans h) hrsp
    exact .inl ⟨.inl he, hsame⟩
  obtain hd | hd := Nat.lt_or_ge (8 * s.bytelen) d.toNat
  · obtain ⟨he, hsame⟩ := eq_of_answer_error ((exec_decode_of_lt hp hd).symm.trans h) hrsp
    exact .inl ⟨.inr he, hsame⟩
  · obtain ⟨u, r, hu, hr, _, hcur, hcase⟩ :=
      decodeFrom_answers 0 0 (s.streamBits 0 d.toNat) s.emptyOutput
    obtain rfl := Host.Outcome.next.inj (hu.symm.trans ((exec_decode_of_le hp hd).symm.trans h))
    obtain rfl := Option.some.inj (hr.symm.trans hrsp)
    obtain hok | ⟨hempty, hkind⟩ := hcase
    · simp at hok
    · exact .inr ⟨by simpa [or_left_comm] using hkind, hempty, hcur⟩

/-! ### The statements -/

/-- Settles O22: ENCODE and DECODE have their own rows of R123; every other command raises its errors
before it changes anything. -/
theorem errorsLeaveTheStateTheTableGives : Obligations.ErrorsLeaveTheStateTheTableGives := by
  intro i s t e info hexec hrsp
  by_cases hencode : i = .encode
  · subst hencode
    obtain ⟨rfl, hsame⟩ | ⟨hkind, hempty⟩ := exec_encode_error hexec hrsp
    · exact ⟨by simp, by simp, fun _ _ => hsame⟩
    · exact ⟨fun _ => ⟨hempty, exec_encode_frame hexec⟩, by simp,
        fun hno => absurd ⟨rfl, hkind⟩ hno⟩
  by_cases hdecode : ∃ d, i = .decode d
  · obtain ⟨d, rfl⟩ := hdecode
    obtain ⟨hkind, hsame⟩ | ⟨hkind, hempty, hcur⟩ := exec_decode_error hexec hrsp
    · exact ⟨by simp, by obtain rfl | rfl := hkind <;> simp, fun _ _ => hsame⟩
    · exact ⟨by simp, fun _ => ⟨hempty, hcur, exec_decode_frame hexec⟩,
        fun _ hno => absurd ⟨⟨d, rfl⟩, hkind⟩ hno⟩
  · exact ⟨fun h => absurd h.1 hencode, fun h => absurd h.1 hdecode,
      fun _ _ => eq_of_exec_error hencode hdecode hexec hrsp⟩

/-- Settles O24: with legal operands the tests that are left raise the kinds of the row. -/
theorem errorKindsComeOnlyFromTheirCommands : Obligations.ErrorKindsComeOnlyFromTheirCommands := by
  refine fun i s => ⟨fun hwf t e info hexec hrsp => ?_, exec_of_not_wf s⟩
  by_cases hencode : i = .encode
  · subst hencode
    obtain ⟨rfl, _⟩ | ⟨rfl | rfl, _⟩ := exec_encode_error hexec hrsp <;> decide
  by_cases hdecode : ∃ d, i = .decode d
  · obtain ⟨d, rfl⟩ := hdecode
    obtain ⟨rfl | rfl, _⟩ | ⟨rfl | rfl | rfl, _⟩ := exec_decode_error hexec hrsp <;>
      simp [errorsOf]
  · exact (exec_raisesOnly hwf hencode hdecode s t e info hexec hrsp).1

theorem exec_build_of_built (hp : s.phase = .built) :
    exec .build s = .next (s.answer ⟨.error .phase, 0⟩) := by
  simp [exec, execBuild, hp, raise]

/-- Settles O23: each of the seven commands tests the phase before anything else. -/
theorem phaseErrorsChangeNothing : Obligations.PhaseErrorsChangeNothing := by
  obtain ⟨_, _, dstepOfUninit, _⟩ := dstepWalksOneBit
  exact fun s =>
    ⟨fun hp => ⟨exec_fcount_of_built hp, fun a d => exec_fset_of_built a d hp,
        exec_build_of_built hp⟩,
      fun hp => ⟨exec_encode_of_uninit hp, fun d => exec_decode_of_uninit d hp,
        fun a ha => dstepOfUninit a s ha hp, exec_drst_of_uninit hp⟩⟩

end Sys2Proof.Machine
end
